-- ==== Sys2Proof/Word.lean ====
section
/-! DEFINITION. The word types of the bus and of the buffer memories (spec 00_scope R6, R9; 20_memory R71). -/

namespace Sys2Proof

/-- A bus data word: DW = 32 (R6). -/
abbrev Word := BitVec 32

/-- A bus word address: AW = 24 (R6, R70). -/
abbrev Addr := BitVec 24

/-- An element of MSG, ECC or OUT: an unsigned byte (R35, R36, R38). -/
abbrev Byte := BitVec 8

/-- A 16-bit element: signed in DET, CUR, OUTF and PCM, unsigned in SPEC_LO and SPEC_HI (R37, R39 to R42). -/
abbrev Half := BitVec 16

/-- The payload of one ECC block: a 4-bit value (R190). -/
abbrev Nibble := BitVec 4

end Sys2Proof
end

