-- ==== Sys2Proof/Config.lean ====
section
/-! DEFINITION. What one build of the core fixes: the structural parameters (spec 00_scope R6), the constant
registers (10_state R22, R28, R32, R33) and the values the spec leaves open, as constants with no body. -/

namespace Sys2Proof

/-! ### Structural parameters (R6) -/

/-- MAXF: largest legal PAYLOAD_FRAMES; number of DET elements. -/
def Config.maxFrames : Nat := 1024

/-- MAXN: largest legal SAMPLES_PER_FRAME; number of CUR elements. -/
def Config.maxSamples : Nat := 1024

/-- ROMLEN: number of points of the sine ROM. -/
def Config.romLen : Nat := 1024

/-- MAXMSG = MAXF / 16: number of MSG and OUT elements. -/
def Config.maxMsg : Nat := 64

/-- MAXECC = MAXF / 8: number of ECC elements. -/
def Config.maxEcc : Nat := 128

/-- SPECSTRIDE = MAXN / 2: row stride of SPEC_LO and SPEC_HI. -/
def Config.specStride : Nat := 512

/-- MAXPCM = MAXF × MAXN: number of OUTF and PCM elements. -/
def Config.maxPcm : Nat := 1048576

/-! ### Constant registers (R22, R28, R32, R33) -/

/-- ID, ASCII "ECC1" (R33). -/
def Config.id : Word := 0x45434331#32

/-- ECC_N: code bits per block (R190). -/
def Config.eccN : Word := 8#32

/-- ECC_K: payload bits per block (R190). -/
def Config.eccK : Word := 4#32

/-- ECC_T: bit errors corrected per block (R190). -/
def Config.eccT : Word := 1#32

/-- ECC_D: bit errors detected per block (R190). -/
def Config.eccD : Word := 2#32

/-- PREAMBLE_LEN: there is no preamble (R32). -/
def Config.preambleLen : Word := 0#32

/-- POSTAMBLE_LEN: there is no postamble (R32). -/
def Config.postambleLen : Word := 0#32

/-- THRESHOLD of the classifier (R32, R221). -/
def Config.threshold : Word := 0#32

/-! ### Free values

Each is a constant with no body: nothing can be proved of its value, so a theorem that mentions it holds
whatever the chip holds there. An element is named by its bus word address (20_memory R71). -/

/-- The unspecified, stable power-on content of the byte element at a word address (R43, R85; U1). Log 1. -/
opaque Config.powerOnByte : Nat → Byte

/-- The unspecified, stable power-on content of the 16-bit element at a word address (R43, R85; U1). Log 1. -/
opaque Config.powerOnHalf : Nat → Half

/-- What the byte element at a word address holds after the k-th command abandoned by `rst`, when it is in that
command's write set (R273; U3). Log 6. -/
opaque Config.abandonedByte : Nat → Nat → Byte

/-- The same for a 16-bit element (R273; U3). Log 6. -/
opaque Config.abandonedHalf : Nat → Nat → Half

end Sys2Proof
end

