-- ==== Sys2Proof/Syntax.lean ====
section
/-! DEFINITION. The commands of the core: one constructor per row of the opcode table (spec 30_encoding R102). -/

namespace Sys2Proof

/-- A command. Every row has the one operand field IMM, used as a mathematical integer (R101); NOP, CONFIGURE,
GEN_SPECTRUM and RESET ignore it (R104), and it is kept so that no bit of a command word is dropped. -/
inductive Instr where
  /-- NOP: IMM ignored (R120). -/
  | nop (imm : Nat)
  /-- CONFIGURE: IMM ignored (R121). -/
  | configure (imm : Nat)
  /-- ENCODE: IMM is `size`, the payload length in bytes (R197). -/
  | encode (imm : Nat)
  /-- CORRECT: IMM is `length`, the received length in bytes (R198). -/
  | correct (imm : Nat)
  /-- GEN_SPECTRUM: IMM ignored (R140). -/
  | genSpectrum (imm : Nat)
  /-- GEN_PCM: IMM is `size`, the payload length in bytes (R160). -/
  | genPcm (imm : Nat)
  /-- DECODE: IMM is `totalLength`, the expected number of frames (R220). -/
  | decode (imm : Nat)
  /-- RESET: IMM ignored (R123). -/
  | reset (imm : Nat)
deriving DecidableEq, Repr

/-- The operand field of a command. -/
def Instr.imm : Instr → Nat
  | .nop imm => imm
  | .configure imm => imm
  | .encode imm => imm
  | .correct imm => imm
  | .genSpectrum imm => imm
  | .genPcm imm => imm
  | .decode imm => imm
  | .reset imm => imm

end Sys2Proof
end

