-- ==== Sys2Proof/WellFormed.lean ====
section
/-! DEFINITION. When a command has an encoding (spec 30_encoding R100). -/

namespace Sys2Proof

/-- IMM is "a 24-bit unsigned number 0..16777215" (R100). It is the only field of a command, so this is the only
check. -/
def Instr.wellFormed (i : Instr) : Bool := decide (i.imm ≤ 16777215)

end Sys2Proof
end

