-- ==== Sys2Proof/Decode.lean ====
section
/-! DEFINITION. The decoder of command words, total on every word, and the encoder (spec 30_encoding R100 to R104). -/

namespace Sys2Proof

/-- Why a word is no command. -/
inductive DecodeError where
  /-- OP is one of the reserved values 0x08 to 0xFF (R103). The core answers it with Reject(IllegalCommand). -/
  | illegalCommand (op : Byte)
deriving DecidableEq, Repr

/-- `c[7:0]`, the opcode OP (R100). -/
def opField (c : Word) : Byte := c.extractLsb' 0 8

/-- `c[31:8]`, the operand IMM, zero-extended to an integer, not scaled and not shifted (R100, R101). -/
def immField (c : Word) : Nat := (c.extractLsb' 8 24).toNat

/-- Decoding reads OP alone to know the command (R100, R102); OP above 0x07 is rejected by name (R103). -/
def decode (c : Word) : Except DecodeError Instr :=
  match (opField c).toNat with
  | 0x00 => .ok (.nop (immField c))
  | 0x01 => .ok (.configure (immField c))
  | 0x02 => .ok (.encode (immField c))
  | 0x03 => .ok (.correct (immField c))
  | 0x04 => .ok (.genSpectrum (immField c))
  | 0x05 => .ok (.genPcm (immField c))
  | 0x06 => .ok (.decode (immField c))
  | 0x07 => .ok (.reset (immField c))
  | _ => .error (.illegalCommand (opField c))

/-- The OP value of a command (R102). -/
def Instr.opcode : Instr → Byte
  | .nop _ => 0x00#8
  | .configure _ => 0x01#8
  | .encode _ => 0x02#8
  | .correct _ => 0x03#8
  | .genSpectrum _ => 0x04#8
  | .genPcm _ => 0x05#8
  | .decode _ => 0x06#8
  | .reset _ => 0x07#8

/-- The one word of a well-formed command: IMM ‖ OP (R100). -/
def encode (i : Instr) : Word := BitVec.ofNat 24 i.imm ++ i.opcode

/-- The command the decoder reads from a table word whose low `nbits` bits are `w`; bits above `nbits` are 0. -/
def decodeTableWord (nbits w : Nat) : Option Instr :=
  match decode (BitVec.ofNat 32 (w % 2 ^ nbits)) with
  | .ok i => some i
  | .error _ => none

end Sys2Proof
end

