-- ==== Sys2Proof/Machine/State.lean ====
section
/-! DEFINITION. The whole state of the core as plain data (spec 10_state R20 to R44), the reasons a step can stop,
and the state after reset (70_reset_and_hazards R271). -/

namespace Sys2Proof.Machine

/-- STATE, held in STATUS[3:0]: the nine values of R23. EncodingFrameLoop, Classifying and Correcting are held only
inside a command. -/
inductive CoreState where
  | unconfigured
  | idle
  | spectrumReady
  | encodingFrameLoop
  | finalized
  | classifying
  | correcting
  | done
  | failed
deriving DecidableEq, Repr

/-- The registers that hold a value (R22). STATUS is held as its fields (R24); the constant registers and CMD hold
nothing and stand in Config and Machine/Bus.lean. Log 9. -/
structure Regs where
  /-- STATUS[3:0] (R23). -/
  state : CoreState
  /-- STATUS[4]: the tables hold the current geometry's spectra (R24). -/
  specValid : Bool
  /-- STATUS[5]: the last ecc_correct corrected at least one block (R24). -/
  corrected : Bool
  /-- STATUS[6]: the last ecc_correct met an uncorrectable block (R24). -/
  uncorrectable : Bool
  /-- STATUS[7]: sticky, set by every Reject (R24). -/
  cmdErr : Bool
  /-- STATUS[11:8]: the code of the most recent Fail or Reject (R24). -/
  errc : BitVec 4
  /-- RESULT, a two's complement status (R25). -/
  result : Word
  /-- PAYLOAD_FRAMES, short name F (R26). -/
  payloadFrames : Word
  /-- PAYLOAD_FRAME_SIZE (R26). -/
  payloadFrameSize : Word
  /-- SAMPLES_PER_FRAME, short name N (R26). -/
  samplesPerFrame : Word
  /-- FREQUENCY_START, short name k0 (R26). -/
  frequencyStart : Word
  /-- OUTPUT_GAIN, short name g (R26). -/
  outputGain : Word
  /-- MAX_PAYLOAD (R27). -/
  maxPayload : Word
  /-- ECC_LEN (R29). -/
  eccLen : Word
  /-- OUT_LEN (R29). -/
  outLen : Word
  /-- PCM_LEN (R29). -/
  pcmLen : Word
  /-- OUTF_LEN (R29). -/
  outfLen : Word
  /-- FRAME_IDX (R30). -/
  frameIdx : Word
  /-- FRAME_BIT (R30). -/
  frameBit : Word
  /-- CORR_COUNT (R31). -/
  corrCount : Word
deriving DecidableEq, Repr

/-- The elements of one buffer memory that something has written since power-on, as (index, element) pairs. At
width 8 it is a list of Host.Cell. An unlisted index was never written. Logs 2 and 3. -/
abbrev Cells (w : Nat) := List (Nat × BitVec w)

/-- The memories of unsigned bytes (R35, R36, R38). -/
inductive ByteSpace where
  | msg
  | ecc
  | out
deriving DecidableEq, Repr

/-- The memories of 16-bit elements (R37, R39 to R42). -/
inductive HalfSpace where
  | det
  | cur
  | specLo
  | specHi
  | outf
  | pcm
deriving DecidableEq, Repr

/-- The nine buffer memories (R20). -/
structure Memory where
  /-- MSG, the payload (R35). -/
  msg : Cells 8
  /-- ECC, the encoded or received bytes (R36). -/
  ecc : Cells 8
  /-- DET, one detected value per frame (R37). -/
  det : Cells 16
  /-- OUT, the recovered bytes (R38). -/
  out : Cells 8
  /-- CUR, the frame being synthesised (R39). -/
  cur : Cells 16
  /-- SPEC_LO, the symbol-0 spectra (R40). -/
  specLo : Cells 16
  /-- SPEC_HI, the symbol-1 spectra (R40). -/
  specHi : Cells 16
  /-- OUTF, all synthesised samples (R41). -/
  outf : Cells 16
  /-- PCM, the output samples (R42). -/
  pcm : Cells 16
deriving DecidableEq, Repr

/-- What the host and the platform can do to the core: whole bus transactions (R71) and edges of `rst` (R270). -/
inductive HostEvent where
  /-- HostRead(a). -/
  | read (a : Addr)
  /-- HostWrite(a, w). -/
  | write (a : Addr) (w : Word)
  /-- A rising clock edge with `rst` = 1 while no transaction is in progress. -/
  | rst
  /-- HostWrite(a, w) abandoned by `rst` before it completed (R270, R273). -/
  | rstDuring (a : Addr) (w : Word)
deriving DecidableEq, Repr

/-- How a bus transaction completed: `ready` with `err` and, for a good read, `rdata` (R83, R244). -/
inductive BusResponse where
  /-- A write completed with `err` = 0. -/
  | ok
  /-- A read completed with `err` = 0 and this `rdata`. -/
  | data (w : Word)
  /-- `err` = 1: BusError; a failed read has no value (R244, U6). -/
  | busError
deriving DecidableEq, Repr

/-- The machine. `pending`, `response` and `freeCount` are the model's own fields (logs 4 to 6). -/
structure State where
  /-- The registers (R22). -/
  regs : Regs
  /-- The buffer memories (R35 to R42). -/
  mem : Memory
  /-- The host's events still to come, the next one first. -/
  pending : List HostEvent
  /-- The completion of the last transaction; none after reset or an abandoned transaction. -/
  response : Option BusResponse
  /-- How many commands `rst` has abandoned; it numbers the free values of R273. -/
  freeCount : Nat
deriving DecidableEq, Repr

/-- Why a step stops with a fault. -/
inductive Fault where
  /-- Raised by ENCODE, CORRECT, GEN_SPECTRUM, GEN_PCM and DECODE, and by `rst` abandoning one of them, where a
  loop of the command would reach an element index its memory does not have (R71). It needs a geometry or
  MAX_PAYLOAD register beyond its legal range while STATE says constructed, which no run from reset reaches: safe.
  Log 7. -/
  | absentElement
deriving DecidableEq, Repr

/-- Why a step has no meaning. -/
inductive Refusal where
  /-- An instruction without a meaning yet; no instruction of this model is refused: safe. -/
  | notModelled (mnemonic : String)
deriving DecidableEq, Repr

/-- Every register's value after reset_registers() (R271). -/
def Regs.reset : Regs where
  state := .unconfigured
  specValid := false
  corrected := false
  uncorrectable := false
  cmdErr := false
  errc := 0#4
  result := 0#32
  payloadFrames := 0#32
  payloadFrameSize := 0#32
  samplesPerFrame := 0#32
  frequencyStart := 0#32
  outputGain := 0#32
  maxPayload := 0#32
  eccLen := 0#32
  outLen := 0#32
  pcmLen := 0#32
  outfLen := 0#32
  frameIdx := 0#32
  frameBit := 0#32
  corrCount := 0#32

/-- Memories nothing has written since power-on: every element reads its free power-on value (R43). -/
def Memory.powerOn : Memory where
  msg := []
  ecc := []
  det := []
  out := []
  cur := []
  specLo := []
  specHi := []
  outf := []
  pcm := []

/-- The machine right after the power-on reset (R270, R271, R43): registers reset, no memory written, the
sequencer idle and no transaction pending (R126). -/
def State.reset : State where
  regs := Regs.reset
  mem := Memory.powerOn
  pending := []
  response := none
  freeCount := 0

end Sys2Proof.Machine
end

