-- ==== Sys2Proof/Machine/Flags.lean ====
section
/-! DEFINITION. STATUS as the host reads it, the flag computations and the output pins (spec 10_state R23, R24,
R34, R44; 43_ecc R196). -/

namespace Sys2Proof.Machine

/-- The encodings of STATE (R23). -/
def CoreState.code : CoreState → BitVec 4
  | .unconfigured => 0#4
  | .idle => 1#4
  | .spectrumReady => 2#4
  | .encodingFrameLoop => 3#4
  | .finalized => 4#4
  | .classifying => 5#4
  | .correcting => 6#4
  | .done => 7#4
  | .failed => 8#4

/-- The states a host can read (R23, last column). -/
def CoreState.stable : CoreState → Bool
  | .encodingFrameLoop | .classifying | .correcting => false
  | _ => true

/-- STATUS: zeros ‖ ERRC ‖ CMDERR ‖ UNCORRECTABLE ‖ CORRECTED ‖ SPEC_VALID ‖ STATE (R24). -/
def Regs.statusWord (r : Regs) : Word :=
  0#20 ++ r.errc ++ BitVec.ofBool r.cmdErr ++ BitVec.ofBool r.uncorrectable ++ BitVec.ofBool r.corrected
    ++ BitVec.ofBool r.specValid ++ r.state.code

/-- The flags a run of ecc_correct leaves, from the number of corrected blocks and whether one was uncorrectable:
both flags and CORR_COUNT are cleared at its start and then set as it finds blocks (R24, R31, R196). -/
def Regs.withEccFlags (r : Regs) (count : Nat) (uncorrectable : Bool) : Regs :=
  { r with
    corrected := decide (0 < count)
    uncorrectable := uncorrectable
    corrCount := BitVec.ofNat 32 count }

/-- `done_o`: 1 exactly when STATE is Finalized or Done (R44). -/
def State.doneO (s : State) : Bool :=
  match s.regs.state with
  | .finalized | .done => true
  | _ => false

/-- `fail_o`: 1 exactly when STATE is Failed (R44). -/
def State.failO (s : State) : Bool :=
  match s.regs.state with
  | .failed => true
  | _ => false

/-- `busy_o`, of STATE and of "a command is executing" (R248): 1 while a command executes, whatever STATE is (R44). The
input is `State.executing` while the host's next transaction is under way and false between transactions. Log 20. -/
def State.busyO (_s : State) (executing : Bool) : Bool := executing

end Sys2Proof.Machine
end

