-- ==== Sys2Proof/Machine/Operands.lean ====
section
/-! DEFINITION. What a command reads beside memory: the operand IMM stands in the instruction as an integer (spec
30_encoding R101); here are the geometry registers as unsigned numbers under the spec's short names (00_scope,
glossary; 40_control R122), the bits of bytes, and the legal states of R106. -/

namespace Sys2Proof.Machine

/-- F = PAYLOAD_FRAMES as an unsigned number. -/
def Regs.frames (r : Regs) : Nat := r.payloadFrames.toNat

/-- N = SAMPLES_PER_FRAME as an unsigned number. -/
def Regs.samples (r : Regs) : Nat := r.samplesPerFrame.toNat

/-- k0 = FREQUENCY_START as an unsigned number. -/
def Regs.baseBin (r : Regs) : Nat := r.frequencyStart.toNat

/-- g = OUTPUT_GAIN as an unsigned number. -/
def Regs.gain (r : Regs) : Nat := r.outputGain.toNat

/-- MAX_PAYLOAD as an unsigned number. -/
def Regs.capacity (r : Regs) : Nat := r.maxPayload.toNat

/-- `v[7:4]` of a byte (R9). -/
def highNibble (v : Byte) : Nibble := v.extractLsb' 4 4

/-- `v[3:0]` of a byte (R9). -/
def lowNibble (v : Byte) : Nibble := v.extractLsb' 0 4

/-- `r` with bit `b` replaced by `v`, the other bits unchanged (R222). -/
def replaceBit (r : Byte) (b : Nat) (v : Bool) : Byte :=
  (r &&& ~~~(1#8 <<< b)) ||| ((BitVec.ofBool v).zeroExtend 8 <<< b)

/-- The position in its byte of the bit frame i carries: most significant bit first (R74, R161, R222). -/
def bitOfFrame (i : Nat) : Nat := 7 - i % 8

/-- The states in which ENCODE, CORRECT, GEN_PCM and DECODE run (R106). -/
def CoreState.constructed : CoreState → Bool
  | .idle | .spectrumReady => true
  | _ => false

/-- The table of R106, complete: whether a command runs in a state or is rejected with IllegalSequence. -/
def legalIn : Instr → CoreState → Bool
  | .nop _, _ => true
  | .reset _, _ => true
  | .configure _, st => decide (st = .unconfigured)
  | .genSpectrum _, st => decide (st = .idle)
  | .encode _, st => st.constructed
  | .correct _, st => st.constructed
  | .genPcm _, st => st.constructed
  | .decode _, st => st.constructed

end Sys2Proof.Machine
end

