-- ==== Sys2Proof/Machine/Ops.lean ====
section
/-! DEFINITION. The operations every command is written over: bounded loops, fixed-point arithmetic (spec 00_scope
R10 to R12), element reads and writes (20_memory R71 to R73), the register writes, and the abnormal outcomes with
the way out of them (60_exceptions R242, R243, R246). -/

namespace Sys2Proof.Machine

/-! ### Loops and arithmetic -/

/-- `for i in 0..n-1`, in that order (R11). -/
def forUpTo {σ : Type} (body : Nat → σ → σ) : Nat → σ → σ
  | 0, s => s
  | n + 1, s => body n (forUpTo body n s)

/-- `a >> k` on an integer: floor(a / 2^k), toward minus infinity (R10). -/
def floorShift (a : Int) (k : Nat) : Int := a / ((2 ^ k : Nat) : Int)

/-- sat16 (R10). -/
def sat16 (v : Int) : Int :=
  if v < -32768 then -32768 else if 32767 < v then 32767 else v

/-- The 16-bit two's complement element of an integer in its range. -/
def halfOfInt (v : Int) : Half := BitVec.ofInt 16 v

/-- `zext_32` (R10). -/
def zext32 {w : Nat} (v : BitVec w) : Word := v.zeroExtend 32

/-- `sext_32` (R10). -/
def sext32 {w : Nat} (v : BitVec w) : Word := v.signExtend 32

/-! ### Cells: one memory's written elements -/

/-- The element written last at index `i`, if any was written since power-on. -/
def Cells.find {w : Nat} (i : Nat) : Cells w → Option (BitVec w)
  | [] => none
  | (k, v) :: rest => if k = i then some v else Cells.find i rest

/-- The cells of consecutive elements from index `base` up. -/
def Cells.run {w : Nat} (base : Nat) : List (BitVec w) → Cells w
  | [] => []
  | v :: vs => (base, v) :: Cells.run (base + 1) vs

/-- Store consecutive elements from index `base` up, every other element unchanged. -/
def Cells.store {w : Nat} (base : Nat) (vs : List (BitVec w)) (c : Cells w) : Cells w :=
  c.filter (fun p => decide (p.1 < base)) ++ Cells.run base vs
    ++ c.filter (fun p => decide (base + vs.length ≤ p.1))

/-- The canonical form: indices strictly rising and below the memory's size. Log 2. -/
def Cells.wf {w : Nat} (size : Nat) (c : Cells w) : Bool :=
  decide (c.Pairwise (fun p q => p.1 < q.1)) && c.all (fun p => decide (p.1 < size))

/-! ### The nine memories -/

/-- Number of elements: MAXMSG or MAXECC (R35, R36, R38). -/
def ByteSpace.size : ByteSpace → Nat
  | .msg => Config.maxMsg
  | .ecc => Config.maxEcc
  | .out => Config.maxMsg

/-- Number of elements (R37, R39 to R42). -/
def HalfSpace.size : HalfSpace → Nat
  | .det => Config.maxFrames
  | .cur => Config.maxSamples
  | .specLo => Config.maxFrames * Config.specStride
  | .specHi => Config.maxFrames * Config.specStride
  | .outf => Config.maxPcm
  | .pcm => Config.maxPcm

/-- Base word address of the memory's region (R71). -/
def ByteSpace.base : ByteSpace → Nat
  | .msg => 0x100000
  | .ecc => 0x200000
  | .out => 0x400000

/-- Base word address of the memory's region (R71). -/
def HalfSpace.base : HalfSpace → Nat
  | .det => 0x300000
  | .cur => 0x500000
  | .specLo => 0x600000
  | .specHi => 0x700000
  | .outf => 0x800000
  | .pcm => 0x900000

/-- The written elements of a byte memory. -/
def Memory.bytes (m : Memory) : ByteSpace → Cells 8
  | .msg => m.msg
  | .ecc => m.ecc
  | .out => m.out

/-- The written elements of a 16-bit memory. -/
def Memory.halves (m : Memory) : HalfSpace → Cells 16
  | .det => m.det
  | .cur => m.cur
  | .specLo => m.specLo
  | .specHi => m.specHi
  | .outf => m.outf
  | .pcm => m.pcm

/-- Replace the written elements of a byte memory. -/
def Memory.setBytes (m : Memory) (sp : ByteSpace) (c : Cells 8) : Memory :=
  match sp with
  | .msg => { m with msg := c }
  | .ecc => { m with ecc := c }
  | .out => { m with out := c }

/-- Replace the written elements of a 16-bit memory. -/
def Memory.setHalves (m : Memory) (sp : HalfSpace) (c : Cells 16) : Memory :=
  match sp with
  | .det => { m with det := c }
  | .cur => { m with cur := c }
  | .specLo => { m with specLo := c }
  | .specHi => { m with specHi := c }
  | .outf => { m with outf := c }
  | .pcm => { m with pcm := c }

/-- Every memory is in canonical form and lists only elements that exist. -/
def Memory.wf (m : Memory) : Bool :=
  m.msg.wf ByteSpace.msg.size && m.ecc.wf ByteSpace.ecc.size && m.out.wf ByteSpace.out.size
    && m.det.wf HalfSpace.det.size && m.cur.wf HalfSpace.cur.size
    && m.specLo.wf HalfSpace.specLo.size && m.specHi.wf HalfSpace.specHi.size
    && m.outf.wf HalfSpace.outf.size && m.pcm.wf HalfSpace.pcm.size

/-! ### State: registers, elements, the response -/

/-- Write the registers. -/
def State.setRegs (s : State) (r : Regs) : State := { s with regs := r }

/-- Write the memories. -/
def State.setMem (s : State) (m : Memory) : State := { s with mem := m }

/-- Set or clear the completion the host sees. -/
def State.respond (s : State) (r : Option BusResponse) : State := { s with response := r }

/-- Leave `rest` as the events still to come. -/
def State.setPending (s : State) (rest : List HostEvent) : State := { s with pending := rest }

/-- Count one more command abandoned by `rst`. -/
def State.countAbandoned (s : State) : State := { s with freeCount := s.freeCount + 1 }

/-- `STATE <- st` (R11). -/
def State.setState (s : State) (st : CoreState) : State := s.setRegs { s.regs with state := st }

/-- A symbol bit as FRAME_BIT holds it (R30). -/
def bitWord (b : Bool) : Word := zext32 (BitVec.ofBool b)

/-- `FRAME_IDX <- i; FRAME_BIT <- b`, the start of a frame in GEN_PCM and DECODE (R30, R160, R220). -/
def State.enterFrame (s : State) (i : Nat) (b : Bool) : State :=
  s.setRegs { s.regs with frameIdx := BitVec.ofNat 32 i, frameBit := bitWord b }

/-- `MemRead` of a byte memory: an element nothing has written reads its power-on value (R11, R85). -/
def State.byteAt (s : State) (sp : ByteSpace) (i : Nat) : Byte :=
  ((s.mem.bytes sp).find i).getD (Config.powerOnByte (sp.base + i))

/-- `MemRead` of a 16-bit memory (R11, R85). -/
def State.halfAt (s : State) (sp : HalfSpace) (i : Nat) : Half :=
  ((s.mem.halves sp).find i).getD (Config.powerOnHalf (sp.base + i))

/-- `MemWrite` of consecutive elements of a byte memory, from index `base` up (R11). -/
def State.storeBytes (s : State) (sp : ByteSpace) (base : Nat) (vs : List Byte) : State :=
  s.setMem (s.mem.setBytes sp ((s.mem.bytes sp).store base vs))

/-- `MemWrite` of consecutive elements of a 16-bit memory, from index `base` up (R11). -/
def State.storeHalves (s : State) (sp : HalfSpace) (base : Nat) (vs : List Half) : State :=
  s.setMem (s.mem.setHalves sp ((s.mem.halves sp).store base vs))

/-! ### Abnormal outcomes and the way out -/

/-- The five Fail codes (R241). -/
inductive FailCode where
  | uncorrectableData
  | frameAlignmentMismatch
  | malformedEccBlock
  | payloadTooLarge
  | invalidConfiguration
deriving DecidableEq, Repr

/-- ERRC of a Fail (R241). -/
def FailCode.errc : FailCode → BitVec 4
  | .uncorrectableData => 1#4
  | .frameAlignmentMismatch => 2#4
  | .malformedEccBlock => 3#4
  | .payloadTooLarge => 4#4
  | .invalidConfiguration => 5#4

/-- RESULT of a Fail: the negated code in two's complement (R241, R242). -/
def FailCode.result (c : FailCode) : Word := -(c.errc.zeroExtend 32)

/-- The two Reject codes (R241). -/
inductive RejectCode where
  | illegalSequence
  | illegalCommand
deriving DecidableEq, Repr

/-- ERRC of a Reject (R241). -/
def RejectCode.errc : RejectCode → BitVec 4
  | .illegalSequence => 6#4
  | .illegalCommand => 7#4

/-- `raise Fail(code)`: RESULT, ERRC and STATE, nothing else (R242). -/
def State.fail (s : State) (c : FailCode) : State :=
  s.setRegs { s.regs with result := c.result, errc := c.errc, state := .failed }

/-- `raise Reject(code)`: CMDERR and ERRC, nothing else (R243). -/
def State.reject (s : State) (c : RejectCode) : State :=
  s.setRegs { s.regs with cmdErr := true, errc := c.errc }

/-- reset_registers(), the only way out of Failed: every register takes its reset value and no memory element is
written (R246, R271, R272). -/
def State.resetRegisters (s : State) : State := s.setRegs Regs.reset

/-- The sequence check of R105 (3) before a command's rule runs: outside its legal states a command is rejected
with IllegalSequence. -/
def State.sequenced (s : State) (legal : Bool) (rule : Host.Outcome State Fault Refusal) :
    Host.Outcome State Fault Refusal :=
  if legal then rule else .next (s.reject .illegalSequence)

end Sys2Proof.Machine
end

