-- ==== Sys2Proof/Machine/Ecc.lean ====
section
/-! DEFINITION. The ECC unit: the extended Hamming (8,4) code, ecc_encode, ecc_correct, ENCODE and CORRECT (spec
43_ecc R190 to R198). -/

namespace Sys2Proof.Machine

/-! ### One block -/

/-- ecc_enc_nibble(d): the data nibble, the checks p2 p1 p0 and the overall parity q, from bit 7 down (R191). -/
def eccEncNibble (d : Nibble) : Byte :=
  let d0 := d.getLsbD 0
  let d1 := d.getLsbD 1
  let d2 := d.getLsbD 2
  let d3 := d.getLsbD 3
  let p0 := d0 ^^ d1 ^^ d3
  let p1 := d0 ^^ d2 ^^ d3
  let p2 := d1 ^^ d2 ^^ d3
  let q := d0 ^^ d1 ^^ d2 ^^ d3 ^^ p0 ^^ p1 ^^ p2
  d ++ BitVec.ofBool p2 ++ BitVec.ofBool p1 ++ BitVec.ofBool p0 ++ BitVec.ofBool q

/-- The syndrome 4 × s2 + 2 × s1 + s0 of a received byte (R193). -/
def eccSyndrome (r : Byte) : Nat :=
  let s0 := r.getLsbD 1 ^^ r.getLsbD 4 ^^ r.getLsbD 5 ^^ r.getLsbD 7
  let s1 := r.getLsbD 2 ^^ r.getLsbD 4 ^^ r.getLsbD 6 ^^ r.getLsbD 7
  let s2 := r.getLsbD 3 ^^ r.getLsbD 5 ^^ r.getLsbD 6 ^^ r.getLsbD 7
  4 * s2.toNat + 2 * s1.toNat + s0.toNat

/-- P, the overall parity of a received byte (R193). -/
def eccParity (r : Byte) : Bool :=
  r.getLsbD 0 ^^ r.getLsbD 1 ^^ r.getLsbD 2 ^^ r.getLsbD 3 ^^ r.getLsbD 4 ^^ r.getLsbD 5 ^^ r.getLsbD 6
    ^^ r.getLsbD 7

/-- The bit an odd-parity block's syndrome accuses: POS2BIT, and bit 0 for syndrome 0 (R193, R194). -/
def accusedBit : Nat → Nat
  | 0 => 0
  | 1 => 1
  | 2 => 2
  | 3 => 4
  | 4 => 3
  | 5 => 5
  | 6 => 6
  | _ => 7

/-- What the decoder of one block answers: the triple (d, corr, unc) of R193. -/
structure DecodedBlock where
  /-- The 4-bit value. -/
  nibble : Nibble
  /-- One bit error was corrected. -/
  corr : Bool
  /-- An even number of bit errors, at least two, was detected. -/
  unc : Bool
deriving DecidableEq, Repr

/-- ecc_dec_byte(r) (R193). -/
def eccDecByte (r : Byte) : DecodedBlock :=
  if eccParity r then
    { nibble := highNibble (r ^^^ (1#8 <<< accusedBit (eccSyndrome r))), corr := true, unc := false }
  else if eccSyndrome r = 0 then { nibble := highNibble r, corr := false, unc := false }
  else { nibble := highNibble r, corr := false, unc := true }

/-! ### Procedures over the buffers -/

/-- The two blocks of one payload byte, high nibble first (R195). -/
def encodeByte (m : Byte) : List Byte := [eccEncNibble (highNibble m), eccEncNibble (lowNibble m)]

/-- ECC[0..2×size-1] as ecc_encode(size) computes it from MSG[0..size-1] (R195). -/
def encodedPayload (s : State) (size : Nat) : List Byte :=
  (List.range size).flatMap (fun p => encodeByte (s.byteAt .msg p))

/-- ecc_encode(size) (R195). -/
def eccEncode (size : Nat) (s : State) : State :=
  let t := s.storeBytes .ecc 0 (encodedPayload s size)
  t.setRegs { t.regs with eccLen := BitVec.ofNat 32 (2 * size) }

/-- Block j of the received bytes, decoded (R196). -/
def decodedBlock (s : State) (j : Nat) : DecodedBlock := eccDecByte (s.byteAt .ecc j)

/-- OUT[p]: 16 × hi + lo of blocks 2p and 2p + 1 (R196). -/
def decodedByte (s : State) (p : Nat) : Byte :=
  (decodedBlock s (2 * p)).nibble ++ (decodedBlock s (2 * p + 1)).nibble

/-- How many of the first `blocks` blocks have one corrected error (R196, R31). -/
def correctedBlocks (s : State) (blocks : Nat) : Nat :=
  (List.range blocks).countP (fun j => (decodedBlock s j).corr)

/-- Whether one of the first `blocks` blocks is uncorrectable (R196). -/
def anyUncorrectable (s : State) (blocks : Nat) : Bool :=
  (List.range blocks).any (fun j => (decodedBlock s j).unc)

/-- ecc_correct(pairs): every pair is processed, whatever the flags; ECC is not modified (R196). -/
def eccCorrect (pairs : Nat) (s : State) : State :=
  let t := s.storeBytes .out 0 ((List.range pairs).map (decodedByte s))
  t.setRegs (t.regs.withEccFlags (correctedBlocks s (2 * pairs)) (anyUncorrectable s (2 * pairs)))

/-- How CORRECT and DECODE end after ecc_correct(pairs): Done with the byte count, or OUT_LEN <- 0 and
Fail(UncorrectableData) (R198, R220). -/
def finishCorrection (pairs : Nat) (s : State) : State :=
  if s.regs.uncorrectable then
    (s.setRegs { s.regs with outLen := 0#32 }).fail .uncorrectableData
  else
    s.setRegs { s.regs with
      outLen := BitVec.ofNat 32 pairs
      result := BitVec.ofNat 32 pairs
      state := .done }

/-! ### Commands -/

/-- ENCODE's rule once the sequence check has passed (R197). -/
def runEncode (size : Nat) (s : State) : Host.Outcome State Fault Refusal :=
  if s.regs.capacity < size then .next (s.fail .payloadTooLarge)
  else if Config.maxMsg < size then .fault .absentElement
  else
    let t := eccEncode size s
    .next (t.setRegs { t.regs with result := t.regs.eccLen, state := .finalized })

/-- ENCODE: legal in Idle and SpectrumReady (R197). -/
def execEncode (imm : Nat) (s : State) : Host.Outcome State Fault Refusal :=
  s.sequenced (legalIn (.encode imm) s.regs.state) (runEncode imm s)

/-- CORRECT's rule once the sequence check has passed: the length checks in order, then the correction (R198). -/
def runCorrect (length : Nat) (s : State) : Host.Outcome State Fault Refusal :=
  if 2 * s.regs.capacity < length then .next (s.fail .payloadTooLarge)
  else if length % 2 = 1 then .next (s.fail .malformedEccBlock)
  else if Config.maxEcc < length then .fault .absentElement
  else
    let t := s.setRegs { s.regs with state := .correcting, eccLen := BitVec.ofNat 32 length }
    .next (finishCorrection (length / 2) (eccCorrect (length / 2) t))

/-- CORRECT: legal in Idle and SpectrumReady (R198). -/
def execCorrect (imm : Nat) (s : State) : Host.Outcome State Fault Refusal :=
  s.sequenced (legalIn (.correct imm) s.regs.state) (runCorrect imm s)

end Sys2Proof.Machine
end

