-- ==== Sys2Proof/Machine/Spectrum.lean ====
section
/-! DEFINITION. GEN_SPECTRUM and the procedure generate_spectrum (spec 41_spectrum R140 to R144). -/

namespace Sys2Proof.Machine

/-- kLo(i): the tone bin of symbol 0 in frame i (R142). -/
def toneLo (k0 i : Nat) : Nat := k0 + 2 * (i % 2)

/-- kHi(i): the tone bin of symbol 1 in frame i (R142). -/
def toneHi (k0 i : Nat) : Nat := toneLo k0 i + 1

/-- Index of (frame, bin) in a spectrum table (R40, R73). -/
def specIndex (frame bin : Nat) : Nat := frame * Config.specStride + bin

/-- One row of a table for N samples: amplitude 1.0 at the tone bin, 0 at the other N/2 - 1 bins (R141, R143). -/
def specRow (samples tone : Nat) : List Half :=
  (List.range (samples / 2)).map (fun b => if b = tone then 0x8000#16 else 0#16)

/-- Frame i's row of both tables (R141). -/
def writeSpecRows (i : Nat) (s : State) : State :=
  (s.storeHalves .specLo (specIndex i 0) (specRow s.regs.samples (toneLo s.regs.baseBin i))).storeHalves
    .specHi (specIndex i 0) (specRow s.regs.samples (toneHi s.regs.baseBin i))

/-- generate_spectrum(): rows 0..F-1 of both tables, then SPEC_VALID and STATE (R141). -/
def generateSpectrum (s : State) : State :=
  let t := forUpTo writeSpecRows s.regs.frames s
  t.setRegs { t.regs with specValid := true, state := .spectrumReady }

/-- Whether every frame and sample the geometry names has its element (R71). Log 7. -/
def Regs.geometryFits (r : Regs) : Bool :=
  decide (r.frames ≤ Config.maxFrames) && decide (r.samples ≤ Config.maxSamples)

/-- GEN_SPECTRUM's rule once the sequence check has passed (R140). -/
def runGenSpectrum (s : State) : Host.Outcome State Fault Refusal :=
  if s.regs.geometryFits then
    let t := generateSpectrum s
    .next (t.setRegs { t.regs with result := t.regs.payloadFrames })
  else .fault .absentElement

/-- GEN_SPECTRUM: legal in Idle only (R140). -/
def execGenSpectrum (imm : Nat) (s : State) : Host.Outcome State Fault Refusal :=
  s.sequenced (legalIn (.genSpectrum imm) s.regs.state) (runGenSpectrum s)

end Sys2Proof.Machine
end

