-- ==== Sys2Proof/Machine/Modulator.lean ====
section
/-! DEFINITION. GEN_PCM and its procedures frame_bit, write_frame, amplify_signal, append_frame and copy_out (spec
42_modulator R160 to R168). A procedure that fills consecutive elements, each from values the loop does not write,
stores them as one run. Log 12. -/

namespace Sys2Proof.Machine

/-- frame_bit(i): the bit of ECC frame i carries, or the padding bit 0 (R161). -/
def frameBitOf (s : State) (i : Nat) : Bool :=
  if i < 8 * s.regs.eccLen.toNat then (s.byteAt .ecc (i / 8)).getLsbD (bitOfFrame i) else false

/-- FRAME_IDX <- i; FRAME_BIT <- frame_bit(i) (R160). -/
def selectFrame (i : Nat) (s : State) : State := s.enterFrame i (frameBitOf s i)

/-- The table write_frame reads: SPEC_HI when FRAME_BIT = 1, else SPEC_LO (R162). -/
def toneTable (frameBit : Word) : HalfSpace := if frameBit = 1#32 then .specHi else .specLo

/-- T[frame × 512 + k] for k = 0..N/2-1, the coefficients of one frame (R162). -/
def frameCoefficients (s : State) (frame : Nat) : List Half :=
  (List.range (s.regs.samples / 2)).map (fun k => s.halfAt (toneTable s.regs.frameBit) (specIndex frame k))

/-- The sum over the bins from `k` up of coefficient × SIN1024[((k × n) mod N) × (1024 / N)] (R162). -/
def toneSum (samples n : Nat) : Nat → List Half → Int
  | _, [] => 0
  | k, c :: cs =>
    (c.toNat : Int) * sin1024 (((k * n) % samples) * (Config.romLen / samples)) + toneSum samples n (k + 1) cs

/-- Sample n of a frame with these coefficients: the inverse sine transform, floored and saturated (R162). -/
def frameSample (coefficients : List Half) (samples n : Nat) : Half :=
  halfOfInt (sat16 (floorShift (toneSum samples n 0 coefficients) 15))

/-- write_frame(frame): CUR[0..N-1] from the table FRAME_BIT selects (R162). -/
def writeFrame (frame : Nat) (s : State) : State :=
  let coefficients := frameCoefficients s frame
  s.storeHalves .cur 0 ((List.range s.regs.samples).map (frameSample coefficients s.regs.samples))

/-- w_in(n, offset), the fade-in weight (R164). -/
def fadeIn (n offset : Nat) : Nat := if offset = 0 ∨ offset ≤ n then 32768 else 32768 * n / offset

/-- w_out(n, residue), the fade-out weight (R164). -/
def fadeOut (samples n residue : Nat) : Nat :=
  if residue = 0 ∨ n + residue < samples then 32768 else 32768 * (samples - n) / residue

/-- w, the product of the two weights of sample n, floored to UQ1.15 (R163). -/
def fadeWeight (samples offset residue n : Nat) : Nat := fadeIn n offset * fadeOut samples n residue / 32768

/-- One sample through gain and then fade, each product floored on its own, then saturated (R163). -/
def amplifySample (gain weight : Nat) (x : Half) : Half :=
  let t := floorShift (x.toInt * (gain : Int)) 15
  let y := floorShift (t * (weight : Int)) 15
  halfOfInt (sat16 y)

/-- amplify_signal(bit, offset, residue): `bit` is accepted and ignored by the datapath (R163). -/
def amplifySignal (_bit : Word) (offset residue : Nat) (s : State) : State :=
  let samples := s.regs.samples
  s.storeHalves .cur 0 ((List.range samples).map
    (fun n => amplifySample s.regs.gain (fadeWeight samples offset residue n) (s.halfAt .cur n)))

/-- append_frame(): CUR[0..N-1] to OUTF from OUTF_LEN up (R165). -/
def appendFrame (s : State) : State :=
  let samples := s.regs.samples
  let t := s.storeHalves .outf s.regs.outfLen.toNat ((List.range samples).map (s.halfAt .cur))
  t.setRegs { t.regs with outfLen := BitVec.ofNat 32 (s.regs.outfLen.toNat + samples) }

/-- The body of GEN_PCM's frame loop, step (3) (R160). -/
def synthesiseFrame (i : Nat) (s : State) : State :=
  let t := writeFrame i (selectFrame i s)
  appendFrame (amplifySignal t.regs.frameBit (t.regs.samples / 8) (t.regs.samples / 8) t)

/-- copy_out(): OUTF[0..OUTF_LEN-1] to PCM (R166). -/
def copyOut (s : State) : State :=
  let t := s.storeHalves .pcm 0 ((List.range s.regs.outfLen.toNat).map (s.halfAt .outf))
  t.setRegs { t.regs with pcmLen := s.regs.outfLen }

/-- Step (2) of R160: the tables, unless STATE = SpectrumReady says they are there. -/
def ensureSpectrum (s : State) : State :=
  if s.regs.state = .idle then generateSpectrum s else s

/-- STATE <- EncodingFrameLoop; OUTF_LEN <- 0 (R160). -/
def beginFrames (s : State) : State :=
  s.setRegs { s.regs with state := .encodingFrameLoop, outfLen := 0#32 }

/-- FRAME_IDX <- F after a frame loop (R160, R220). -/
def endFrames (s : State) : State := s.setRegs { s.regs with frameIdx := s.regs.payloadFrames }

/-- Steps (1) to (4) of R160, for a size that fits. -/
def generatePcm (size : Nat) (s : State) : State :=
  let t := beginFrames (ensureSpectrum (eccEncode size s))
  let u := copyOut (endFrames (forUpTo synthesiseFrame t.regs.frames t))
  u.setRegs { u.regs with result := u.regs.pcmLen, state := .finalized }

/-- GEN_PCM's rule once the sequence check has passed (R160). -/
def runGenPcm (size : Nat) (s : State) : Host.Outcome State Fault Refusal :=
  if s.regs.capacity < size then .next (s.fail .payloadTooLarge)
  else if Config.maxMsg < size then .fault .absentElement
  else if s.regs.geometryFits then .next (generatePcm size s)
  else .fault .absentElement

/-- GEN_PCM: legal in Idle and SpectrumReady (R160). -/
def execGenPcm (imm : Nat) (s : State) : Host.Outcome State Fault Refusal :=
  s.sequenced (legalIn (.genPcm imm) s.regs.state) (runGenPcm imm s)

end Sys2Proof.Machine
end

