-- ==== Sys2Proof/Machine/Abandon.lean ====
section
/-! DEFINITION. `rst` while a command executes: the write sets and what becomes of them (spec 70_reset_and_hazards
R270, R273; U3). -/

namespace Sys2Proof.Machine

/-- Consecutive elements of one memory. -/
inductive Block where
  | bytes (sp : ByteSpace) (base length : Nat)
  | halves (sp : HalfSpace) (base length : Nat)
deriving DecidableEq, Repr

/-- Rows 0..F-1, columns 0..N/2-1 of both spectrum tables (R273). -/
def spectrumBlocks (r : Regs) : List Block :=
  (List.range r.frames).flatMap (fun i =>
    [.halves .specLo (specIndex i 0) (r.samples / 2), .halves .specHi (specIndex i 0) (r.samples / 2)])

/-- What GEN_PCM writes (R273). -/
def pcmBlocks (r : Regs) (size : Nat) : List Block :=
  .bytes .ecc 0 (2 * size)
    :: (if r.state = .idle then spectrumBlocks r else [])
    ++ [.halves .cur 0 r.samples, .halves .outf 0 (r.frames * r.samples), .halves .pcm 0 (r.frames * r.samples)]

/-- The write set of a command as R273 lists it. A command that is rejected, or that its operand check fails before
it writes anything, has none (R243, R197, R198, R220, R160). Log 6. -/
def writeSet (i : Instr) (r : Regs) : List Block :=
  if legalIn i r.state then
    match i with
    | .nop _ | .configure _ | .reset _ => []
    | .genSpectrum _ => spectrumBlocks r
    | .encode size => if size ≤ r.capacity then [.bytes .ecc 0 (2 * size)] else []
    | .correct length =>
      if length ≤ 2 * r.capacity ∧ length % 2 = 0 then [.bytes .out 0 (length / 2)] else []
    | .decode total =>
      if total = r.frames then [.bytes .ecc 0 (2 * (r.frames / 16)), .bytes .out 0 (r.frames / 16)] else []
    | .genPcm size => if size ≤ r.capacity then pcmBlocks r size else []
  else []

/-- Whether a block's elements all exist (R71). -/
def Block.fits : Block → Bool
  | .bytes sp base length => decide (base + length ≤ sp.size)
  | .halves sp base length => decide (base + length ≤ sp.size)

/-- Every element of a block takes a free value, one of the k-th abandoned command (R273). -/
def Block.scramble (k : Nat) (s : State) : Block → State
  | .bytes sp base length =>
    s.storeBytes sp base ((List.range length).map (fun j => Config.abandonedByte k (sp.base + (base + j))))
  | .halves sp base length =>
    s.storeHalves sp base ((List.range length).map (fun j => Config.abandonedHalf k (sp.base + (base + j))))

/-- `rst` abandons a command: its write set takes free values, the registers take their reset values, and the
transaction gets no response (R270, R273). -/
def abandon (i : Instr) (s : State) : Host.Outcome State Fault Refusal :=
  let blocks := writeSet i s.regs
  if blocks.all Block.fits then
    .next ((blocks.foldl (Block.scramble s.freeCount) s).countAbandoned.resetRegisters.respond none)
  else .fault .absentElement

end Sys2Proof.Machine
end

