-- ==== Sys2Proof/Machine/Bus.lean ====
section
/-! DEFINITION. The host's two bus transactions on everything but CMD (spec 20_memory R70 to R79; 10_state R22). -/

namespace Sys2Proof.Machine

/-- What a bus word address names (R71). -/
inductive Place where
  /-- A register of R22, by its word address 0x00..0x17. -/
  | register (index : Nat)
  /-- An element of a byte memory. -/
  | byteElement (sp : ByteSpace) (index : Nat)
  /-- An element of a 16-bit memory. -/
  | halfElement (sp : HalfSpace) (index : Nat)
  /-- Nothing: any access is a BusError (R78). -/
  | unmapped
deriving DecidableEq, Repr

/-- A byte memory's element, when it exists (R71). -/
def bytePlace (sp : ByteSpace) (index : Nat) : Place :=
  if index < sp.size then .byteElement sp index else .unmapped

/-- A 16-bit memory's element, when it exists (R71). -/
def halfPlace (sp : HalfSpace) (index : Nat) : Place :=
  if index < sp.size then .halfElement sp index else .unmapped

/-- The region map: `a[23:20]` selects the region, `a[19:0]` the element (R70, R71). -/
def place (a : Addr) : Place :=
  let index := (a.extractLsb' 0 20).toNat
  match (a.extractLsb' 20 4).toNat with
  | 0x0 => if index < 24 then .register index else .unmapped
  | 0x1 => bytePlace .msg index
  | 0x2 => bytePlace .ecc index
  | 0x3 => halfPlace .det index
  | 0x4 => bytePlace .out index
  | 0x5 => halfPlace .cur index
  | 0x6 => halfPlace .specLo index
  | 0x7 => halfPlace .specHi index
  | 0x8 => halfPlace .outf index
  | 0x9 => halfPlace .pcm index
  | _ => .unmapped

/-- The word address of CMD (R22). -/
def cmdAddr : Addr := 0x000001#24

/-- What each register reads as, by its word address; CMD reads 0 (R22, R28, R32, R33). -/
def Regs.read (r : Regs) : Nat → Word
  | 0x00 => Config.id
  | 0x01 => 0#32
  | 0x02 => r.statusWord
  | 0x03 => r.result
  | 0x04 => r.payloadFrames
  | 0x05 => r.payloadFrameSize
  | 0x06 => r.samplesPerFrame
  | 0x07 => r.frequencyStart
  | 0x08 => r.outputGain
  | 0x09 => r.maxPayload
  | 0x0A => Config.eccN
  | 0x0B => Config.eccK
  | 0x0C => Config.eccT
  | 0x0D => Config.eccD
  | 0x0E => r.eccLen
  | 0x0F => r.outLen
  | 0x10 => r.pcmLen
  | 0x11 => r.outfLen
  | 0x12 => r.frameIdx
  | 0x13 => r.frameBit
  | 0x14 => r.corrCount
  | 0x15 => Config.preambleLen
  | 0x16 => Config.postambleLen
  | _ => Config.threshold

/-- Whether a 16-bit memory's elements read sign-extended (R71, R72). -/
def HalfSpace.signed : HalfSpace → Bool
  | .specLo | .specHi => false
  | _ => true

/-- HostRead(a): the word, or none for BusError; it changes nothing (R71, R72, R76, R78). -/
def hostRead (s : State) (a : Addr) : Option Word :=
  match place a with
  | .register i => some (s.regs.read i)
  | .byteElement sp i => some (zext32 (s.byteAt sp i))
  | .halfElement sp i => some (if sp.signed then sext32 (s.halfAt sp i) else zext32 (s.halfAt sp i))
  | .unmapped => none

/-- A HostWrite to a register other than CMD: the five configuration registers take any word, only while STATE =
Unconfigured; the others are read-only (R22, R26, R78, R79). -/
def storeRegister (r : Regs) (index : Nat) (w : Word) : Option Regs :=
  if r.state = .unconfigured then
    match index with
    | 0x04 => some { r with payloadFrames := w }
    | 0x05 => some { r with payloadFrameSize := w }
    | 0x06 => some { r with samplesPerFrame := w }
    | 0x07 => some { r with frequencyStart := w }
    | 0x08 => some { r with outputGain := w }
    | _ => none
  else none

/-- Whether the host may write a byte memory (R71). -/
def ByteSpace.hostWritable : ByteSpace → Bool
  | .msg | .ecc => true
  | .out => false

/-- Whether the host may write a 16-bit memory (R71). -/
def HalfSpace.hostWritable : HalfSpace → Bool
  | .det => true
  | _ => false

/-- HostWrite(a, w) where a is not CMD: the state after the store, or none for BusError. An element keeps the low
bits of `w` and the rest is ignored (R72, R78). -/
def hostStore (s : State) (a : Addr) (w : Word) : Option State :=
  match place a with
  | .register i => (storeRegister s.regs i w).map s.setRegs
  | .byteElement sp i =>
    if sp.hostWritable then some (s.storeBytes sp i [w.extractLsb' 0 8]) else none
  | .halfElement sp i =>
    if sp.hostWritable then some (s.storeHalves sp i [w.extractLsb' 0 16]) else none
  | .unmapped => none

end Sys2Proof.Machine
end

