-- ==== Sys2Proof/Machine/Control.lean ====
section
/-! DEFINITION. NOP, CONFIGURE and RESET (spec 40_control R120 to R123). -/

namespace Sys2Proof.Machine

/-- NOP: every register and every memory element keeps its value, in every state (R120). -/
def execNop (imm : Nat) (s : State) : Host.Outcome State Fault Refusal :=
  s.sequenced (legalIn (.nop imm) s.regs.state) (.next s)

/-- The legal values of SAMPLES_PER_FRAME (R122 (3)). -/
def legalSamples : List Nat := [16, 32, 64, 128, 256, 512, 1024]

/-- cfg_ok(): the five conditions of R122, on the registers as unsigned numbers. -/
def Regs.cfgOk (r : Regs) : Bool :=
  decide (1 ≤ r.frames) && decide (r.frames ≤ Config.maxFrames)
    && decide (r.payloadFrameSize = 1#32)
    && legalSamples.contains r.samples
    && decide (1 ≤ r.baseBin) && decide (r.baseBin + 3 ≤ r.samples / 2 - 1)
    && decide (r.gain ≤ 32768)

/-- CONFIGURE's rule once the sequence check has passed: MAX_PAYLOAD, RESULT and STATE, or
Fail(InvalidConfiguration) before anything is written (R121). -/
def runConfigure (s : State) : State :=
  if s.regs.cfgOk then
    s.setRegs { s.regs with
      maxPayload := BitVec.ofNat 32 (s.regs.frames / 16)
      result := 0#32
      state := .idle }
  else s.fail .invalidConfiguration

/-- CONFIGURE: legal in Unconfigured only (R121). -/
def execConfigure (imm : Nat) (s : State) : Host.Outcome State Fault Refusal :=
  s.sequenced (legalIn (.configure imm) s.regs.state) (.next (runConfigure s))

/-- RESET: reset_registers(), in every state; no memory element is written (R123). -/
def execReset (imm : Nat) (s : State) : Host.Outcome State Fault Refusal :=
  s.sequenced (legalIn (.reset imm) s.regs.state) (.next s.resetRegisters)

end Sys2Proof.Machine
end

