-- ==== Sys2Proof/Machine/Decoder.lean ====
section
/-! DEFINITION. DECODE and its procedures classify and pack_bits (spec 44_decoder R220 to R223, R227). -/

namespace Sys2Proof.Machine

/-- classify(v): 1 exactly when the signed value is above THRESHOLD (R221). -/
def classify (v : Half) : Bool := decide (Config.threshold.toInt < v.toInt)

/-- The byte frames 8j..8j+7 make: each decision replaces bit 7 - t of it, most significant bit first, so nothing of
the byte before is left (R222). -/
def packedByte (s : State) (j : Nat) : Byte :=
  forUpTo (fun t r => replaceBit r (bitOfFrame t) (classify (s.halfAt .det (8 * j + t)))) 8 0#8

/-- pack_bits() of every frame below 8 × blocks: ECC[0..blocks-1]. The frames above are the tail, which enters no
byte (R222, R223). Log 19. -/
def packDecisions (blocks : Nat) (s : State) : State :=
  s.storeBytes .ecc 0 ((List.range blocks).map (packedByte s))

/-- FRAME_IDX and FRAME_BIT in the body of DECODE's frame loop (R220). -/
def classifyFrame (i : Nat) (s : State) : State := s.enterFrame i (classify (s.halfAt .det i))

/-- What DECODE does between its frame loop and its correction: FRAME_IDX <- F, ECC_LEN <- 2 × M, STATE <- Correcting
(R220). -/
def beginCorrection (pairs : Nat) (s : State) : State :=
  s.setRegs { s.regs with
    frameIdx := s.regs.payloadFrames
    eccLen := BitVec.ofNat 32 (2 * pairs)
    state := .correcting }

/-- DECODE on an aligned frame count (R220). M is floor(F / 16). Log 13. -/
def decodeFrames (s : State) : State :=
  let t := forUpTo classifyFrame s.regs.frames (s.setState .classifying)
  let pairs := t.regs.frames / 16
  finishCorrection pairs (eccCorrect pairs (beginCorrection pairs (packDecisions (2 * pairs) t)))

/-- DECODE's rule once the sequence check has passed (R220). -/
def runDecode (total : Nat) (s : State) : Host.Outcome State Fault Refusal :=
  if total ≠ s.regs.frames then .next (s.fail .frameAlignmentMismatch)
  else if Config.maxFrames < s.regs.frames then .fault .absentElement
  else .next (decodeFrames s)

/-- DECODE: legal in Idle and SpectrumReady (R220). -/
def execDecode (imm : Nat) (s : State) : Host.Outcome State Fault Refusal :=
  s.sequenced (legalIn (.decode imm) s.regs.state) (runDecode imm s)

end Sys2Proof.Machine
end

