-- ==== Sys2Proof/Machine/Dispatch.lean ====
section
/-! DEFINITION. The dispatch of a decoded command to its meaning (spec 30_encoding R102, R105). -/

namespace Sys2Proof.Machine

/-- One arm per command of the opcode table. -/
def exec (i : Instr) (s : State) : Host.Outcome State Fault Refusal :=
  match i with
  | .nop imm => Sys2Proof.Machine.execNop imm s
  | .configure imm => Sys2Proof.Machine.execConfigure imm s
  | .encode imm => Sys2Proof.Machine.execEncode imm s
  | .correct imm => Sys2Proof.Machine.execCorrect imm s
  | .genSpectrum imm => Sys2Proof.Machine.execGenSpectrum imm s
  | .genPcm imm => Sys2Proof.Machine.execGenPcm imm s
  | .decode imm => Sys2Proof.Machine.execDecode imm s
  | .reset imm => Sys2Proof.Machine.execReset imm s

end Sys2Proof.Machine
end

