-- ==== Sys2Proof/Machine/Issue.lean ====
section
/-! DEFINITION. Issuing a command word, and what each event of the host does (spec 30_encoding R105; 20_memory R71,
R78; 60_exceptions R244, R245; 70_reset_and_hazards R270). -/

namespace Sys2Proof.Machine

/-- A command word written to CMD: decode, then the command; a reserved OP is Reject(IllegalCommand) (R105). -/
def issue (c : Word) (s : State) : Host.Outcome State Fault Refusal :=
  match decode c with
  | .ok i => exec i s
  | .error (.illegalCommand _) => .next (s.reject .illegalCommand)

/-- Whether the sequencer executes a command while this event is under way: the event is a write to CMD, completed or
abandoned by `rst`, whose word passes the checks (1) to (3) of R105. A rejected word is dropped (R243). Log 20. -/
def HostEvent.executes (e : HostEvent) (st : CoreState) : Bool :=
  match e with
  | .read _ | .rst => false
  | .write a w | .rstDuring a w =>
    match decode w with
    | .ok i => decide (a = cmdAddr) && legalIn i st
    | .error _ => false

/-- "A command is executing" (R248), while the host's next event is under way: throughout the step from `s`. -/
def State.executing (s : State) : Bool :=
  match s.pending with
  | [] => false
  | e :: _ => e.executes s.regs.state

/-- The completion of a HostRead (R71, R244). -/
def readResponse (s : State) (a : Addr) : BusResponse :=
  match hostRead s a with
  | some w => .data w
  | none => .busError

/-- HostWrite(a, w). A write to CMD always completes without BusError, whatever becomes of the command (R105); a
refused store changes nothing but the response (R78, R244). -/
def hostWrite (s : State) (a : Addr) (w : Word) : Host.Outcome State Fault Refusal :=
  if a = cmdAddr then issue w (s.respond (some .ok))
  else
    match hostStore s a w with
    | some t => .next (t.respond (some .ok))
    | none => .next (s.respond (some .busError))

/-- An edge of `rst` with no command executing: the registers, and no response (R270, R272). -/
def resetEdge (s : State) : State := s.resetRegisters.respond none

/-- A write that `rst` abandons: a command's write set is left open (R273), any other store does not happen (R272;
log 14). -/
def resetDuring (s : State) (a : Addr) (w : Word) : Host.Outcome State Fault Refusal :=
  if a = cmdAddr then
    match decode w with
    | .ok i => abandon i s
    | .error (.illegalCommand _) => .next (resetEdge s)
  else .next (resetEdge s)

/-- One event of the host, from its start to its end (R80). -/
def handleEvent (e : HostEvent) (s : State) : Host.Outcome State Fault Refusal :=
  match e with
  | .read a => .next (s.respond (some (readResponse s a)))
  | .write a w => hostWrite s a w
  | .rst => .next (resetEdge s)
  | .rstDuring a w => resetDuring s a w

end Sys2Proof.Machine
end

