-- ==== Sys2Proof/Machine/Step.lean ====
section
/-! DEFINITION. One step of the machine: the host's next event, or nothing at all (spec 20_memory R80; 40_control
R126). -/

namespace Sys2Proof.Machine

/-- The core acts on the host's next event; with none pending every piece of state stays as it is (R80, R126). -/
def step (s : State) : Host.Outcome State Fault Refusal :=
  match s.pending with
  | [] => .next s
  | e :: rest => handleEvent e (s.setPending rest)

/-- The state whose next event is the HostWrite to CMD of the command word whose low `nbits` bits are `w`, bits
above them 0. The core fetches no commands from memory (R82, R100). Log 4. -/
def State.withFetchWord (s : State) (nbits w : Nat) : State :=
  s.setPending (.write cmdAddr (BitVec.ofNat 32 (w % 2 ^ nbits)) :: s.pending)

end Sys2Proof.Machine
end

