-- ==== Sys2Proof/Safety.lean ====
section
/-! DEFINITION. The words the statements use: what two states share, what a legal geometry is, what the output
elements are computed as, and the invariants every step keeps. -/

namespace Sys2Proof.Machine

/-! ### Frames -/

/-- Every element of a byte memory reads the same in both states. -/
def SameBytes (sp : ByteSpace) (s t : State) : Prop := ∀ i, t.byteAt sp i = s.byteAt sp i

/-- Every element of a 16-bit memory reads the same in both states. -/
def SameHalves (sp : HalfSpace) (s t : State) : Prop := ∀ i, t.halfAt sp i = s.halfAt sp i

/-- The host's side of the state, which no command touches. -/
def SameHost (s t : State) : Prop :=
  t.pending = s.pending ∧ t.response = s.response ∧ t.freeCount = s.freeCount

/-- Nothing but registers differs. -/
def SameMemory (s t : State) : Prop :=
  (∀ sp, SameBytes sp s t) ∧ (∀ sp, SameHalves sp s t)

/-! ### The table of R106, transcribed a second time -/

/-- The columns marked "run" in a command's row of R106. -/
def runColumns : Instr → List CoreState
  | .nop _ => [.unconfigured, .idle, .spectrumReady, .finalized, .done, .failed]
  | .reset _ => [.unconfigured, .idle, .spectrumReady, .finalized, .done, .failed]
  | .configure _ => [.unconfigured]
  | .genSpectrum _ => [.idle]
  | .encode _ => [.idle, .spectrumReady]
  | .correct _ => [.idle, .spectrumReady]
  | .genPcm _ => [.idle, .spectrumReady]
  | .decode _ => [.idle, .spectrumReady]

/-! ### Geometry -/

/-- What a successful CONFIGURE leaves (R121, R122): a legal geometry and the capacity that goes with it. -/
def Regs.Constructed (r : Regs) : Prop :=
  r.cfgOk = true ∧ r.maxPayload = BitVec.ofNat 32 (r.frames / 16)

/-- The tables hold the current geometry's spectra (R24, R141). -/
def TablesHold (s : State) : Prop :=
  ∀ i b, i < s.regs.frames → b < s.regs.samples / 2 →
    s.halfAt .specLo (specIndex i b) = (if b = toneLo s.regs.baseBin i then 0x8000#16 else 0#16) ∧
    s.halfAt .specHi (specIndex i b) = (if b = toneHi s.regs.baseBin i then 0x8000#16 else 0#16)

/-- An instance that may be given its one operation: constructed, and with its tables where STATE says so (R121,
R106, R141). -/
structure Ready (s : State) : Prop where
  /-- The geometry CONFIGURE accepted. -/
  geometry : s.regs.Constructed
  /-- Idle or SpectrumReady. -/
  state : s.regs.state = .idle ∨ s.regs.state = .spectrumReady
  /-- SpectrumReady means the tables are there. -/
  tables : s.regs.state = .spectrumReady → TablesHold s

/-! ### What is computed, from the spec's closed forms -/

/-- The bit frame i carries when GEN_PCM sends `size` bytes of MSG: two codewords a byte, high nibble first, most
significant bit first, then padding 0 (R74, R161, R195). -/
def sentBit (s : State) (size i : Nat) : Bool :=
  if i < 16 * size then
    let m := s.byteAt .msg (i / 16)
    (eccEncNibble (if (i / 8) % 2 = 0 then highNibble m else lowNibble m)).getLsbD (7 - i % 8)
  else false

/-- The bin frame i sounds at for a symbol (R142). -/
def soundedBin (r : Regs) (bit : Bool) (i : Nat) : Nat := r.baseBin + 2 * (i % 2) + bit.toNat

/-- Sample n of a frame that sounds at a bin: the sine of R162's derived clause, the gain and then the fades of N/8
samples, each product floored on its own (R163, R164). -/
def soundedSample (r : Regs) (bin n : Nat) : Int :=
  let edge := r.samples / 8
  let weight : Nat :=
    if n < edge then 32768 * n / edge
    else if r.samples ≤ n + edge then 32768 * (r.samples - n) / edge
    else 32768
  ((sin1024 (((bin * n) % r.samples) * (1024 / r.samples)) * (r.gain : Int)) / 32768 * (weight : Int)) / 32768

/-- The byte eight detected values make, most significant bit first (R222). -/
def receivedBit (s : State) (j k : Nat) : Bool := decide (0 < (s.halfAt .det (8 * j + k)).toInt)

/-- STATUS never holds a state that only a running command holds (R23). -/
def StateIsStable (s : State) : Prop := s.regs.state.stable = true

/-- STATE says an instance was constructed and has not failed (R124). -/
def CoreState.alive : CoreState → Bool
  | .idle | .spectrumReady | .finalized | .done => true
  | _ => false

/-- A live instance has the geometry CONFIGURE accepted (R79, R121); an unconstructed one has no capacity, no
spectra and no frame behind it (R271). -/
def GeometryHolds (s : State) : Prop :=
  (s.regs.state.alive = true → s.regs.Constructed) ∧
  (s.regs.state = .unconfigured →
    s.regs.maxPayload = 0#32 ∧ s.regs.specValid = false ∧ s.regs.frameIdx = 0#32)

/-- SPEC_VALID says what R24 says it does, and SpectrumReady implies it. -/
def SpectraHold (s : State) : Prop :=
  (s.regs.specValid = true → s.regs.Constructed ∧ TablesHold s) ∧
  (s.regs.state = .spectrumReady → s.regs.specValid = true)

/-- ERRC is one of the codes 0 to 7 (R24, R241). -/
def ErrorCodeHolds (s : State) : Prop := s.regs.errc.toNat ≤ 7

/-- RESULT is negative exactly in Failed, and then it is one of the five Fail codes (R25, R242, R247). -/
def ResultHolds (s : State) : Prop :=
  (s.regs.state = .failed ↔ s.regs.result.toInt < 0) ∧
  (s.regs.state = .failed → -5 ≤ s.regs.result.toInt)

/-- The output lengths mark nothing valid outside the state that makes it valid (R278), and Done reports the byte
count twice (R25, R29). -/
def LengthsHold (s : State) : Prop :=
  (s.regs.state ≠ .done → s.regs.outLen = 0#32) ∧
  (s.regs.state ≠ .finalized → s.regs.pcmLen = 0#32) ∧
  (s.regs.state = .done → s.regs.result = s.regs.outLen)

/-- Every length register stays within its memory (R29, R31), and FRAME_IDX never exceeds F (R30). -/
def BoundsHold (s : State) : Prop :=
  s.regs.eccLen.toNat ≤ Config.maxEcc ∧ s.regs.outLen.toNat ≤ Config.maxMsg ∧
  s.regs.pcmLen.toNat ≤ Config.maxPcm ∧ s.regs.outfLen.toNat ≤ Config.maxPcm ∧
  s.regs.corrCount.toNat ≤ Config.maxEcc ∧ s.regs.frameIdx.toNat ≤ s.regs.frames

/-- CORRECTED = 1 exactly when CORR_COUNT > 0 (R31). -/
def CorrectedHolds (s : State) : Prop := s.regs.corrected = true ↔ 0 < s.regs.corrCount.toNat

/-- The invariant of the machine. -/
structure State.Inv (s : State) : Prop where
  /-- The memories are canonical. -/
  canonical : s.mem.wf = true
  /-- No transient STATE (R23). -/
  stable : StateIsStable s
  /-- The geometry is legal where it must be. -/
  geometry : GeometryHolds s
  /-- The spectrum tables hold what SPEC_VALID promises. -/
  spectra : SpectraHold s
  /-- ERRC is a code. -/
  errorCode : ErrorCodeHolds s
  /-- RESULT agrees with STATE. -/
  result : ResultHolds s
  /-- The output lengths agree with STATE. -/
  lengths : LengthsHold s
  /-- The lengths are within the memories. -/
  bounds : BoundsHold s
  /-- CORRECTED agrees with CORR_COUNT. -/
  corrected : CorrectedHolds s

end Sys2Proof.Machine
end

