-- ==== Sys2Proof/Certificates/Slice0/Obligations.lean ====
section
/-! DEFINITION. The statements about this core, from the numbered rules of the spec. -/

open Sys2Proof Sys2Proof.Machine

/-! ### Reset and the step -/

/-- R271: after reset_registers() each of the 24 registers reads as the rule's table says, no memory element has
changed (R272), and the core does nothing until the host acts. -/
def Obligations.ResetRegistersReadAsTheTable : Prop :=
  ∀ s : State,
    (∀ i, i < 24 → s.resetRegisters.regs.read i =
      ([0x45434331#32, 0#32, 0#32, 0#32, 0#32, 0#32, 0#32, 0#32, 0#32, 0#32, 8#32, 4#32, 1#32, 2#32, 0#32, 0#32, 0#32,
        0#32, 0#32, 0#32, 0#32, 0#32, 0#32, 0#32] : List Word).getD i 0#32) ∧
    SameMemory s s.resetRegisters ∧
    (s.pending = [] → step s.resetRegisters = .next s.resetRegisters)

/-- R126: with no transaction and no `rst`, every piece of state stays as it is. -/
def Obligations.NothingChangesUnlessTheHostActs : Prop :=
  ∀ s : State, s.pending = [] → step s = .next s

/-- A step whose next event is the HostWrite of a command word to CMD is that command's meaning, on the state with
the event taken off and the write completed without BusError (R80, R105, R245). -/
def Obligations.StepRunsTheDecodedCommand : Prop :=
  ∀ (s : State) (c : Word) (rest : List HostEvent) (i : Instr),
    s.pending = .write 0x000001#24 c :: rest → decode c = .ok i →
    step s = exec i ((s.setPending rest).respond (some .ok))

/-- Words of `95_test_vectors.md` 2.2 decode to the commands they stand for (R100 to R104). -/
def Obligations.CommandWordsOfTheVectorsDecode : Prop :=
  decode 0x00000000#32 = .ok (.nop 0) ∧ decode 0x00000001#32 = .ok (.configure 0) ∧
  decode 0x00000402#32 = .ok (.encode 4) ∧ decode 0x00000803#32 = .ok (.correct 8) ∧
  decode 0x00000004#32 = .ok (.genSpectrum 0) ∧ decode 0x00004005#32 = .ok (.genPcm 64) ∧
  decode 0x00040006#32 = .ok (.decode 1024) ∧ decode 0xABCDEF07#32 = .ok (.reset 0xABCDEF) ∧
  decode 0x123456FF#32 = .error (.illegalCommand 0xFF#8)

/-! ### Encoding -/

/-- Decoding the word of a well-formed command gives the command back, for all eight commands and every operand. -/
def Obligations.DecodeOfEncodeIsTheCommand : Prop :=
  ∀ i : Instr, i.wellFormed = true → decode (encode i) = .ok i

/-- A word that decodes is the word of the command it decodes to, and that command is well-formed. -/
def Obligations.EncodeOfDecodeIsTheWord : Prop :=
  ∀ (c : Word) (i : Instr), decode c = .ok i → i.wellFormed = true ∧ encode i = c

/-- R102: a word c is a command exactly when c & mask = match, for the eight rows of the table; IMM is c[31:8]; every
other value of OP is reserved. -/
def Obligations.DecodeFollowsMatchAndMask : Prop :=
  ∀ c : Word,
    let imm := (c >>> 8).toNat
    (decode c = .ok (.nop imm) ↔ c &&& 0x000000FF#32 = 0x00000000#32) ∧
    (decode c = .ok (.configure imm) ↔ c &&& 0x000000FF#32 = 0x00000001#32) ∧
    (decode c = .ok (.encode imm) ↔ c &&& 0x000000FF#32 = 0x00000002#32) ∧
    (decode c = .ok (.correct imm) ↔ c &&& 0x000000FF#32 = 0x00000003#32) ∧
    (decode c = .ok (.genSpectrum imm) ↔ c &&& 0x000000FF#32 = 0x00000004#32) ∧
    (decode c = .ok (.genPcm imm) ↔ c &&& 0x000000FF#32 = 0x00000005#32) ∧
    (decode c = .ok (.decode imm) ↔ c &&& 0x000000FF#32 = 0x00000006#32) ∧
    (decode c = .ok (.reset imm) ↔ c &&& 0x000000FF#32 = 0x00000007#32) ∧
    ((∃ op, decode c = .error (.illegalCommand op)) ↔ 7 < (c &&& 0x000000FF#32).toNat)

/-- R103: in every state a word with a reserved OP sets CMDERR and ERRC = 7 and changes nothing else in the core; the
write completes without BusError. `pending`, `response` and `freeCount` are the model's own fields (logs 4 to 6). -/
def Obligations.ReservedOpcodesAreRejectedInEveryState : Prop :=
  ∀ (s : State) (c : Word) (rest : List HostEvent),
    s.pending = .write 0x000001#24 c :: rest → 7 < (c &&& 0x000000FF#32).toNat →
    ∃ t, step s = .next t ∧ t.regs = { s.regs with cmdErr := true, errc := 7#4 } ∧ t.mem = s.mem ∧
      t.pending = rest ∧ t.response = some .ok ∧ t.freeCount = s.freeCount

/-- R106: for each command and each state a host can meet, a pair not marked "run" is rejected with
IllegalSequence (CMDERR, ERRC = 6, nothing else); a pair marked "run" is not rejected: it sets no CMDERR and, but for
NOP and RESET, it changes STATE. -/
def Obligations.LegalStatesPerCommand : Prop :=
  ∀ (i : Instr) (s : State), s.regs.state.stable = true →
    (s.regs.state ∉ runColumns i →
      ∃ t, exec i s = .next t ∧ t.regs = { s.regs with cmdErr := true, errc := 6#4 } ∧ t.mem = s.mem ∧ SameHost s t) ∧
    (s.regs.state ∈ runColumns i → ∀ t, exec i s = .next t →
      (t.regs.cmdErr = true → s.regs.cmdErr = true) ∧
      ((∀ imm, i ≠ .nop imm ∧ i ≠ .reset imm) → t.regs.state ≠ s.regs.state))

/-- R104: every value of IMM gives NOP, CONFIGURE, GEN_SPECTRUM and RESET the same behaviour. -/
def Obligations.IgnoredOperandsAreIgnored : Prop :=
  ∀ (s : State) (imm imm' : Nat),
    exec (.nop imm) s = exec (.nop imm') s ∧ exec (.configure imm) s = exec (.configure imm') s ∧
    exec (.genSpectrum imm) s = exec (.genSpectrum imm') s ∧ exec (.reset imm) s = exec (.reset imm') s

/-! ### NOP, CONFIGURE, RESET -/

/-- R120: NOP completes in every state and every register and memory element keeps its value. -/
def Obligations.NopChangesNothing : Prop :=
  ∀ (imm : Nat) (s : State), exec (.nop imm) s = .next s

/-- R122: cfg_ok() is true exactly when all five conditions hold, on the registers as unsigned numbers. -/
def Obligations.CfgOkIsTheFiveConditions : Prop :=
  ∀ r : Regs,
    r.cfgOk = true ↔
      (1 ≤ r.payloadFrames.toNat ∧ r.payloadFrames.toNat ≤ 1024) ∧
      r.payloadFrameSize.toNat = 1 ∧
      (∃ e, 4 ≤ e ∧ e ≤ 10 ∧ r.samplesPerFrame.toNat = 2 ^ e) ∧
      (1 ≤ r.frequencyStart.toNat ∧ r.frequencyStart.toNat + 3 ≤ r.samplesPerFrame.toNat / 2 - 1) ∧
      r.outputGain.toNat ≤ 32768

/-- CONFIGURE in Unconfigured: with a legal geometry MAX_PAYLOAD <- F/16, RESULT <- 0, STATE <- Idle; otherwise
RESULT <- -5, ERRC <- 5, STATE <- Failed and MAX_PAYLOAD keeps its value. No other register and no memory element
changes (R121, R242). -/
def Obligations.ConfigureConstructsOrFails : Prop :=
  ∀ (imm : Nat) (s : State), s.regs.state = .unconfigured →
    ∃ t, exec (.configure imm) s = .next t ∧ t.mem = s.mem ∧ SameHost s t ∧
      t.regs = if s.regs.cfgOk = true then
          { s.regs with
            maxPayload := BitVec.ofNat 32 (s.regs.payloadFrames.toNat / 16), result := 0#32, state := .idle }
        else { s.regs with result := 0xFFFFFFFB#32, errc := 5#4, state := .failed }

/-- R123: RESET completes in every state; every non-constant register takes its reset value and no memory element is
written; the `rst` pin has the same effect on registers and memories. -/
def Obligations.ResetCommandAndPinAgree : Prop :=
  ∀ (imm : Nat) (s : State),
    exec (.reset imm) s = .next s.resetRegisters ∧ s.resetRegisters.regs = Regs.reset ∧
    s.resetRegisters.mem = s.mem ∧ SameHost s s.resetRegisters ∧
    ∃ t, handleEvent .rst s = .next t ∧ t.regs = s.resetRegisters.regs ∧ t.mem = s.mem

/-! ### GEN_SPECTRUM and the sine ROM -/

/-- R142: the tone bins of a legal geometry lie strictly between bin 0 and bin N/2, and consecutive frames never share
a bin. -/
def Obligations.FrequencyPlanOfALegalGeometry : Prop :=
  ∀ (r : Regs) (i : Nat), r.cfgOk = true →
    toneLo r.baseBin i = r.frequencyStart.toNat + 2 * (i % 2) ∧ toneHi r.baseBin i = toneLo r.baseBin i + 1 ∧
    1 ≤ toneLo r.baseBin i ∧ toneLo r.baseBin i < toneHi r.baseBin i ∧
    toneHi r.baseBin i ≤ r.samplesPerFrame.toNat / 2 - 1 ∧
    toneLo r.baseBin i ≠ toneLo r.baseBin (i + 1) ∧ toneLo r.baseBin i ≠ toneHi r.baseBin (i + 1) ∧
    toneHi r.baseBin i ≠ toneLo r.baseBin (i + 1) ∧ toneHi r.baseBin i ≠ toneHi r.baseBin (i + 1)

/-- GEN_SPECTRUM in Idle: rows 0..F-1, columns 0..N/2-1 of both tables hold 0x8000 at the tone bin and 0 elsewhere,
no other element of any memory changes, SPEC_VALID <- 1, STATE <- SpectrumReady, RESULT <- F, no other register
changes (R140, R141, R142). -/
def Obligations.GenSpectrumFillsTheTables : Prop :=
  ∀ (imm : Nat) (s : State), s.regs.state = .idle → s.regs.frames ≤ 1024 → s.regs.samples ≤ 1024 →
    ∃ t, exec (.genSpectrum imm) s = .next t ∧ SameHost s t ∧
      t.regs = { s.regs with specValid := true, state := .spectrumReady, result := s.regs.payloadFrames } ∧
      (∀ i b, i < s.regs.frames → b < s.regs.samples / 2 →
        t.halfAt .specLo (i * 512 + b) =
          (if b = s.regs.frequencyStart.toNat + 2 * (i % 2) then 0x8000#16 else 0#16) ∧
        t.halfAt .specHi (i * 512 + b) =
          (if b = s.regs.frequencyStart.toNat + 2 * (i % 2) + 1 then 0x8000#16 else 0#16)) ∧
      (∀ j, (s.regs.frames ≤ j / 512 ∨ s.regs.samples / 2 ≤ j % 512) →
        t.halfAt .specLo j = s.halfAt .specLo j ∧ t.halfAt .specHi j = s.halfAt .specHi j) ∧
      (∀ sp, sp ≠ .specLo → sp ≠ .specHi → SameHalves sp s t) ∧ ∀ sp, SameBytes sp s t

/-- The tables are a function of F, N and k0 alone, and writing them twice changes nothing more (R144, R141). -/
def Obligations.SpectraAreDeterministicAndIdempotent : Prop :=
  (∀ s u : State, s.regs.payloadFrames = u.regs.payloadFrames → s.regs.samplesPerFrame = u.regs.samplesPerFrame →
    s.regs.frequencyStart = u.regs.frequencyStart → s.regs.samples ≤ 1024 →
    ∀ i b, i < s.regs.frames → b < s.regs.samples / 2 →
      (generateSpectrum s).halfAt .specLo (specIndex i b) = (generateSpectrum u).halfAt .specLo (specIndex i b) ∧
      (generateSpectrum s).halfAt .specHi (specIndex i b) = (generateSpectrum u).halfAt .specHi (specIndex i b)) ∧
  ∀ s : State, s.regs.samples ≤ 1024 →
    (generateSpectrum (generateSpectrum s)).regs = (generateSpectrum s).regs ∧
    SameMemory (generateSpectrum s) (generateSpectrum (generateSpectrum s))

/-- R147: the ROM beyond the first quarter wave by symmetry, its two checksums, and indices read mod 1024. -/
def Obligations.SineRomSymmetryAndSums : Prop :=
  (∀ m, 257 ≤ m → m ≤ 512 → sin1024 m = sin1024 (512 - m)) ∧
  (∀ m, 513 ≤ m → m ≤ 1023 → sin1024 m = -sin1024 (m - 512)) ∧
  sin1024 512 = 0 ∧ sin1024 768 = -32767 ∧
  ((List.range 1024).map sin1024).sum = 0 ∧
  ((List.range 1024).map (fun m => (sin1024 m).natAbs)).sum = 21360666 ∧
  ∀ m, sin1024 m = sin1024 (m % 1024)

/-- R146's checks on the first quarter wave: the five entries, the sum, the exclusive-or, strict increase. -/
def Obligations.SineRomQuarterWaveChecks : Prop :=
  sin1024 0 = 0 ∧ sin1024 64 = 12539 ∧ sin1024 128 = 23170 ∧ sin1024 192 = 30273 ∧ sin1024 256 = 32767 ∧
  ((List.range 257).map sin1024).sum = 5356550 ∧
  (List.range 257).foldl (fun x m => x ^^^ (sin1024 m).toNat) 0 = 24332 ∧
  ∀ m, m < 256 → sin1024 m < sin1024 (m + 1)

/-! ### The ECC unit -/

/-- R192: the sixteen codewords; closed under xor; every non-zero codeword has weight 4 except 0xFF of weight 8; two
distinct codewords differ in at least four positions. -/
def Obligations.EncoderGivesTheSixteenCodewords : Prop :=
  let weight : Byte → Nat := fun c => (List.range 8).countP (fun k => c.getLsbD k)
  (List.range 16).map (fun d => eccEncNibble (BitVec.ofNat 4 d)) =
    [0x00#8, 0x17#8, 0x2B#8, 0x3C#8, 0x4D#8, 0x5A#8, 0x66#8, 0x71#8, 0x8E#8, 0x99#8, 0xA5#8, 0xB2#8, 0xC3#8, 0xD4#8,
      0xE8#8, 0xFF#8] ∧
  (∀ d e : Nibble, ∃ f : Nibble, eccEncNibble d ^^^ eccEncNibble e = eccEncNibble f) ∧
  (∀ d : Nibble, d ≠ 0#4 → weight (eccEncNibble d) = if eccEncNibble d = 0xFF#8 then 8 else 4) ∧
  ∀ d e : Nibble, d ≠ e → 4 ≤ weight (eccEncNibble d ^^^ eccEncNibble e)

/-- R199: what the decoder answers for every codeword and every error pattern, by the number of inverted bits. -/
def Obligations.CapabilityOfTheCode : Prop :=
  let weight : Byte → Nat := fun c => (List.range 8).countP (fun k => c.getLsbD k)
  (∀ (d : Nibble) (e : Byte),
    let a := eccDecByte (eccEncNibble d ^^^ e)
    (weight e = 0 → a.nibble = d ∧ a.corr = false ∧ a.unc = false) ∧
    (weight e = 1 → a.nibble = d ∧ a.corr = true ∧ a.unc = false) ∧
    (weight e = 2 → a.unc = true ∧ a.corr = false) ∧
    (weight e = 3 → a.nibble ≠ d ∧ a.corr = true ∧ a.unc = false) ∧
    (weight e = 4 → a.unc = true ∨ (a.nibble ≠ d ∧ a.corr = false ∧ a.unc = false)) ∧
    (weight e = 5 → a.nibble ≠ d ∧ a.corr = true ∧ a.unc = false) ∧
    (weight e = 6 → a.unc = true) ∧
    (weight e = 7 → a.nibble = ~~~d ∧ a.corr = true ∧ a.unc = false) ∧
    (weight e = 8 → a.nibble ≠ d ∧ a.corr = false ∧ a.unc = false)) ∧
  ∀ d : Nibble,
    ((List.range 256).countP (fun e => decide (weight (BitVec.ofNat 8 e) = 4) &&
      (eccDecByte (eccEncNibble d ^^^ BitVec.ofNat 8 e)).unc)) = 56 ∧
    ((List.range 256).countP (fun e => decide (weight (BitVec.ofNat 8 e) = 4) &&
      !(eccDecByte (eccEncNibble d ^^^ BitVec.ofNat 8 e)).unc)) = 14

/-- R201: ecc_encode then ecc_correct is the identity on every payload, and still is when each received block has at
most one bit inverted; then CORR_COUNT is the number of blocks touched. -/
def Obligations.EncodeThenCorrectIsTheIdentity : Prop :=
  ∀ (s : State) (size : Nat), size ≤ 64 →
    (∀ p, p < size → (eccCorrect size (eccEncode size s)).byteAt .out p = s.byteAt .msg p) ∧
    (eccCorrect size (eccEncode size s)).regs.corrected = false ∧
    (eccCorrect size (eccEncode size s)).regs.uncorrectable = false ∧
    (eccCorrect size (eccEncode size s)).regs.corrCount = 0#32 ∧
    ∀ (u : State) (touched : Nat → Option (Fin 8)),
      (∀ j, j < 2 * size → u.byteAt .ecc j = (eccEncode size s).byteAt .ecc j ^^^
        (match touched j with | none => 0#8 | some b => 1#8 <<< b.val)) →
      (∀ p, p < size → (eccCorrect size u).byteAt .out p = s.byteAt .msg p) ∧
      ((eccCorrect size u).regs.corrected = true ↔ ∃ j, j < 2 * size ∧ touched j ≠ none) ∧
      (eccCorrect size u).regs.uncorrectable = false ∧
      (eccCorrect size u).regs.corrCount.toNat = (List.range (2 * size)).countP (fun j => (touched j).isSome)

/-- ENCODE in Idle or SpectrumReady with size at most MAX_PAYLOAD: ECC[2p] and ECC[2p+1] are the codewords of the high
and the low nibble of MSG[p]; ECC_LEN and RESULT are 2 × size; STATE is Finalized; no other register, no other ECC
element and no other memory changes (R195, R197). -/
def Obligations.EncodeWritesTheCodewords : Prop :=
  ∀ (size : Nat) (s : State), s.regs.state = .idle ∨ s.regs.state = .spectrumReady →
    size ≤ s.regs.maxPayload.toNat → size ≤ 64 →
    ∃ t, exec (.encode size) s = .next t ∧ SameHost s t ∧
      t.regs = { s.regs with
        eccLen := BitVec.ofNat 32 (2 * size), result := BitVec.ofNat 32 (2 * size), state := .finalized } ∧
      (∀ p, p < size →
        t.byteAt .ecc (2 * p) = eccEncNibble ((s.byteAt .msg p).extractLsb' 4 4) ∧
        t.byteAt .ecc (2 * p + 1) = eccEncNibble ((s.byteAt .msg p).extractLsb' 0 4)) ∧
      (∀ j, 2 * size ≤ j → t.byteAt .ecc j = s.byteAt .ecc j) ∧
      SameBytes .msg s t ∧ SameBytes .out s t ∧ ∀ sp, SameHalves sp s t

/-- CORRECT in Idle or SpectrumReady with an even length of at most 2 × MAX_PAYLOAD: each pair of received blocks
gives one OUT byte, the flags and CORR_COUNT are those of the blocks, ECC_LEN is the length; with no uncorrectable
block it ends Done with the byte count, otherwise it ends with Fail(UncorrectableData) and OUT_LEN = 0. ECC and every
other memory element stay as they were (R196, R198, R242). -/
def Obligations.CorrectRecoversOrFails : Prop :=
  ∀ (length : Nat) (s : State), s.regs.state = .idle ∨ s.regs.state = .spectrumReady →
    length ≤ 2 * s.regs.maxPayload.toNat → length % 2 = 0 → length ≤ 128 →
    let block := fun j => eccDecByte (s.byteAt .ecc j)
    let count := (List.range length).countP (fun j => (block j).corr)
    let bad := (List.range length).any (fun j => (block j).unc)
    ∃ t, exec (.correct length) s = .next t ∧ SameHost s t ∧
      t.regs = (if bad = true then
        { s.regs with
          eccLen := BitVec.ofNat 32 length, corrected := decide (0 < count), uncorrectable := true
          corrCount := BitVec.ofNat 32 count, outLen := 0#32, result := 0xFFFFFFFF#32, errc := 1#4, state := .failed }
      else
        { s.regs with
          eccLen := BitVec.ofNat 32 length, corrected := decide (0 < count), uncorrectable := false
          corrCount := BitVec.ofNat 32 count, outLen := BitVec.ofNat 32 (length / 2)
          result := BitVec.ofNat 32 (length / 2), state := .done }) ∧
      (∀ p, p < length / 2 → t.byteAt .out p = (block (2 * p)).nibble ++ (block (2 * p + 1)).nibble) ∧
      (∀ p, length / 2 ≤ p → t.byteAt .out p = s.byteAt .out p) ∧
      SameBytes .msg s t ∧ SameBytes .ecc s t ∧ ∀ sp, SameHalves sp s t

/-- The operand checks of ENCODE, GEN_PCM, CORRECT and DECODE, in the order of R245: the failing command writes
RESULT, ERRC and STATE and nothing else (R160, R197, R198, R220, R241, R242). -/
def Obligations.OperandChecksFailBeforeAnyWrite : Prop :=
  ∀ (n : Nat) (s : State), s.regs.state = .idle ∨ s.regs.state = .spectrumReady →
    let failed : Word → BitVec 4 → State := fun result code =>
      { s with regs := { s.regs with result := result, errc := code, state := .failed } }
    (s.regs.maxPayload.toNat < n → exec (.encode n) s = .next (failed 0xFFFFFFFC#32 4#4)) ∧
    (s.regs.maxPayload.toNat < n → exec (.genPcm n) s = .next (failed 0xFFFFFFFC#32 4#4)) ∧
    (2 * s.regs.maxPayload.toNat < n → exec (.correct n) s = .next (failed 0xFFFFFFFC#32 4#4)) ∧
    (n ≤ 2 * s.regs.maxPayload.toNat → n % 2 = 1 → exec (.correct n) s = .next (failed 0xFFFFFFFD#32 3#4)) ∧
    (n ≠ s.regs.payloadFrames.toNat → exec (.decode n) s = .next (failed 0xFFFFFFFE#32 2#4))

/-! ### DECODE -/

/-- R221: a detected value classifies as 1 exactly when it is strictly greater than 0, as a signed number. -/
def Obligations.ClassifyIsStrictlyAboveZero : Prop :=
  ∀ v : Half, classify v = true ↔ 0 < v.toInt

/-- DECODE in Idle or SpectrumReady with IMM = F: ECC[j] for j below 2M (M = F/16) is made of the decisions of frames
8j..8j+7, most significant bit first; OUT[p] for p below M is what the code makes of ECC[2p] and ECC[2p+1]; the flags
are those of the 2M blocks; FRAME_IDX = F, FRAME_BIT is the last frame's decision, ECC_LEN = 2M; the end is Done with
M or Fail(UncorrectableData) with OUT_LEN = 0. Nothing else changes (R220, R222, R223, R227). -/
def Obligations.DecodeRecoversOrFails : Prop :=
  ∀ s : State, s.regs.state = .idle ∨ s.regs.state = .spectrumReady →
    1 ≤ s.regs.frames → s.regs.frames ≤ 1024 →
    let pairs := s.regs.frames / 16
    ∃ t, exec (.decode s.regs.frames) s = .next t ∧ SameHost s t ∧
      (let count := (List.range (2 * pairs)).countP (fun j => (eccDecByte (t.byteAt .ecc j)).corr)
       let bad := (List.range (2 * pairs)).any (fun j => (eccDecByte (t.byteAt .ecc j)).unc)
       let base := { s.regs with
         frameIdx := s.regs.payloadFrames
         frameBit := if 0 < (s.halfAt .det (s.regs.frames - 1)).toInt then 1#32 else 0#32
         eccLen := BitVec.ofNat 32 (2 * pairs)
         corrected := decide (0 < count)
         uncorrectable := bad
         corrCount := BitVec.ofNat 32 count }
       t.regs = if bad = true then
           { base with outLen := 0#32, result := 0xFFFFFFFF#32, errc := 1#4, state := .failed }
         else { base with outLen := BitVec.ofNat 32 pairs, result := BitVec.ofNat 32 pairs, state := .done }) ∧
      (∀ j k, j < 2 * pairs → k < 8 → (t.byteAt .ecc j).getLsbD (7 - k) = receivedBit s j k) ∧
      (∀ j, 2 * pairs ≤ j → t.byteAt .ecc j = s.byteAt .ecc j) ∧
      (∀ p, p < pairs → t.byteAt .out p =
        (eccDecByte (t.byteAt .ecc (2 * p))).nibble ++ (eccDecByte (t.byteAt .ecc (2 * p + 1))).nibble) ∧
      (∀ p, pairs ≤ p → t.byteAt .out p = s.byteAt .out p) ∧
      SameBytes .msg s t ∧ ∀ sp, SameHalves sp s t

/-! ### GEN_PCM -/

/-- R164: the fade weights, for all offsets and residues; and with offset = residue = N/8, N at least 16, one factor is
always 32768 and the product weight is the other factor. -/
def Obligations.FadeWeightsAreLinear : Prop :=
  (∀ n offset, fadeIn n offset = if offset = 0 ∨ n ≥ offset then 32768 else 32768 * n / offset) ∧
  (∀ samples n residue, n < samples →
    fadeOut samples n residue =
      if residue = 0 ∨ n + residue < samples then 32768 else 32768 * (samples - n) / residue) ∧
  (∀ samples n residue, n < samples → samples < residue →
    fadeOut samples n residue = 32768 * (samples - n) / residue) ∧
  ∀ samples n, 16 ≤ samples → n < samples →
    (fadeIn n (samples / 8) = 32768 ∧
      fadeWeight samples (samples / 8) (samples / 8) n = fadeOut samples n (samples / 8)) ∨
    (fadeOut samples n (samples / 8) = 32768 ∧
      fadeWeight samples (samples / 8) (samples / 8) n = fadeIn n (samples / 8))

/-- One sample through amplify_signal: gain and fade each floored on its own, and for a gain and a weight of at most
1.0 the magnitude does not grow, so that the clamp never acts (R163). -/
def Obligations.AmplifyNeverGrowsASample : Prop :=
  ∀ (gain weight : Nat) (x : Half), gain ≤ 32768 → weight ≤ 32768 →
    (amplifySample gain weight x).toInt = ((x.toInt * gain) / 32768 * weight) / 32768 ∧
    (amplifySample gain weight x).toInt.natAbs ≤ x.toInt.natAbs

/-- write_frame on the tables generate_spectrum writes: CUR[0..N-1] is a sine of the frame's bin read straight from
the ROM, and nothing else changes (R162, derived clause). -/
def Obligations.WriteFrameOfAToneIsARomLookup : Prop :=
  ∀ (s : State) (frame : Nat) (bit : Bool), s.regs.cfgOk = true → TablesHold s → frame < s.regs.frames →
    s.regs.frameBit = (if bit = true then 1#32 else 0#32) →
    let bin := soundedBin s.regs bit frame
    (∀ n, n < s.regs.samples → ((writeFrame frame s).halfAt .cur n).toInt =
      sin1024 (((bin * n) % s.regs.samples) * (1024 / s.regs.samples))) ∧
    (∀ n, s.regs.samples ≤ n → (writeFrame frame s).halfAt .cur n = s.halfAt .cur n) ∧
    (writeFrame frame s).regs = s.regs ∧ SameHost s (writeFrame frame s) ∧
    (∀ sp, SameBytes sp s (writeFrame frame s)) ∧ ∀ sp, sp ≠ .cur → SameHalves sp s (writeFrame frame s)

/-- write_frame for any coefficients: sample n is the sum over the bins of coefficient × ROM entry, floored by 15 bits
and saturated to 16 (R162). -/
def Obligations.WriteFrameIsTheInverseSineTransform : Prop :=
  ∀ (s : State) (frame n : Nat), n < s.regs.samples →
    let table : HalfSpace := if s.regs.frameBit = 1#32 then .specHi else .specLo
    let acc : Int := ((List.range (s.regs.samples / 2)).map (fun k =>
      ((s.halfAt table (frame * 512 + k)).toNat : Int) *
        sin1024 (((k * n) % s.regs.samples) * (1024 / s.regs.samples)))).sum
    ((writeFrame frame s).halfAt .cur n).toInt = max (-32768) (min 32767 (acc / 32768))

/-- GEN_PCM on a ready instance with size at most MAX_PAYLOAD, complete: every register, the encoded payload, the
tables, the samples of OUTF and PCM in closed form, the last frame in CUR, and everything else unchanged (R160 to
R167). -/
def Obligations.GenPcmSynthesisesThePayload : Prop :=
  ∀ (size : Nat) (s : State), Ready s → size ≤ s.regs.maxPayload.toNat →
    let F := s.regs.frames
    let N := s.regs.samples
    ∃ t, exec (.genPcm size) s = .next t ∧ SameHost s t ∧
      t.regs = { s.regs with
        eccLen := BitVec.ofNat 32 (2 * size)
        specValid := if s.regs.state = .idle then true else s.regs.specValid
        outfLen := BitVec.ofNat 32 (F * N)
        pcmLen := BitVec.ofNat 32 (F * N)
        frameIdx := s.regs.payloadFrames
        frameBit := if sentBit s size (F - 1) = true then 1#32 else 0#32
        result := BitVec.ofNat 32 (F * N)
        state := .finalized } ∧
      (∀ p, p < size →
        t.byteAt .ecc (2 * p) = eccEncNibble (highNibble (s.byteAt .msg p)) ∧
        t.byteAt .ecc (2 * p + 1) = eccEncNibble (lowNibble (s.byteAt .msg p))) ∧
      (∀ j, 2 * size ≤ j → t.byteAt .ecc j = s.byteAt .ecc j) ∧
      SameBytes .msg s t ∧ SameBytes .out s t ∧ SameHalves .det s t ∧
      TablesHold t ∧
      (∀ j, (F ≤ j / 512 ∨ N / 2 ≤ j % 512) →
        t.halfAt .specLo j = s.halfAt .specLo j ∧ t.halfAt .specHi j = s.halfAt .specHi j) ∧
      (∀ i n, i < F → n < N →
        (t.halfAt .pcm (i * N + n)).toInt = soundedSample s.regs (soundedBin s.regs (sentBit s size i) i) n) ∧
      (∀ j, j < F * N → t.halfAt .outf j = t.halfAt .pcm j) ∧
      (∀ j, F * N ≤ j → t.halfAt .outf j = s.halfAt .outf j ∧ t.halfAt .pcm j = s.halfAt .pcm j) ∧
      (∀ n, n < N → t.halfAt .cur n = t.halfAt .pcm ((F - 1) * N + n)) ∧
      ∀ n, N ≤ n → t.halfAt .cur n = s.halfAt .cur n

/-- R169: for every legal configuration and every payload, every sample of PCM is within the gain bound and within
-32767..32767, and with gain 0 every sample is 0. -/
def Obligations.GainBoundsEverySample : Prop :=
  ∀ (size : Nat) (s : State), Ready s → size ≤ s.regs.maxPayload.toNat →
    ∃ t, exec (.genPcm size) s = .next t ∧
      ∀ j, j < s.regs.frames * s.regs.samples →
        (t.halfAt .pcm j).toInt.natAbs ≤ 32767 * s.regs.gain / 32768 + 1 ∧
        (t.halfAt .pcm j).toInt.natAbs ≤ 32767 ∧
        (s.regs.gain = 0 → (t.halfAt .pcm j).toInt = 0)

/-- GEN_PCM after GEN_SPECTRUM ends as GEN_PCM from Idle does, in every register and every memory element (R160, R144;
vector GP8). -/
def Obligations.GenSpectrumFirstMakesNoDifference : Prop :=
  ∀ (size imm : Nat) (s : State), s.regs.Constructed → s.regs.state = .idle → size ≤ s.regs.maxPayload.toNat →
    ∃ t u v, exec (.genPcm size) s = .next t ∧ exec (.genSpectrum imm) s = .next u ∧
      exec (.genPcm size) u = .next v ∧ v.regs = t.regs ∧ SameMemory t v ∧ SameHost t v

/-- R170: two ready cores with identical configuration and identical payload produce identical ECC, SPEC_LO, SPEC_HI,
OUTF and PCM contents, whatever else differs between them. -/
def Obligations.GenPcmDependsOnConfigurationAndPayloadOnly : Prop :=
  ∀ (size : Nat) (s u : State), Ready s → Ready u →
    s.regs.payloadFrames = u.regs.payloadFrames → s.regs.payloadFrameSize = u.regs.payloadFrameSize →
    s.regs.samplesPerFrame = u.regs.samplesPerFrame → s.regs.frequencyStart = u.regs.frequencyStart →
    s.regs.outputGain = u.regs.outputGain → size ≤ s.regs.maxPayload.toNat →
    (∀ p, p < size → s.byteAt .msg p = u.byteAt .msg p) →
    ∃ t v, exec (.genPcm size) s = .next t ∧ exec (.genPcm size) u = .next v ∧
      (∀ j, j < 2 * size → t.byteAt .ecc j = v.byteAt .ecc j) ∧
      (∀ i b, i < s.regs.frames → b < s.regs.samples / 2 →
        t.halfAt .specLo (specIndex i b) = v.halfAt .specLo (specIndex i b) ∧
        t.halfAt .specHi (specIndex i b) = v.halfAt .specHi (specIndex i b)) ∧
      ∀ j, j < s.regs.frames * s.regs.samples →
        t.halfAt .outf j = v.halfAt .outf j ∧ t.halfAt .pcm j = v.halfAt .pcm j

/-- R225: the round trip over two instances. The sender sends P = MSG[0..size-1]; the receiver's DET is positive in a
frame exactly when the sender's bit is 1, but for the frames listed wrong. No frame wrong: P and then 0x00 bytes, no
flag. At most one wrong frame in each group of eight: the same OUT, CORRECTED when one was wrong. Exactly two wrong
in some group below 2M: UncorrectableData. -/
def Obligations.RoundTripOverTwoInstances : Prop :=
  ∀ (size : Nat) (sender receiver : State) (wrong : Nat → Bool), Ready sender → Ready receiver →
    receiver.regs.payloadFrames = sender.regs.payloadFrames → size ≤ sender.regs.maxPayload.toNat →
    let F := sender.regs.frames
    let M := F / 16
    let wrongIn := fun j => (List.range 8).countP (fun k => wrong (8 * j + k))
    ∃ sent received, exec (.genPcm size) sender = .next sent ∧
      ((∀ i, i < F → (0 < (receiver.halfAt .det i).toInt ↔ (frameBitOf sent i ^^ wrong i) = true)) →
        exec (.decode F) receiver = .next received ∧
        ((∀ j, j < 2 * M → wrongIn j = 0) →
          received.regs.state = .done ∧ received.regs.result = BitVec.ofNat 32 M ∧
          (∀ p, p < size → received.byteAt .out p = sender.byteAt .msg p) ∧
          (∀ p, size ≤ p → p < M → received.byteAt .out p = 0x00#8) ∧
          received.regs.corrected = false ∧ received.regs.uncorrectable = false ∧
          received.regs.corrCount = 0#32 ∧
          (∀ j, j < 2 * size → received.byteAt .ecc j = sent.byteAt .ecc j) ∧
          (∀ j, 2 * size ≤ j → j < 2 * M → received.byteAt .ecc j = 0x00#8)) ∧
        ((∀ j, j < 2 * M → wrongIn j ≤ 1) →
          received.regs.state = .done ∧ received.regs.result = BitVec.ofNat 32 M ∧
          (∀ p, p < size → received.byteAt .out p = sender.byteAt .msg p) ∧
          (∀ p, size ≤ p → p < M → received.byteAt .out p = 0x00#8) ∧
          (received.regs.corrected = true ↔ ∃ j, j < 2 * M ∧ wrongIn j = 1)) ∧
        ((∃ j, j < 2 * M ∧ wrongIn j = 2) →
          received.regs.state = .failed ∧ received.regs.result = 0xFFFFFFFF#32))

/-! ### The bus -/

/-- The addresses R71 maps, by region and index: a read of one completes with its word, a read of any other gets
BusError, and no read changes anything in the core (R71, R76, R78). -/
def Obligations.MappedAddressesAnswer : Prop :=
  ∀ (s : State) (a : Addr) (rest : List HostEvent), s.pending = .read a :: rest →
    let region := a.toNat / 2 ^ 20
    let index := a.toNat % 2 ^ 20
    let mapped := (region = 0 ∧ index ≤ 0x17) ∨ (region = 1 ∧ index ≤ 63) ∨ (region = 2 ∧ index ≤ 127) ∨
      (region = 3 ∧ index ≤ 1023) ∨ (region = 4 ∧ index ≤ 63) ∨ (region = 5 ∧ index ≤ 1023) ∨
      (region = 6 ∧ index ≤ 524287) ∨ (region = 7 ∧ index ≤ 524287) ∨ region = 8 ∨ region = 9
    ∃ t, step s = .next t ∧ t.regs = s.regs ∧ t.mem = s.mem ∧ t.pending = rest ∧ t.freeCount = s.freeCount ∧
      (¬ mapped → t.response = some .busError) ∧
      (mapped → ∃ w, hostRead s a = some w ∧ t.response = some (.data w))

/-- R78, R79: which writes other than to CMD get BusError, and that such a write changes nothing at all in the core:
an unmapped address, a read-only register or region, a configuration register outside Unconfigured. -/
def Obligations.RefusedWritesChangeNothing : Prop :=
  ∀ (s : State) (a : Addr) (w : Word) (rest : List HostEvent), s.pending = .write a w :: rest → a ≠ 0x000001#24 →
    let region := a.toNat / 2 ^ 20
    let index := a.toNat % 2 ^ 20
    let storable := (region = 0 ∧ 4 ≤ index ∧ index ≤ 8 ∧ s.regs.state = .unconfigured) ∨
      (region = 1 ∧ index ≤ 63) ∨ (region = 2 ∧ index ≤ 127) ∨ (region = 3 ∧ index ≤ 1023)
    ∃ t, step s = .next t ∧ t.pending = rest ∧ t.freeCount = s.freeCount ∧
      (storable → t.response = some .ok) ∧
      (¬ storable → t.response = some .busError ∧ t.regs = s.regs ∧ t.mem = s.mem)

/-- R79, R26: while STATE = Unconfigured a write to one of the five configuration registers stores all 32 bits
unchecked and changes nothing else; in every other state it gets BusError and stores nothing. -/
def Obligations.ConfigurationRegistersAreLocked : Prop :=
  ∀ (s : State) (w : Word) (rest : List HostEvent) (a : Addr), 4 ≤ a.toNat → a.toNat ≤ 8 →
    s.pending = .write a w :: rest →
    ∃ t, step s = .next t ∧ t.mem = s.mem ∧ t.pending = rest ∧ t.freeCount = s.freeCount ∧
      (s.regs.state = .unconfigured → t.response = some .ok ∧
        t.regs = if a.toNat = 4 then { s.regs with payloadFrames := w }
          else if a.toNat = 5 then { s.regs with payloadFrameSize := w }
          else if a.toNat = 6 then { s.regs with samplesPerFrame := w }
          else if a.toNat = 7 then { s.regs with frequencyStart := w }
          else { s.regs with outputGain := w }) ∧
      (s.regs.state ≠ .unconfigured → t.response = some .busError ∧ t.regs = s.regs)

/-- R72: a write to an MSG or ECC element stores w[7:0] and a write to a DET element stores w[15:0], whatever the
ignored bits; read back, a byte is zero-extended and a DET element sign-extended; every other element and every
register is as before. -/
def Obligations.WrittenElementsReadBack : Prop :=
  ∀ (s : State) (w : Word) (rest : List HostEvent) (i : Nat),
    (∀ sp base, (sp = .msg ∧ base = 0x100000 ∧ i < 64) ∨ (sp = .ecc ∧ base = 0x200000 ∧ i < 128) →
      s.pending = .write (BitVec.ofNat 24 (base + i)) w :: rest →
      ∃ t, step s = .next t ∧ t.response = some .ok ∧ t.regs = s.regs ∧ t.pending = rest ∧
        t.freeCount = s.freeCount ∧
        hostRead t (BitVec.ofNat 24 (base + i)) = some (w &&& 0x000000FF#32) ∧
        (∀ sp' j, ¬ (sp' = sp ∧ j = i) → t.byteAt sp' j = s.byteAt sp' j) ∧ ∀ sp', SameHalves sp' s t) ∧
    (i < 1024 → s.pending = .write (BitVec.ofNat 24 (0x300000 + i)) w :: rest →
      ∃ t, step s = .next t ∧ t.response = some .ok ∧ t.regs = s.regs ∧ t.pending = rest ∧
        t.freeCount = s.freeCount ∧
        hostRead t (BitVec.ofNat 24 (0x300000 + i)) = some ((w.setWidth 16).signExtend 32) ∧
        (∀ sp' j, ¬ (sp' = .det ∧ j = i) → t.halfAt sp' j = s.halfAt sp' j) ∧ ∀ sp', SameBytes sp' s t)

/-- A HostRead of each register that holds a value, other than STATUS, returns that register, at the word address R22
gives it. -/
def Obligations.ValueRegistersReadAtTheirAddresses : Prop :=
  ∀ s : State,
    hostRead s 0x000003#24 = some s.regs.result ∧
    hostRead s 0x000004#24 = some s.regs.payloadFrames ∧
    hostRead s 0x000005#24 = some s.regs.payloadFrameSize ∧
    hostRead s 0x000006#24 = some s.regs.samplesPerFrame ∧
    hostRead s 0x000007#24 = some s.regs.frequencyStart ∧
    hostRead s 0x000008#24 = some s.regs.outputGain ∧
    hostRead s 0x000009#24 = some s.regs.maxPayload ∧
    hostRead s 0x00000E#24 = some s.regs.eccLen ∧
    hostRead s 0x00000F#24 = some s.regs.outLen ∧
    hostRead s 0x000010#24 = some s.regs.pcmLen ∧
    hostRead s 0x000011#24 = some s.regs.outfLen ∧
    hostRead s 0x000012#24 = some s.regs.frameIdx ∧
    hostRead s 0x000013#24 = some s.regs.frameBit ∧
    hostRead s 0x000014#24 = some s.regs.corrCount

/-- R72, the read half: an element of a byte memory and a coefficient read zero-extended, a signed 16-bit element reads
sign-extended, for every element of every memory, at the base addresses and with the index ranges of R71. -/
def Obligations.ReadsExtendTheElement : Prop :=
  ∀ (s : State) (i : Nat),
    (i ≤ 63 → hostRead s (BitVec.ofNat 24 (0x100000 + i)) = some ((s.byteAt .msg i).zeroExtend 32)) ∧
    (i ≤ 127 → hostRead s (BitVec.ofNat 24 (0x200000 + i)) = some ((s.byteAt .ecc i).zeroExtend 32)) ∧
    (i ≤ 1023 → hostRead s (BitVec.ofNat 24 (0x300000 + i)) = some ((s.halfAt .det i).signExtend 32)) ∧
    (i ≤ 63 → hostRead s (BitVec.ofNat 24 (0x400000 + i)) = some ((s.byteAt .out i).zeroExtend 32)) ∧
    (i ≤ 1023 → hostRead s (BitVec.ofNat 24 (0x500000 + i)) = some ((s.halfAt .cur i).signExtend 32)) ∧
    (i ≤ 524287 → hostRead s (BitVec.ofNat 24 (0x600000 + i)) = some ((s.halfAt .specLo i).zeroExtend 32)) ∧
    (i ≤ 524287 → hostRead s (BitVec.ofNat 24 (0x700000 + i)) = some ((s.halfAt .specHi i).zeroExtend 32)) ∧
    (i ≤ 1048575 → hostRead s (BitVec.ofNat 24 (0x800000 + i)) = some ((s.halfAt .outf i).signExtend 32)) ∧
    (i ≤ 1048575 → hostRead s (BitVec.ofNat 24 (0x900000 + i)) = some ((s.halfAt .pcm i).signExtend 32))

/-- R28, R33: the constant registers and CMD read the same in every state. -/
def Obligations.ConstantRegistersReadTheSameInEveryState : Prop :=
  ∀ s : State,
    hostRead s 0x000000#24 = some 0x45434331#32 ∧ hostRead s 0x000001#24 = some 0#32 ∧
    hostRead s 0x00000A#24 = some 8#32 ∧ hostRead s 0x00000B#24 = some 4#32 ∧
    hostRead s 0x00000C#24 = some 1#32 ∧ hostRead s 0x00000D#24 = some 2#32 ∧
    hostRead s 0x000015#24 = some 0#32 ∧ hostRead s 0x000016#24 = some 0#32 ∧ hostRead s 0x000017#24 = some 0#32

/-- STATUS as the host reads it, field by field, with R23's nine codes of STATE; done_o and fail_o by the codes they
stand for; busy_o repeats its input "a command is executing" (R23, R24, R44, R248; what that input is, is the model's reading:
log 20, and BusyExactlyWhileACommandExecutes). -/
def Obligations.StatusWordHoldsItsFields : Prop :=
  ∀ s : State, ∃ w, hostRead s 0x000002#24 = some w ∧
    w.extractLsb' 0 4 = (match s.regs.state with
      | .unconfigured => 0#4
      | .idle => 1#4
      | .spectrumReady => 2#4
      | .encodingFrameLoop => 3#4
      | .finalized => 4#4
      | .classifying => 5#4
      | .correcting => 6#4
      | .done => 7#4
      | .failed => 8#4) ∧ w.getLsbD 4 = s.regs.specValid ∧ w.getLsbD 5 = s.regs.corrected ∧
    w.getLsbD 6 = s.regs.uncorrectable ∧ w.getLsbD 7 = s.regs.cmdErr ∧ w.extractLsb' 8 4 = s.regs.errc ∧
    w.extractLsb' 12 20 = 0#20 ∧
    (s.doneO = true ↔ w.extractLsb' 0 4 = 4#4 ∨ w.extractLsb' 0 4 = 7#4) ∧
    (s.failO = true ↔ w.extractLsb' 0 4 = 8#4) ∧
    ∀ executing, (s.busyO executing = true ↔ executing = true)

/-- busy_o is 0 between transactions. While the host's next transaction is under way it is 1 exactly when that is a
write to CMD, completed or abandoned by `rst`, of a word that decodes to a command which runs in STATE; where it is 0,
a write to CMD leaves STATE, RESULT and every memory as they are (R44, R248, R105, R106). That a rejected word executes
no command is the model's reading (log 20). -/
def Obligations.BusyExactlyWhileACommandExecutes : Prop :=
  ∀ s : State, s.regs.state.stable = true →
    s.busyO false = false ∧
    (s.busyO s.executing = true ↔ ∃ c i rest,
      (s.pending = .write 0x000001#24 c :: rest ∨ s.pending = .rstDuring 0x000001#24 c :: rest) ∧
      decode c = .ok i ∧ s.regs.state ∈ runColumns i) ∧
    ∀ c rest, s.pending = .write 0x000001#24 c :: rest → s.busyO s.executing = false →
      ∃ t, step s = .next t ∧ t.regs.state = s.regs.state ∧ t.regs.result = s.regs.result ∧ t.mem = s.mem

/-! ### `rst` during a command -/

/-- `rst` abandons the command a write to CMD issued, on a machine whose invariant holds: the registers take their
reset values, there is no response, MSG and DET and every element outside the command's write set are unchanged. That
the write set of a command that writes nothing is empty is the model's reading (R270, R273; log 6). -/
def Obligations.AbandonedCommandsLeaveTheRestAlone : Prop :=
  ∀ (s : State) (c : Word) (rest : List HostEvent), s.Inv → s.pending = .rstDuring 0x000001#24 c :: rest →
    ∃ t, step s = .next t ∧ t.regs = Regs.reset ∧ t.response = none ∧ t.pending = rest ∧
      SameBytes .msg s t ∧ SameHalves .det s t ∧
      ((∀ i, decode c ≠ .ok i) → t.mem = s.mem) ∧
      (∀ imm, decode c = .ok (.nop imm) ∨ decode c = .ok (.configure imm) ∨ decode c = .ok (.reset imm) →
        t.mem = s.mem) ∧
      (∀ imm, decode c = .ok (.genSpectrum imm) →
        (∀ sp, SameBytes sp s t) ∧ (∀ sp, sp ≠ .specLo → sp ≠ .specHi → SameHalves sp s t) ∧
        ∀ j, (s.regs.frames ≤ j / 512 ∨ s.regs.samples / 2 ≤ j % 512) →
          t.halfAt .specLo j = s.halfAt .specLo j ∧ t.halfAt .specHi j = s.halfAt .specHi j) ∧
      (∀ size, decode c = .ok (.encode size) → SameBytes .out s t ∧ (∀ sp, SameHalves sp s t) ∧
        ∀ j, 2 * size ≤ j → t.byteAt .ecc j = s.byteAt .ecc j) ∧
      (∀ length, decode c = .ok (.correct length) → SameBytes .ecc s t ∧ (∀ sp, SameHalves sp s t) ∧
        ∀ j, length / 2 ≤ j → t.byteAt .out j = s.byteAt .out j) ∧
      (∀ total, decode c = .ok (.decode total) → (∀ sp, SameHalves sp s t) ∧
        (∀ j, 2 * (s.regs.frames / 16) ≤ j → t.byteAt .ecc j = s.byteAt .ecc j) ∧
        ∀ j, s.regs.frames / 16 ≤ j → t.byteAt .out j = s.byteAt .out j) ∧
      (∀ size, decode c = .ok (.genPcm size) → SameBytes .out s t ∧
        (∀ j, 2 * size ≤ j → t.byteAt .ecc j = s.byteAt .ecc j) ∧
        (∀ j, s.regs.samples ≤ j → t.halfAt .cur j = s.halfAt .cur j) ∧
        (∀ j, s.regs.frames * s.regs.samples ≤ j →
          t.halfAt .outf j = s.halfAt .outf j ∧ t.halfAt .pcm j = s.halfAt .pcm j) ∧
        ∀ j, (s.regs.state ≠ .idle ∨ s.regs.frames ≤ j / 512 ∨ s.regs.samples / 2 ≤ j % 512) →
          t.halfAt .specLo j = s.halfAt .specLo j ∧ t.halfAt .specHi j = s.halfAt .specHi j)

/-! ### The whole machine -/

/-- Every step keeps the memories in the model's canonical form and within their sizes (the form is the model's, log 2;
the sizes are R71's). -/
def Obligations.StepKeepsTheMemoriesCanonical : Prop :=
  ∀ s t : State, s.mem.wf = true → step s = .next t → t.mem.wf = true

/-- From every state that meets the invariant of Safety.lean, a step leads to one that meets it: canonical memories, no
transient STATE, a legal geometry while an instance lives, the tables SPEC_VALID promises, RESULT and ERRC and the
lengths in agreement with STATE, and CORRECTED with CORR_COUNT. -/
def Obligations.StepKeepsTheInvariant : Prop :=
  ∀ s t : State, s.Inv → step s = .next t → t.Inv

/-- The state after reset meets the invariant. -/
def Obligations.ResetMeetsTheInvariant : Prop := State.reset.Inv

/-- From a state that meets the invariant no step faults and none is refused: every transaction completes (R284). -/
def Obligations.EveryTransactionCompletes : Prop :=
  ∀ s : State, s.Inv → ∃ t, step s = .next t

/-- Where a command would name an element its memory does not have, it faults and has no effect. This is the model's
own stop, for states that no run from reset reaches (log 7). -/
def Obligations.AbsentElementsFault : Prop :=
  ∀ (n : Nat) (s : State), s.regs.state = .idle ∨ s.regs.state = .spectrumReady →
    (n ≤ s.regs.maxPayload.toNat → 64 < n →
      exec (.encode n) s = .fault .absentElement ∧ exec (.genPcm n) s = .fault .absentElement) ∧
    (n ≤ 2 * s.regs.maxPayload.toNat → n % 2 = 0 → 128 < n → exec (.correct n) s = .fault .absentElement) ∧
    (1024 < s.regs.frames → exec (.decode s.regs.frames) s = .fault .absentElement) ∧
    (n ≤ s.regs.maxPayload.toNat → n ≤ 64 → 1024 < s.regs.frames ∨ 1024 < s.regs.samples →
      exec (.genPcm n) s = .fault .absentElement) ∧
    (s.regs.state = .idle → 1024 < s.regs.frames ∨ 1024 < s.regs.samples →
      exec (.genSpectrum n) s = .fault .absentElement)

/-- No step is ever refused, in any state. -/
def Obligations.NoStepIsRefused : Prop :=
  ∀ (s : State) (r : Refusal), step s ≠ .refused r

/-- The final STATE and RESULT of every accepted command (R124, R25, R241). -/
def Obligations.TransitionRelationOfAcceptedCommands : Prop :=
  ∀ (i : Instr) (s t : State), s.Inv → legalIn i s.regs.state = true → exec i s = .next t →
    match i with
    | .nop _ => t = s
    | .reset _ => t.regs.state = .unconfigured ∧ t.regs.result = 0#32
    | .configure _ => (t.regs.state = .idle ∧ t.regs.result = 0#32) ∨
        (t.regs.state = .failed ∧ t.regs.result.toInt = -5)
    | .genSpectrum _ => t.regs.state = .spectrumReady ∧ t.regs.result = s.regs.payloadFrames
    | .encode size => (t.regs.state = .finalized ∧ t.regs.result.toNat = 2 * size) ∨
        (t.regs.state = .failed ∧ t.regs.result.toInt = -4)
    | .genPcm _ => (t.regs.state = .finalized ∧ t.regs.result.toNat = s.regs.frames * s.regs.samples) ∨
        (t.regs.state = .failed ∧ t.regs.result.toInt = -4)
    | .decode _ => (t.regs.state = .done ∧ t.regs.result = s.regs.maxPayload) ∨
        (t.regs.state = .failed ∧ (t.regs.result.toInt = -2 ∨ t.regs.result.toInt = -1))
    | .correct length => (t.regs.state = .done ∧ t.regs.result.toNat = length / 2) ∨
        (t.regs.state = .failed ∧
          (t.regs.result.toInt = -4 ∨ t.regs.result.toInt = -3 ∨ t.regs.result.toInt = -1))

/-- In Finalized, Done and Failed every command but RESET leaves STATE, RESULT, the lengths, the configuration and
every memory as they are (R125, R247, R276). -/
def Obligations.TerminalStatesKeepTheirResults : Prop :=
  ∀ (i : Instr) (s : State),
    s.regs.state = .finalized ∨ s.regs.state = .done ∨ s.regs.state = .failed → (∀ imm, i ≠ .reset imm) →
    ∃ t, exec i s = .next t ∧ t.mem = s.mem ∧ SameHost s t ∧
      (t.regs = s.regs ∨ t.regs = { s.regs with cmdErr := true, errc := 6#4 })

/-- Which memories each command may write, for every command that completes (R35 to R42, "written by"). -/
def Obligations.CommandsWriteOnlyTheirMemories : Prop :=
  ∀ (i : Instr) (s t : State), exec i s = .next t → SameHost s t ∧ SameBytes .msg s t ∧ SameHalves .det s t ∧
    match i with
    | .nop _ | .configure _ | .reset _ => t.mem = s.mem
    | .encode _ => SameBytes .out s t ∧ ∀ sp, SameHalves sp s t
    | .correct _ => SameBytes .ecc s t ∧ ∀ sp, SameHalves sp s t
    | .genSpectrum _ => SameBytes .ecc s t ∧ SameBytes .out s t ∧
        SameHalves .cur s t ∧ SameHalves .outf s t ∧ SameHalves .pcm s t
    | .decode _ => ∀ sp, SameHalves sp s t
    | .genPcm _ => SameBytes .out s t

/-- Outside Unconfigured, STATE never returns there and the five configuration registers and MAX_PAYLOAD never change
but by a reset, and CMDERR once set stays set until one (R24, R26, R27, R79). A reset is one of three events: an edge of
`rst`, `rst` during a transaction, or a write to CMD of a word with OP = 7 (R270). -/
def Obligations.OnlyAResetUndoesTheConfiguration : Prop :=
  ∀ s t : State, step s = .next t →
    (t.regs = Regs.reset ∧ ∃ rest, s.pending = .rst :: rest ∨ (∃ a w, s.pending = .rstDuring a w :: rest) ∨
      ∃ c, c &&& 0x000000FF#32 = 0x00000007#32 ∧ s.pending = .write 0x000001#24 c :: rest) ∨
    ((s.regs.cmdErr = true → t.regs.cmdErr = true) ∧
      (s.regs.state ≠ .unconfigured → t.regs.state ≠ .unconfigured ∧
        t.regs.payloadFrames = s.regs.payloadFrames ∧ t.regs.payloadFrameSize = s.regs.payloadFrameSize ∧
        t.regs.samplesPerFrame = s.regs.samplesPerFrame ∧ t.regs.frequencyStart = s.regs.frequencyStart ∧
        t.regs.outputGain = s.regs.outputGain ∧ t.regs.maxPayload = s.regs.maxPayload))
end

