-- ==== Sys2Proof/Laws/Cells.lean ====
section
/-! SUPPORT. What reading and storing cells do, and that a store keeps the canonical form. -/

namespace Sys2Proof.Machine

variable {w : Nat}

@[simp] theorem Cells.find_nil (i : Nat) : Cells.find i ([] : Cells w) = none := rfl

theorem Cells.find_append (i : Nat) (a b : Cells w) :
    Cells.find i (a ++ b) = (Cells.find i a).or (Cells.find i b) := by
  induction a with
  | nil => simp
  | cons p a ih =>
    obtain ⟨k, v⟩ := p
    by_cases h : k = i <;> simp [Cells.find, h, ih]

/-- Filtering by the index keeps what is found at a kept index and finds nothing at another. -/
theorem Cells.find_filter (i : Nat) (keep : Nat → Bool) (c : Cells w) :
    Cells.find i (c.filter (fun p => keep p.1)) = if keep i then Cells.find i c else none := by
  induction c with
  | nil => simp
  | cons p c ih =>
    obtain ⟨k, v⟩ := p
    by_cases hk : keep k <;> by_cases h : k = i <;> simp_all [Cells.find]

theorem Cells.find_run (i base : Nat) (vs : List (BitVec w)) :
    Cells.find i (Cells.run base vs) = if base ≤ i then vs[i - base]? else none := by
  induction vs generalizing base with
  | nil => simp [Cells.run]
  | cons v vs ih =>
    simp only [Cells.run, Cells.find, ih]
    by_cases h : base = i
    · simp [h]
    · by_cases h' : base ≤ i
      · have : i - base = (i - (base + 1)) + 1 := by omega
        rw [if_neg h, if_pos (by omega), if_pos h', this, List.getElem?_cons_succ]
      · rw [if_neg h, if_neg (by omega), if_neg h']

/-- Read after store: the stored element inside the stored range, the old one outside. -/
theorem Cells.find_store (i base : Nat) (vs : List (BitVec w)) (c : Cells w) :
    Cells.find i (Cells.store base vs c) =
      if base ≤ i ∧ i < base + vs.length then vs[i - base]? else Cells.find i c := by
  have h1 := Cells.find_filter i (fun k => decide (k < base)) c
  have h2 := Cells.find_filter i (fun k => decide (base + vs.length ≤ k)) c
  rw [Cells.store, Cells.find_append, Cells.find_append, Cells.find_run, h1, h2]
  by_cases hb : base ≤ i
  · by_cases hl : i < base + vs.length
    · have : i - base < vs.length := by omega
      simp [hb, hl, Nat.not_lt.mpr hb, List.getElem?_eq_getElem this]
    · have : vs.length ≤ i - base := by omega
      simp [hb, hl, Nat.not_lt.mpr hb, Nat.not_lt.mp hl, List.getElem?_eq_none this]
  · have : ¬ (base + vs.length ≤ i) := by omega
    simp [hb, Nat.not_le.mp hb, this]

theorem Cells.mem_run {base : Nat} {vs : List (BitVec w)} {p : Nat × BitVec w} (h : p ∈ Cells.run base vs) :
    base ≤ p.1 ∧ p.1 < base + vs.length := by
  induction vs generalizing base with
  | nil => simp [Cells.run] at h
  | cons v vs ih =>
    rcases List.mem_cons.mp h with rfl | h
    · simp
    · have := ih h; simp only [List.length_cons]; omega

theorem Cells.run_sorted (base : Nat) (vs : List (BitVec w)) :
    (Cells.run base vs).Pairwise (fun p q => p.1 < q.1) := by
  induction vs generalizing base with
  | nil => simp [Cells.run]
  | cons v vs ih =>
    refine List.pairwise_cons.mpr ⟨fun q hq => ?_, ih (base + 1)⟩
    have := (Cells.mem_run hq).1
    show base < q.1
    omega

theorem Cells.wf_iff (size : Nat) (c : Cells w) :
    Cells.wf size c = true ↔ c.Pairwise (fun p q => p.1 < q.1) ∧ ∀ p ∈ c, p.1 < size := by
  simp [Cells.wf, List.all_eq_true]

@[simp] theorem Cells.wf_nil (size : Nat) : Cells.wf size ([] : Cells w) = true := by
  simp [Cells.wf_iff]

/-- A store inside the memory keeps the canonical form. -/
theorem Cells.wf_store {size base : Nat} {vs : List (BitVec w)} {c : Cells w} (hc : Cells.wf size c = true)
    (hfit : base + vs.length ≤ size) : Cells.wf size (Cells.store base vs c) = true := by
  obtain ⟨hs, hb⟩ := (Cells.wf_iff size c).mp hc
  refine (Cells.wf_iff size _).mpr ⟨?_, ?_⟩
  · refine List.pairwise_append.mpr ⟨List.pairwise_append.mpr ⟨hs.filter _, Cells.run_sorted base vs, ?_⟩,
      hs.filter _, ?_⟩
    · intro p hp q hq
      have h1 := (List.mem_filter.mp hp).2
      have h2 := (Cells.mem_run hq).1
      simp only [decide_eq_true_eq] at h1
      omega
    · intro p hp q hq
      have h2 := (List.mem_filter.mp hq).2
      simp only [decide_eq_true_eq] at h2
      rcases List.mem_append.mp hp with hp | hp
      · have h1 := (List.mem_filter.mp hp).2
        simp only [decide_eq_true_eq] at h1
        omega
      · have h1 := (Cells.mem_run hp).2
        omega
  · intro p hp
    rcases List.mem_append.mp hp with hp | hp
    · rcases List.mem_append.mp hp with hp | hp
      · exact hb p (List.mem_filter.mp hp).1
      · have := (Cells.mem_run hp).2; omega
    · exact hb p (List.mem_filter.mp hp).1

/-- The canonical form is one form: cells that read alike everywhere are the same list. -/
theorem Cells.ext_of_find {size : Nat} {a b : Cells w} (ha : Cells.wf size a = true) (hb : Cells.wf size b = true)
    (h : ∀ i, Cells.find i a = Cells.find i b) : a = b := by
  have sorted_a := ((Cells.wf_iff size a).mp ha).1
  have sorted_b := ((Cells.wf_iff size b).mp hb).1
  clear ha hb
  have absent : ∀ {k : Nat} {c : Cells w}, (∀ q ∈ c, k < q.1) → Cells.find k c = none := by
    intro k c hc
    induction c with
    | nil => rfl
    | cons p c ih =>
      have h1 := hc p (by simp)
      rw [Cells.find, if_neg (by omega)]
      exact ih (fun q hq => hc q (by simp [hq]))
  induction a generalizing b with
  | nil =>
    cases b with
    | nil => rfl
    | cons q b => have := h q.1; simp [Cells.find] at this
  | cons p a ih =>
    obtain ⟨k, v⟩ := p
    cases b with
    | nil => have := h k; simp [Cells.find] at this
    | cons q b =>
      obtain ⟨l, u⟩ := q
      have ta := List.pairwise_cons.mp sorted_a
      have tb := List.pairwise_cons.mp sorted_b
      have hkl : k = l := by
        rcases Nat.lt_trichotomy k l with hlt | heq | hgt
        · have := h k
          rw [Cells.find, if_pos rfl, absent (c := (l, u) :: b)] at this
          · simp at this
          · intro q hq
            rcases List.mem_cons.mp hq with rfl | hq
            · exact hlt
            · exact Nat.lt_trans hlt (tb.1 q hq)
        · exact heq
        · have := h l
          rw [absent (c := (k, v) :: a), Cells.find, if_pos rfl] at this
          · simp at this
          · intro q hq
            rcases List.mem_cons.mp hq with rfl | hq
            · exact hgt
            · exact Nat.lt_trans hgt (ta.1 q hq)
      subst hkl
      have hvu : v = u := by have := h k; simpa [Cells.find] using this
      subst hvu
      refine congrArg _ (ih (fun i => ?_) ta.2 tb.2)
      by_cases hi : k = i
      · subst hi; rw [absent ta.1, absent tb.1]
      · have := h i; simpa [Cells.find, hi] using this

end Sys2Proof.Machine
end

