-- ==== Sys2Proof/Laws/State.lean ====
section
/-! SUPPORT. One lemma per field of State per update, true by unfolding once, so that no later proof unfolds a record
update. -/

namespace Sys2Proof.Machine

variable (s : State) (r : Regs) (m : Memory) (p : Option BusResponse) (q : List HostEvent) (st : CoreState)
  (f : FailCode) (j : RejectCode)

@[simp] theorem State.setRegs_regs : (s.setRegs r).regs = r := rfl
@[simp] theorem State.setRegs_mem : (s.setRegs r).mem = s.mem := rfl
@[simp] theorem State.setRegs_pending : (s.setRegs r).pending = s.pending := rfl
@[simp] theorem State.setRegs_response : (s.setRegs r).response = s.response := rfl
@[simp] theorem State.setRegs_freeCount : (s.setRegs r).freeCount = s.freeCount := rfl

@[simp] theorem State.setMem_regs : (s.setMem m).regs = s.regs := rfl
@[simp] theorem State.setMem_mem : (s.setMem m).mem = m := rfl
@[simp] theorem State.setMem_pending : (s.setMem m).pending = s.pending := rfl
@[simp] theorem State.setMem_response : (s.setMem m).response = s.response := rfl
@[simp] theorem State.setMem_freeCount : (s.setMem m).freeCount = s.freeCount := rfl

@[simp] theorem State.respond_regs : (s.respond p).regs = s.regs := rfl
@[simp] theorem State.respond_mem : (s.respond p).mem = s.mem := rfl
@[simp] theorem State.respond_pending : (s.respond p).pending = s.pending := rfl
@[simp] theorem State.respond_response : (s.respond p).response = p := rfl
@[simp] theorem State.respond_freeCount : (s.respond p).freeCount = s.freeCount := rfl

@[simp] theorem State.setPending_regs : (s.setPending q).regs = s.regs := rfl
@[simp] theorem State.setPending_mem : (s.setPending q).mem = s.mem := rfl
@[simp] theorem State.setPending_pending : (s.setPending q).pending = q := rfl
@[simp] theorem State.setPending_response : (s.setPending q).response = s.response := rfl
@[simp] theorem State.setPending_freeCount : (s.setPending q).freeCount = s.freeCount := rfl

@[simp] theorem State.countAbandoned_regs : s.countAbandoned.regs = s.regs := rfl
@[simp] theorem State.countAbandoned_mem : s.countAbandoned.mem = s.mem := rfl
@[simp] theorem State.countAbandoned_pending : s.countAbandoned.pending = s.pending := rfl
@[simp] theorem State.countAbandoned_response : s.countAbandoned.response = s.response := rfl
@[simp] theorem State.countAbandoned_freeCount : s.countAbandoned.freeCount = s.freeCount + 1 := rfl

@[simp] theorem State.setState_regs : (s.setState st).regs = { s.regs with state := st } := rfl
@[simp] theorem State.setState_mem : (s.setState st).mem = s.mem := rfl
@[simp] theorem State.setState_pending : (s.setState st).pending = s.pending := rfl
@[simp] theorem State.setState_response : (s.setState st).response = s.response := rfl
@[simp] theorem State.setState_freeCount : (s.setState st).freeCount = s.freeCount := rfl

@[simp] theorem State.fail_regs :
    (s.fail f).regs = { s.regs with result := f.result, errc := f.errc, state := .failed } := rfl
@[simp] theorem State.fail_mem : (s.fail f).mem = s.mem := rfl
@[simp] theorem State.fail_pending : (s.fail f).pending = s.pending := rfl
@[simp] theorem State.fail_response : (s.fail f).response = s.response := rfl
@[simp] theorem State.fail_freeCount : (s.fail f).freeCount = s.freeCount := rfl

@[simp] theorem State.reject_regs :
    (s.reject j).regs = { s.regs with cmdErr := true, errc := j.errc } := rfl
@[simp] theorem State.reject_mem : (s.reject j).mem = s.mem := rfl
@[simp] theorem State.reject_pending : (s.reject j).pending = s.pending := rfl
@[simp] theorem State.reject_response : (s.reject j).response = s.response := rfl
@[simp] theorem State.reject_freeCount : (s.reject j).freeCount = s.freeCount := rfl

@[simp] theorem State.resetRegisters_regs : s.resetRegisters.regs = Regs.reset := rfl
@[simp] theorem State.resetRegisters_mem : s.resetRegisters.mem = s.mem := rfl
@[simp] theorem State.resetRegisters_pending : s.resetRegisters.pending = s.pending := rfl
@[simp] theorem State.resetRegisters_response : s.resetRegisters.response = s.response := rfl
@[simp] theorem State.resetRegisters_freeCount : s.resetRegisters.freeCount = s.freeCount := rfl

@[simp] theorem State.enterFrame_regs (i : Nat) (b : Bool) :
    (s.enterFrame i b).regs = { s.regs with frameIdx := BitVec.ofNat 32 i, frameBit := bitWord b } := rfl
@[simp] theorem State.enterFrame_mem (i : Nat) (b : Bool) : (s.enterFrame i b).mem = s.mem := rfl
@[simp] theorem State.enterFrame_pending (i : Nat) (b : Bool) : (s.enterFrame i b).pending = s.pending := rfl
@[simp] theorem State.enterFrame_response (i : Nat) (b : Bool) : (s.enterFrame i b).response = s.response := rfl
@[simp] theorem State.enterFrame_freeCount (i : Nat) (b : Bool) : (s.enterFrame i b).freeCount = s.freeCount := rfl

variable (bs : ByteSpace) (hs : HalfSpace) (base : Nat) (vb : List Byte) (vh : List Half)

@[simp] theorem State.storeBytes_regs : (s.storeBytes bs base vb).regs = s.regs := rfl
@[simp] theorem State.storeBytes_pending : (s.storeBytes bs base vb).pending = s.pending := rfl
@[simp] theorem State.storeBytes_response : (s.storeBytes bs base vb).response = s.response := rfl
@[simp] theorem State.storeBytes_freeCount : (s.storeBytes bs base vb).freeCount = s.freeCount := rfl

@[simp] theorem State.storeHalves_regs : (s.storeHalves hs base vh).regs = s.regs := rfl
@[simp] theorem State.storeHalves_pending : (s.storeHalves hs base vh).pending = s.pending := rfl
@[simp] theorem State.storeHalves_response : (s.storeHalves hs base vh).response = s.response := rfl
@[simp] theorem State.storeHalves_freeCount : (s.storeHalves hs base vh).freeCount = s.freeCount := rfl

/-- Two states with equal fields are equal. -/
theorem State.eq_of_fields {s t : State} (hr : s.regs = t.regs) (hm : s.mem = t.mem) (hp : s.pending = t.pending)
    (ha : s.response = t.response) (hf : s.freeCount = t.freeCount) : s = t := by
  cases s; cases t; simp_all

end Sys2Proof.Machine
end

