-- ==== Sys2Proof/Laws/Memory.lean ====
section
/-! SUPPORT. Reading an element after a store, and that every store inside its memory keeps the canonical form. -/

namespace Sys2Proof.Machine

@[simp] theorem Memory.bytes_setBytes (m : Memory) (sp sp' : ByteSpace) (c : Cells 8) :
    (m.setBytes sp c).bytes sp' = if sp' = sp then c else m.bytes sp' := by
  cases sp <;> cases sp' <;> rfl

@[simp] theorem Memory.halves_setBytes (m : Memory) (sp : ByteSpace) (sp' : HalfSpace) (c : Cells 8) :
    (m.setBytes sp c).halves sp' = m.halves sp' := by
  cases sp <;> cases sp' <;> rfl

@[simp] theorem Memory.halves_setHalves (m : Memory) (sp sp' : HalfSpace) (c : Cells 16) :
    (m.setHalves sp c).halves sp' = if sp' = sp then c else m.halves sp' := by
  cases sp <;> cases sp' <;> rfl

@[simp] theorem Memory.bytes_setHalves (m : Memory) (sp : HalfSpace) (sp' : ByteSpace) (c : Cells 16) :
    (m.setHalves sp c).bytes sp' = m.bytes sp' := by
  cases sp <;> cases sp' <;> rfl

/-- The canonical form of the nine memories, one by one. -/
theorem Memory.wf_iff (m : Memory) :
    m.wf = true ↔ (∀ sp, Cells.wf sp.size (m.bytes sp) = true) ∧ ∀ sp, Cells.wf sp.size (m.halves sp) = true := by
  constructor
  · intro h
    simp only [Memory.wf, Bool.and_eq_true] at h
    obtain ⟨⟨⟨⟨⟨⟨⟨⟨h1, h2⟩, h3⟩, h4⟩, h5⟩, h6⟩, h7⟩, h8⟩, h9⟩ := h
    exact ⟨fun sp => by cases sp <;> assumption, fun sp => by cases sp <;> assumption⟩
  · rintro ⟨hb, hh⟩
    simp only [Memory.wf, Bool.and_eq_true]
    exact ⟨⟨⟨⟨⟨⟨⟨⟨hb .msg, hb .ecc⟩, hb .out⟩, hh .det⟩, hh .cur⟩, hh .specLo⟩, hh .specHi⟩, hh .outf⟩, hh .pcm⟩

theorem Memory.wf_setBytes {m : Memory} {sp : ByteSpace} {c : Cells 8} (hm : m.wf = true)
    (hc : Cells.wf sp.size c = true) : (m.setBytes sp c).wf = true := by
  obtain ⟨hb, hh⟩ := m.wf_iff.mp hm
  refine (Memory.wf_iff _).mpr ⟨fun sp' => ?_, fun sp' => by simpa using hh sp'⟩
  by_cases h : sp' = sp
  · subst h; simpa using hc
  · simpa [h] using hb sp'

theorem Memory.wf_setHalves {m : Memory} {sp : HalfSpace} {c : Cells 16} (hm : m.wf = true)
    (hc : Cells.wf sp.size c = true) : (m.setHalves sp c).wf = true := by
  obtain ⟨hb, hh⟩ := m.wf_iff.mp hm
  refine (Memory.wf_iff _).mpr ⟨fun sp' => by simpa using hb sp', fun sp' => ?_⟩
  by_cases h : sp' = sp
  · subst h; simpa using hc
  · simpa [h] using hh sp'

/-- A store inside a byte memory keeps the canonical form. -/
theorem State.wf_storeBytes {s : State} {sp : ByteSpace} {base : Nat} {vs : List Byte} (hm : s.mem.wf = true)
    (hfit : base + vs.length ≤ sp.size) : (s.storeBytes sp base vs).mem.wf = true :=
  Memory.wf_setBytes hm (Cells.wf_store ((s.mem.wf_iff.mp hm).1 sp) hfit)

/-- A store inside a 16-bit memory keeps the canonical form. -/
theorem State.wf_storeHalves {s : State} {sp : HalfSpace} {base : Nat} {vs : List Half} (hm : s.mem.wf = true)
    (hfit : base + vs.length ≤ sp.size) : (s.storeHalves sp base vs).mem.wf = true :=
  Memory.wf_setHalves hm (Cells.wf_store ((s.mem.wf_iff.mp hm).2 sp) hfit)

/-- The power-on memories have the canonical form. -/
theorem Memory.powerOn_wf : Memory.powerOn.wf = true := by decide

/-- Reading after a store to a byte memory: the stored element inside the stored range, the old one elsewhere. -/
theorem State.byteAt_storeBytes (s : State) (sp sp' : ByteSpace) (base i : Nat) (vs : List Byte) :
    (s.storeBytes sp base vs).byteAt sp' i =
      if sp' = sp ∧ base ≤ i ∧ i < base + vs.length then (vs[i - base]?).getD 0#8 else s.byteAt sp' i := by
  by_cases h : sp' = sp
  · subst h
    by_cases hr : base ≤ i ∧ i < base + vs.length
    · have : i - base < vs.length := by omega
      simp [State.byteAt, State.storeBytes, Cells.find_store, hr, List.getElem?_eq_getElem this]
    · simp [State.byteAt, State.storeBytes, Cells.find_store, hr]
  · simp [State.byteAt, State.storeBytes, h]

/-- Reading after a store to a 16-bit memory: the stored element inside the stored range, the old one elsewhere. -/
theorem State.halfAt_storeHalves (s : State) (sp sp' : HalfSpace) (base i : Nat) (vs : List Half) :
    (s.storeHalves sp base vs).halfAt sp' i =
      if sp' = sp ∧ base ≤ i ∧ i < base + vs.length then (vs[i - base]?).getD 0#16 else s.halfAt sp' i := by
  by_cases h : sp' = sp
  · subst h
    by_cases hr : base ≤ i ∧ i < base + vs.length
    · have : i - base < vs.length := by omega
      simp [State.halfAt, State.storeHalves, Cells.find_store, hr, List.getElem?_eq_getElem this]
    · simp [State.halfAt, State.storeHalves, Cells.find_store, hr]
  · simp [State.halfAt, State.storeHalves, h]

/-- Reading after a loop that stores `f 0, f 1, …` from `base` up. -/
theorem State.byteAt_storeBytes_map (s : State) (sp sp' : ByteSpace) (base n i : Nat) (f : Nat → Byte) :
    (s.storeBytes sp base ((List.range n).map f)).byteAt sp' i =
      if sp' = sp ∧ base ≤ i ∧ i < base + n then f (i - base) else s.byteAt sp' i := by
  rw [State.byteAt_storeBytes, List.length_map, List.length_range]
  split
  · rename_i h
    rw [List.getElem?_map, List.getElem?_range (by omega)]; rfl
  · rfl

/-- Reading after a loop that stores `f 0, f 1, …` from `base` up. -/
theorem State.halfAt_storeHalves_map (s : State) (sp sp' : HalfSpace) (base n i : Nat) (f : Nat → Half) :
    (s.storeHalves sp base ((List.range n).map f)).halfAt sp' i =
      if sp' = sp ∧ base ≤ i ∧ i < base + n then f (i - base) else s.halfAt sp' i := by
  rw [State.halfAt_storeHalves, List.length_map, List.length_range]
  split
  · rename_i h
    rw [List.getElem?_map, List.getElem?_range (by omega)]; rfl
  · rfl

@[simp] theorem State.halfAt_storeBytes (s : State) (sp : ByteSpace) (sp' : HalfSpace) (base i : Nat)
    (vs : List Byte) : (s.storeBytes sp base vs).halfAt sp' i = s.halfAt sp' i := by
  simp [State.halfAt, State.storeBytes]

@[simp] theorem State.byteAt_storeHalves (s : State) (sp : HalfSpace) (sp' : ByteSpace) (base i : Nat)
    (vs : List Half) : (s.storeHalves sp base vs).byteAt sp' i = s.byteAt sp' i := by
  simp [State.byteAt, State.storeHalves]

/-- An element is a function of the memories alone. -/
theorem State.byteAt_congr {s t : State} (h : s.mem = t.mem) (sp : ByteSpace) (i : Nat) :
    s.byteAt sp i = t.byteAt sp i := by
  simp [State.byteAt, h]

theorem State.halfAt_congr {s t : State} (h : s.mem = t.mem) (sp : HalfSpace) (i : Nat) :
    s.halfAt sp i = t.halfAt sp i := by
  simp [State.halfAt, h]

@[simp] theorem State.byteAt_setRegs (s : State) (r : Regs) (sp : ByteSpace) (i : Nat) :
    (s.setRegs r).byteAt sp i = s.byteAt sp i := rfl
@[simp] theorem State.halfAt_setRegs (s : State) (r : Regs) (sp : HalfSpace) (i : Nat) :
    (s.setRegs r).halfAt sp i = s.halfAt sp i := rfl
@[simp] theorem State.byteAt_setState (s : State) (st : CoreState) (sp : ByteSpace) (i : Nat) :
    (s.setState st).byteAt sp i = s.byteAt sp i := rfl
@[simp] theorem State.halfAt_setState (s : State) (st : CoreState) (sp : HalfSpace) (i : Nat) :
    (s.setState st).halfAt sp i = s.halfAt sp i := rfl
@[simp] theorem State.byteAt_enterFrame (s : State) (n : Nat) (b : Bool) (sp : ByteSpace) (i : Nat) :
    (s.enterFrame n b).byteAt sp i = s.byteAt sp i := rfl
@[simp] theorem State.halfAt_enterFrame (s : State) (n : Nat) (b : Bool) (sp : HalfSpace) (i : Nat) :
    (s.enterFrame n b).halfAt sp i = s.halfAt sp i := rfl
@[simp] theorem State.byteAt_respond (s : State) (r : Option BusResponse) (sp : ByteSpace) (i : Nat) :
    (s.respond r).byteAt sp i = s.byteAt sp i := rfl
@[simp] theorem State.halfAt_respond (s : State) (r : Option BusResponse) (sp : HalfSpace) (i : Nat) :
    (s.respond r).halfAt sp i = s.halfAt sp i := rfl
@[simp] theorem State.byteAt_setPending (s : State) (q : List HostEvent) (sp : ByteSpace) (i : Nat) :
    (s.setPending q).byteAt sp i = s.byteAt sp i := rfl
@[simp] theorem State.halfAt_setPending (s : State) (q : List HostEvent) (sp : HalfSpace) (i : Nat) :
    (s.setPending q).halfAt sp i = s.halfAt sp i := rfl
@[simp] theorem State.byteAt_fail (s : State) (c : FailCode) (sp : ByteSpace) (i : Nat) :
    (s.fail c).byteAt sp i = s.byteAt sp i := rfl
@[simp] theorem State.halfAt_fail (s : State) (c : FailCode) (sp : HalfSpace) (i : Nat) :
    (s.fail c).halfAt sp i = s.halfAt sp i := rfl

end Sys2Proof.Machine
end

