-- ==== Sys2Proof/Laws/Abandon.lean ====
section
/-! SUPPORT. What `rst` during a command can do: elements outside the write set keep their value (spec R273). -/

namespace Sys2Proof.Machine

/-- Whether a block holds element `i` of a byte memory. -/
def Block.coversByte (sp : ByteSpace) (i : Nat) : Block → Prop
  | .bytes sp' base length => sp = sp' ∧ base ≤ i ∧ i < base + length
  | .halves _ _ _ => False

/-- Whether a block holds element `i` of a 16-bit memory. -/
def Block.coversHalf (sp : HalfSpace) (i : Nat) : Block → Prop
  | .bytes _ _ _ => False
  | .halves sp' base length => sp = sp' ∧ base ≤ i ∧ i < base + length

@[simp] theorem Block.scramble_regs (k : Nat) (s : State) (b : Block) : (Block.scramble k s b).regs = s.regs := by
  cases b <;> rfl

theorem Block.scramble_host (k : Nat) (s : State) (b : Block) :
    (Block.scramble k s b).pending = s.pending ∧ (Block.scramble k s b).response = s.response ∧
      (Block.scramble k s b).freeCount = s.freeCount := by
  cases b <;> exact ⟨rfl, rfl, rfl⟩

theorem Block.scramble_byteAt {k : Nat} {s : State} {b : Block} {sp : ByteSpace} {i : Nat}
    (h : ¬ b.coversByte sp i) : (Block.scramble k s b).byteAt sp i = s.byteAt sp i := by
  cases b with
  | bytes sp' base length => rw [Block.scramble, State.byteAt_storeBytes_map]; exact if_neg h
  | halves => rw [Block.scramble, State.byteAt_storeHalves]

theorem Block.scramble_halfAt {k : Nat} {s : State} {b : Block} {sp : HalfSpace} {i : Nat}
    (h : ¬ b.coversHalf sp i) : (Block.scramble k s b).halfAt sp i = s.halfAt sp i := by
  cases b with
  | bytes => rw [Block.scramble, State.halfAt_storeBytes]
  | halves sp' base length => rw [Block.scramble, State.halfAt_storeHalves_map]; exact if_neg h

theorem Block.scramble_wf {k : Nat} {s : State} {b : Block} (hb : b.fits = true) (hm : s.mem.wf = true) :
    (Block.scramble k s b).mem.wf = true := by
  cases b with
  | bytes => exact State.wf_storeBytes hm (by simpa [Block.fits] using hb)
  | halves => exact State.wf_storeHalves hm (by simpa [Block.fits] using hb)

/-- A write set left open: registers and host kept, elements outside it kept, the canonical form kept. -/
theorem scramble_all (k : Nat) (blocks : List Block) (s : State) :
    (blocks.foldl (Block.scramble k) s).regs = s.regs ∧
    (blocks.foldl (Block.scramble k) s).pending = s.pending ∧
    (blocks.foldl (Block.scramble k) s).response = s.response ∧
    (blocks.foldl (Block.scramble k) s).freeCount = s.freeCount ∧
    (∀ sp i, (∀ b ∈ blocks, ¬ b.coversByte sp i) →
      (blocks.foldl (Block.scramble k) s).byteAt sp i = s.byteAt sp i) ∧
    (∀ sp i, (∀ b ∈ blocks, ¬ b.coversHalf sp i) →
      (blocks.foldl (Block.scramble k) s).halfAt sp i = s.halfAt sp i) ∧
    (blocks.all Block.fits = true → s.mem.wf = true → (blocks.foldl (Block.scramble k) s).mem.wf = true) := by
  induction blocks generalizing s with
  | nil => simp
  | cons b blocks ih =>
    obtain ⟨hr, hp, ha, hf, hb, hh, hw⟩ := ih (Block.scramble k s b)
    obtain ⟨bp, ba, bf⟩ := Block.scramble_host k s b
    refine ⟨hr.trans (Block.scramble_regs k s b), hp.trans bp, ha.trans ba, hf.trans bf, ?_, ?_, ?_⟩
    · intro sp i h
      exact (hb sp i (fun c hc => h c (by simp [hc]))).trans (Block.scramble_byteAt (h b (by simp)))
    · intro sp i h
      exact (hh sp i (fun c hc => h c (by simp [hc]))).trans (Block.scramble_halfAt (h b (by simp)))
    · intro hall hm
      rw [List.all_cons, Bool.and_eq_true] at hall
      exact hw hall.2 (Block.scramble_wf hall.1 hm)

/-- What an abandoned command leaves (R270, R273). -/
theorem abandon_fits {i : Instr} {s : State} (h : (writeSet i s.regs).all Block.fits = true) :
    abandon i s = .next
      (((writeSet i s.regs).foldl (Block.scramble s.freeCount) s).countAbandoned.resetRegisters.respond none) := by
  simp only [abandon, h, if_true]

theorem abandon_cases {i : Instr} {s t : State} (h : abandon i s = .next t) :
    (writeSet i s.regs).all Block.fits = true ∧
    t = ((writeSet i s.regs).foldl (Block.scramble s.freeCount) s).countAbandoned.resetRegisters.respond none := by
  unfold abandon at h
  simp only at h
  split at h
  · exact ⟨‹_›, (Host.Outcome.next.inj h).symm⟩
  · cases h

/-- The blocks of the spectrum tables that exist where the geometry does (R273). -/
theorem spectrumBlocks_fit {r : Regs} (hF : r.frames ≤ 1024) (hN : r.samples ≤ 1024) :
    (spectrumBlocks r).all Block.fits = true := by
  rw [List.all_eq_true]
  intro b hb
  simp only [spectrumBlocks, List.mem_flatMap, List.mem_range, List.mem_cons, List.not_mem_nil, or_false] at hb
  obtain ⟨i, hi, rfl | rfl⟩ := hb <;>
  · refine decide_eq_true ?_
    simp only [specIndex, HalfSpace.size, Config.maxFrames, Config.specStride]
    omega

theorem spectrumBlocks_coversByte (r : Regs) (sp : ByteSpace) (i : Nat) :
    ∀ b ∈ spectrumBlocks r, ¬ b.coversByte sp i := by
  intro b hb
  simp only [spectrumBlocks, List.mem_flatMap, List.mem_range, List.mem_cons, List.not_mem_nil, or_false] at hb
  obtain ⟨j, -, rfl | rfl⟩ := hb <;> exact id

/-- The spectrum blocks hold rows below F and columns below N/2 of the two tables, nothing else. -/
theorem spectrumBlocks_coversHalf {r : Regs} (hN : r.samples ≤ 1024) {sp : HalfSpace} {j : Nat}
    (h : (sp ≠ .specLo ∧ sp ≠ .specHi) ∨ r.frames ≤ j / 512 ∨ r.samples / 2 ≤ j % 512) :
    ∀ b ∈ spectrumBlocks r, ¬ b.coversHalf sp j := by
  intro b hb
  simp only [spectrumBlocks, List.mem_flatMap, List.mem_range, List.mem_cons, List.not_mem_nil, or_false] at hb
  obtain ⟨i, hi, rfl | rfl⟩ := hb <;>
  · rintro ⟨rfl, h1, h2⟩
    simp only [specIndex, Config.specStride] at h1 h2
    rcases h with ⟨h, h'⟩ | h | h
    · simp at h h'
    · omega
    · omega

/-- Which blocks a command's write set can hold (R273). -/
theorem mem_writeSet {i : Instr} {r : Regs} {b : Block} (h : b ∈ writeSet i r) :
    match i with
    | .nop _ | .configure _ | .reset _ => False
    | .genSpectrum _ => r.state = .idle ∧ b ∈ spectrumBlocks r
    | .encode size => size ≤ r.capacity ∧ b = .bytes .ecc 0 (2 * size)
    | .correct length => length ≤ 2 * r.capacity ∧ b = .bytes .out 0 (length / 2)
    | .decode _ => b = .bytes .ecc 0 (2 * (r.frames / 16)) ∨ b = .bytes .out 0 (r.frames / 16)
    | .genPcm size => size ≤ r.capacity ∧
        (b = .bytes .ecc 0 (2 * size) ∨ (r.state = .idle ∧ b ∈ spectrumBlocks r) ∨ b = .halves .cur 0 r.samples ∨
          b = .halves .outf 0 (r.frames * r.samples) ∨ b = .halves .pcm 0 (r.frames * r.samples)) := by
  unfold writeSet at h
  split at h
  · rename_i legal
    cases i with
    | nop | configure | reset => simp at h
    | genSpectrum => exact ⟨of_decide_eq_true legal, h⟩
    | encode | correct =>
      simp only at h ⊢
      split at h
      · rename_i fits
        exact ⟨by omega, List.mem_singleton.mp h⟩
      · simp at h
    | decode =>
      simp only at h ⊢
      split at h
      · simpa using h
      · simp at h
    | genPcm =>
      simp only at h ⊢
      split at h
      · rename_i fits
        refine ⟨fits, ?_⟩
        simp only [pcmBlocks, List.cons_append, List.mem_cons, List.mem_append, List.not_mem_nil, or_false] at h
        rcases h with h | h | h | h | h
        · exact .inl h
        · split at h
          · exact .inr (.inl ⟨‹_›, h⟩)
          · simp at h
        · exact .inr (.inr (.inl h))
        · exact .inr (.inr (.inr (.inl h)))
        · exact .inr (.inr (.inr (.inr h)))
      · simp at h
  · simp at h

end Sys2Proof.Machine
end

