-- ==== Sys2Proof/Laws/Arith.lean ====
section
/-! SUPPORT. Loops and fixed-point arithmetic. -/

namespace Sys2Proof.Machine

@[simp] theorem forUpTo_zero {σ : Type} (body : Nat → σ → σ) (s : σ) : forUpTo body 0 s = s := rfl

@[simp] theorem forUpTo_succ {σ : Type} (body : Nat → σ → σ) (n : Nat) (s : σ) :
    forUpTo body (n + 1) s = body n (forUpTo body n s) := rfl

/-- The loop rule: what holds before round 0 and is carried from each round to the next holds at the end. -/
theorem forUpTo_induction {σ : Type} {body : Nat → σ → σ} {n : Nat} {s : σ} (P : Nat → σ → Prop) (start : P 0 s)
    (round : ∀ i t, i < n → P i t → P (i + 1) (body i t)) : P n (forUpTo body n s) := by
  have every : ∀ k, k ≤ n → P k (forUpTo body k s) := by
    intro k
    induction k with
    | zero => intro _; exact start
    | succ k ih => intro hk; exact round k _ (by omega) (ih (by omega))
  exact every n (Nat.le_refl n)

/-- What each round keeps, the loop keeps. -/
theorem forUpTo_keeps {σ α : Type} {body : Nat → σ → σ} (view : σ → α) (keep : ∀ i t, view (body i t) = view t)
    (n : Nat) (s : σ) : view (forUpTo body n s) = view s := by
  induction n with
  | zero => rfl
  | succ n ih => rw [forUpTo_succ, keep, ih]

theorem sat16_of_range {v : Int} (h1 : -32768 ≤ v) (h2 : v ≤ 32767) : sat16 v = v := by
  unfold sat16; split
  · omega
  · split <;> omega

theorem sat16_range (v : Int) : -32768 ≤ sat16 v ∧ sat16 v ≤ 32767 := by
  unfold sat16; split
  · omega
  · split <;> omega

/-- An element holds the integer it was made from, when that is in its range. -/
theorem toInt_halfOfInt {v : Int} (h1 : -32768 ≤ v) (h2 : v ≤ 32767) : (halfOfInt v).toInt = v := by
  rw [halfOfInt, BitVec.toInt_ofInt, Int.bmod_def]
  split <;> omega

/-- A weight of at most 1.0 moves a sample toward 0, rounding down: the magnitude does not grow (R163). -/
theorem floorShift_weight {x : Int} {w : Nat} (hw : w ≤ 32768) :
    (0 ≤ x → 0 ≤ floorShift (x * w) 15 ∧ floorShift (x * w) 15 ≤ x) ∧
    (x ≤ 0 → x ≤ floorShift (x * w) 15 ∧ floorShift (x * w) 15 ≤ 0) := by
  unfold floorShift
  have e : ((2 ^ 15 : Nat) : Int) = 32768 := by norm_num
  rw [e]
  have hw' : (w : Int) ≤ 32768 := by exact_mod_cast hw
  have hw0 : (0 : Int) ≤ w := by positivity
  constructor
  · intro hx
    have h1 : 0 ≤ x * w := mul_nonneg hx hw0
    have h2 : x * w ≤ x * 32768 := mul_le_mul_of_nonneg_left hw' hx
    constructor <;> omega
  · intro hx
    have h1 : x * w ≤ 0 := mul_nonpos_of_nonpos_of_nonneg hx hw0
    have h2 : x * 32768 ≤ x * w := mul_le_mul_of_nonpos_left hw' hx
    constructor <;> omega

/-- Full weight leaves a sample as it is. -/
theorem floorShift_full (x : Int) : floorShift (x * 32768) 15 = x := by
  unfold floorShift
  have e : ((2 ^ 15 : Nat) : Int) = 32768 := by norm_num
  rw [e]; omega

end Sys2Proof.Machine
end

