-- ==== Sys2Proof/Laws/Bus.lean ====
section
/-! SUPPORT. What an address names, and everything a HostWrite other than to CMD can do (spec R71, R72, R78, R79). -/

namespace Sys2Proof.Machine

theorem bytePlace_unmapped (sp : ByteSpace) (i : Nat) : bytePlace sp i = .unmapped ↔ sp.size ≤ i := by
  unfold bytePlace; split
  · simp; omega
  · simp; omega

theorem halfPlace_unmapped (sp : HalfSpace) (i : Nat) : halfPlace sp i = .unmapped ↔ sp.size ≤ i := by
  unfold halfPlace; split
  · simp; omega
  · simp; omega

theorem bytePlace_mapped {sp : ByteSpace} {i : Nat} (h : i < sp.size) : bytePlace sp i = .byteElement sp i :=
  if_pos h

theorem halfPlace_mapped {sp : HalfSpace} {i : Nat} (h : i < sp.size) : halfPlace sp i = .halfElement sp i :=
  if_pos h

/-- The region map of R71 on a region number and an element index. -/
def placeAt (region index : Nat) : Place :=
  match region with
  | 0 => if index < 24 then .register index else .unmapped
  | 1 => bytePlace .msg index
  | 2 => bytePlace .ecc index
  | 3 => halfPlace .det index
  | 4 => bytePlace .out index
  | 5 => halfPlace .cur index
  | 6 => halfPlace .specLo index
  | 7 => halfPlace .specHi index
  | 8 => halfPlace .outf index
  | 9 => halfPlace .pcm index
  | _ => .unmapped

/-- The region is the address over 2^20 and the index the rest (R70). -/
theorem place_eq (a : Addr) : place a = placeAt (a.toNat / 2 ^ 20) (a.toNat % 2 ^ 20) := by
  have h1 : (a.extractLsb' 0 20).toNat = a.toNat % 2 ^ 20 := by
    rw [BitVec.extractLsb'_toNat, Nat.shiftRight_zero]
  have h2 : (a.extractLsb' 20 4).toNat = a.toNat / 2 ^ 20 := by
    have := a.isLt
    rw [BitVec.extractLsb'_toNat, Nat.shiftRight_eq_div_pow]
    exact Nat.mod_eq_of_lt (by omega)
  unfold place
  rw [h1, h2]
  rfl

/-- A place that exists has its index in range (R71). -/
def Place.inRange : Place → Prop
  | .register i => i < 24
  | .byteElement sp i => i < sp.size
  | .halfElement sp i => i < sp.size
  | .unmapped => True

theorem bytePlace_inRange (sp : ByteSpace) (i : Nat) : (bytePlace sp i).inRange := by
  unfold bytePlace; split
  · assumption
  · trivial

theorem halfPlace_inRange (sp : HalfSpace) (i : Nat) : (halfPlace sp i).inRange := by
  unfold halfPlace; split
  · assumption
  · trivial

theorem place_inRange (a : Addr) : (place a).inRange := by
  rw [place_eq]
  unfold placeAt
  split
  all_goals first
    | exact bytePlace_inRange _ _
    | exact halfPlace_inRange _ _
    | trivial
    | (split
       · assumption
       · trivial)

/-- A stored register is one of the five configuration registers, in Unconfigured (R79). -/
theorem storeRegister_cases {r r' : Regs} {i : Nat} {w : Word} (h : storeRegister r i w = some r') :
    r.state = .unconfigured ∧
    ((i = 4 ∧ r' = { r with payloadFrames := w }) ∨ (i = 5 ∧ r' = { r with payloadFrameSize := w }) ∨
      (i = 6 ∧ r' = { r with samplesPerFrame := w }) ∨ (i = 7 ∧ r' = { r with frequencyStart := w }) ∨
      (i = 8 ∧ r' = { r with outputGain := w })) := by
  unfold storeRegister at h
  split at h
  · refine ⟨‹_›, ?_⟩
    split at h
    all_goals first
      | exact .inl ⟨rfl, (Option.some.inj h).symm⟩
      | exact .inr (.inl ⟨rfl, (Option.some.inj h).symm⟩)
      | exact .inr (.inr (.inl ⟨rfl, (Option.some.inj h).symm⟩))
      | exact .inr (.inr (.inr (.inl ⟨rfl, (Option.some.inj h).symm⟩)))
      | exact .inr (.inr (.inr (.inr ⟨rfl, (Option.some.inj h).symm⟩)))
      | contradiction
  · cases h

/-- Everything a HostWrite that is not a command can do (R72, R78, R79). -/
theorem hostStore_cases {s t : State} {a : Addr} {w : Word} (h : hostStore s a w = some t) :
    (∃ i r, place a = .register i ∧ storeRegister s.regs i w = some r ∧ t = s.setRegs r) ∨
    (∃ sp i, place a = .byteElement sp i ∧ i < sp.size ∧ sp.hostWritable = true ∧
      t = s.storeBytes sp i [w.extractLsb' 0 8]) ∨
    ∃ sp i, place a = .halfElement sp i ∧ i < sp.size ∧ sp.hostWritable = true ∧
      t = s.storeHalves sp i [w.extractLsb' 0 16] := by
  have range := place_inRange a
  unfold hostStore at h
  split at h
  · rename_i i hp
    cases hr : storeRegister s.regs i w with
    | none => simp [hr] at h
    | some r =>
      rw [hr] at h
      exact .inl ⟨i, r, hp, hr, (Option.some.inj h).symm⟩
  · rename_i sp i hp
    rw [hp] at range
    split at h
    · exact .inr (.inl ⟨sp, i, hp, range, ‹_›, (Option.some.inj h).symm⟩)
    · cases h
  · rename_i sp i hp
    rw [hp] at range
    split at h
    · exact .inr (.inr ⟨sp, i, hp, range, ‹_›, (Option.some.inj h).symm⟩)
    · cases h
  · cases h

/-- A store keeps the host's side of the state. -/
theorem hostStore_host {s t : State} {a : Addr} {w : Word} (h : hostStore s a w = some t) :
    t.pending = s.pending ∧ t.response = s.response ∧ t.freeCount = s.freeCount := by
  rcases hostStore_cases h with ⟨i, r, -, -, rfl⟩ | ⟨sp, i, -, -, -, rfl⟩ | ⟨sp, i, -, -, -, rfl⟩ <;>
  exact ⟨rfl, rfl, rfl⟩

/-- A store keeps the canonical form. -/
theorem hostStore_wf {s t : State} {a : Addr} {w : Word} (h : hostStore s a w = some t) (hm : s.mem.wf = true) :
    t.mem.wf = true := by
  rcases hostStore_cases h with ⟨i, r, -, -, rfl⟩ | ⟨sp, i, -, hi, -, rfl⟩ | ⟨sp, i, -, hi, -, rfl⟩
  · exact hm
  · exact State.wf_storeBytes hm (by simpa using hi)
  · exact State.wf_storeHalves hm (by simpa using hi)

end Sys2Proof.Machine
end

