-- ==== Sys2Proof/Laws/Ecc.lean ====
section
/-! SUPPORT. The code of one block, and what ecc_encode, ecc_correct and finishCorrection do (spec R191 to R198). -/

namespace Sys2Proof.Machine

/-! ### One block -/

theorem highNibble_append (a b : Nibble) : highNibble (a ++ b) = a := by
  revert a b; decide

theorem lowNibble_append (a b : Nibble) : lowNibble (a ++ b) = b := by
  revert a b; decide

theorem nibbles_append (m : Byte) : (highNibble m ++ lowNibble m : Byte) = m := by
  revert m; decide

/-- A clean codeword decodes to its nibble (R193, R199 e = 0). -/
theorem eccDecByte_enc (d : Nibble) :
    eccDecByte (eccEncNibble d) = { nibble := d, corr := false, unc := false } := by
  revert d; decide

/-- One inverted bit is corrected (R199 e = 1). -/
theorem eccDecByte_oneError (d : Nibble) (b : Fin 8) :
    eccDecByte (eccEncNibble d ^^^ (1#8 <<< b.val)) = { nibble := d, corr := true, unc := false } := by
  revert d b; decide

/-- Two inverted bits are detected (R199 e = 2). -/
theorem eccDecByte_twoErrors (d : Nibble) (b c : Fin 8) (h : b ≠ c) :
    (eccDecByte (eccEncNibble d ^^^ (1#8 <<< b.val) ^^^ (1#8 <<< c.val))).unc = true := by
  revert d b c; decide +kernel

/-! ### ecc_encode -/

/-- Block j of an encoded payload: the high nibble's block at even j, the low nibble's at odd j (R195, R74). -/
def encodedBlock (s : State) (j : Nat) : Byte :=
  eccEncNibble (if j % 2 = 0 then highNibble (s.byteAt .msg (j / 2)) else lowNibble (s.byteAt .msg (j / 2)))

theorem encodedPayload_eq (s : State) (size : Nat) :
    encodedPayload s size = (List.range (2 * size)).map (encodedBlock s) := by
  induction size with
  | zero => rfl
  | succ n ih =>
    have split : 2 * (n + 1) = 2 * n + 1 + 1 := by omega
    rw [split, List.range_succ, List.range_succ, List.map_append, List.map_append, ← ih]
    have h1 : (2 * n) / 2 = n := by omega
    have h2 : (2 * n + 1) / 2 = n := by omega
    have h3 : (2 * n) % 2 = 0 := by omega
    have h4 : (2 * n + 1) % 2 ≠ 0 := by omega
    simp [encodedPayload, List.range_succ, List.flatMap_append, encodeByte, encodedBlock, h1, h2, h3]

theorem eccEncode_regs (size : Nat) (s : State) :
    (eccEncode size s).regs = { s.regs with eccLen := BitVec.ofNat 32 (2 * size) } := rfl

theorem eccEncode_host (size : Nat) (s : State) : SameHost s (eccEncode size s) := ⟨rfl, rfl, rfl⟩

/-- ECC after ecc_encode; every other byte is as before (R195). -/
theorem eccEncode_byteAt (size : Nat) (s : State) (sp : ByteSpace) (j : Nat) :
    (eccEncode size s).byteAt sp j = if sp = .ecc ∧ j < 2 * size then encodedBlock s j else s.byteAt sp j := by
  simp [eccEncode, encodedPayload_eq, State.byteAt_storeBytes_map]

@[simp] theorem eccEncode_halfAt (size : Nat) (s : State) (sp : HalfSpace) (j : Nat) :
    (eccEncode size s).halfAt sp j = s.halfAt sp j := by simp [eccEncode]

theorem eccEncode_wf {size : Nat} {s : State} (hsize : size ≤ 64) (hm : s.mem.wf = true) :
    (eccEncode size s).mem.wf = true :=
  State.wf_storeBytes hm (by
    simp only [encodedPayload_eq, List.length_map, List.length_range, ByteSpace.size, Config.maxEcc]; omega)

/-! ### ecc_correct -/

theorem eccCorrect_regs (pairs : Nat) (s : State) :
    (eccCorrect pairs s).regs =
      s.regs.withEccFlags (correctedBlocks s (2 * pairs)) (anyUncorrectable s (2 * pairs)) := rfl

theorem eccCorrect_host (pairs : Nat) (s : State) : SameHost s (eccCorrect pairs s) := ⟨rfl, rfl, rfl⟩

/-- OUT after ecc_correct; every other byte is as before (R196). -/
theorem eccCorrect_byteAt (pairs : Nat) (s : State) (sp : ByteSpace) (j : Nat) :
    (eccCorrect pairs s).byteAt sp j = if sp = .out ∧ j < pairs then decodedByte s j else s.byteAt sp j := by
  simp [eccCorrect, State.byteAt_storeBytes_map]

@[simp] theorem eccCorrect_halfAt (pairs : Nat) (s : State) (sp : HalfSpace) (j : Nat) :
    (eccCorrect pairs s).halfAt sp j = s.halfAt sp j := by simp [eccCorrect]

theorem eccCorrect_wf {pairs : Nat} {s : State} (hpairs : pairs ≤ 64) (hm : s.mem.wf = true) :
    (eccCorrect pairs s).mem.wf = true :=
  State.wf_storeBytes hm (by
    simp only [List.length_map, List.length_range, ByteSpace.size, Config.maxMsg]; omega)

theorem correctedBlocks_le (s : State) (n : Nat) : correctedBlocks s n ≤ n := by
  simpa [correctedBlocks] using List.countP_le_length (l := List.range n) (p := fun j => (decodedBlock s j).corr)

theorem anyUncorrectable_iff (s : State) (n : Nat) :
    anyUncorrectable s n = true ↔ ∃ j, j < n ∧ (decodedBlock s j).unc = true := by
  simp [anyUncorrectable]

theorem anyUncorrectable_eq_false (s : State) (n : Nat) :
    anyUncorrectable s n = false ↔ ∀ j, j < n → (decodedBlock s j).unc = false := by
  simp [anyUncorrectable]

/-- Decoding reads ECC alone. -/
theorem decodedBlock_congr {s t : State} {j : Nat} (h : s.byteAt .ecc j = t.byteAt .ecc j) :
    decodedBlock s j = decodedBlock t j := by simp [decodedBlock, h]

theorem correctedBlocks_congr {s t : State} {n : Nat} (h : ∀ j, j < n → s.byteAt .ecc j = t.byteAt .ecc j) :
    correctedBlocks s n = correctedBlocks t n := by
  refine List.countP_congr (fun j hj => ?_)
  rw [decodedBlock_congr (h j (List.mem_range.mp hj))]

theorem anyUncorrectable_congr {s t : State} {n : Nat} (h : ∀ j, j < n → s.byteAt .ecc j = t.byteAt .ecc j) :
    anyUncorrectable s n = anyUncorrectable t n := by
  rw [Bool.eq_iff_iff, anyUncorrectable_iff, anyUncorrectable_iff]
  constructor <;> rintro ⟨j, hj, hu⟩ <;> refine ⟨j, hj, ?_⟩
  · rwa [← decodedBlock_congr (h j hj)]
  · rwa [decodedBlock_congr (h j hj)]

theorem decodedByte_congr {s t : State} {p : Nat} (h : ∀ j, j < 2 * (p + 1) → s.byteAt .ecc j = t.byteAt .ecc j) :
    decodedByte s p = decodedByte t p := by
  rw [decodedByte, decodedByte, decodedBlock_congr (h (2 * p) (by omega)),
    decodedBlock_congr (h (2 * p + 1) (by omega))]

/-! ### The end of CORRECT and DECODE -/

/-- finishCorrection writes registers only. -/
theorem finishCorrection_mem (pairs : Nat) (s : State) : (finishCorrection pairs s).mem = s.mem := by
  unfold finishCorrection; split <;> rfl

theorem finishCorrection_host (pairs : Nat) (s : State) : SameHost s (finishCorrection pairs s) := by
  unfold finishCorrection; split <;> exact ⟨rfl, rfl, rfl⟩

theorem finishCorrection_done {pairs : Nat} {s : State} (h : s.regs.uncorrectable = false) :
    (finishCorrection pairs s).regs =
      { s.regs with outLen := BitVec.ofNat 32 pairs, result := BitVec.ofNat 32 pairs, state := .done } := by
  simp [finishCorrection, h]

theorem finishCorrection_failed {pairs : Nat} {s : State} (h : s.regs.uncorrectable = true) :
    (finishCorrection pairs s).regs =
      { s.regs with outLen := 0#32, result := FailCode.uncorrectableData.result, errc := 1#4, state := .failed } := by
  simp [finishCorrection, h, FailCode.errc]

end Sys2Proof.Machine
end

