-- ==== Sys2Proof/Laws/Decoder.lean ====
section
/-! SUPPORT. What DECODE's frame loop does (spec R220 to R223). -/

namespace Sys2Proof.Machine

/-- Replacing a bit, bit by bit (R222). -/
theorem getLsbD_replaceBit (r : Byte) (b : Fin 8) (v : Bool) (k : Fin 8) :
    (replaceBit r b v).getLsbD k = if k = b then v else r.getLsbD k := by
  revert r b v k; decide +kernel

/-- The bit frame i supplies. -/
def detectedBit (s : State) (i : Nat) : Bool := classify (s.halfAt .det i)

/-! ### The loop as the pseudocode writes it, one bit at a time -/

/-- pack_bits(), line by line: frame FRAME_IDX replaces one bit of ECC when it lies below 16 × M (R222, R223). -/
def packBits (s : State) : State :=
  let i := s.regs.frameIdx.toNat
  if i < 16 * (s.regs.frames / 16) then
    s.storeBytes .ecc (i / 8)
      [replaceBit (s.byteAt .ecc (i / 8)) (bitOfFrame i) (s.regs.frameBit.getLsbD 0)]
  else s

/-- The body of R220's frame loop, line by line. -/
def classifyAndPack (i : Nat) (s : State) : State := packBits (classifyFrame i s)

/-- pack_bits() for frame i, on a state that has entered it. -/
theorem packBits_enterFrame {t : State} {i : Nat} (b : Bool) (hi : i ≤ 1024) :
    packBits (t.enterFrame i b) =
      if i < 16 * (t.regs.frames / 16) then
        (t.enterFrame i b).storeBytes .ecc (i / 8) [replaceBit (t.byteAt .ecc (i / 8)) (bitOfFrame i) b]
      else t.enterFrame i b := by
  have hidx : (BitVec.ofNat 32 i).toNat = i := by
    rw [BitVec.toNat_ofNat]; exact Nat.mod_eq_of_lt (by omega)
  have hbit : (bitWord b).getLsbD 0 = b := by cases b <;> rfl
  have hcond : ((t.enterFrame i b).regs.frameIdx.toNat < 16 * ((t.enterFrame i b).regs.frames / 16)) ↔
      i < 16 * (t.regs.frames / 16) := by
    simp only [State.enterFrame_regs, Regs.frames, hidx]
  unfold packBits
  refine (if_congr hcond rfl rfl).trans ?_
  simp only [State.enterFrame_regs, State.byteAt_enterFrame, hidx, hbit]

/-- The frame loop after `n` of at most 1024 frames: the registers but FRAME_IDX and FRAME_BIT are as before, the
bits of the frames below min(n, 16 M) stand in ECC, everything else is as before. -/
structure AfterFrames (s : State) (n : Nat) (t : State) : Prop where
  regs : ∃ fi fb, t.regs = { s.regs with frameIdx := fi, frameBit := fb } ∧
    (0 < n → fi = BitVec.ofNat 32 (n - 1) ∧ fb = bitWord (detectedBit s (n - 1))) ∧
    (n = 0 → fi = s.regs.frameIdx ∧ fb = s.regs.frameBit)
  host : SameHost s t
  halves : ∀ sp i, t.halfAt sp i = s.halfAt sp i
  bytes : ∀ sp i, sp ≠ .ecc → t.byteAt sp i = s.byteAt sp i
  ecc : ∀ j (k : Fin 8), (t.byteAt .ecc j).getLsbD k =
    if 8 * j + (7 - k) < n ∧ 8 * j + (7 - k) < 16 * (s.regs.frames / 16)
    then detectedBit s (8 * j + (7 - k)) else (s.byteAt .ecc j).getLsbD k
  beyond : ∀ j, 2 * (s.regs.frames / 16) ≤ j → t.byteAt .ecc j = s.byteAt .ecc j
  wf : s.mem.wf = true → t.mem.wf = true

theorem AfterFrames.start (s : State) : AfterFrames s 0 s where
  regs := ⟨s.regs.frameIdx, s.regs.frameBit, rfl, by simp, by simp⟩
  host := ⟨rfl, rfl, rfl⟩
  halves := fun _ _ => rfl
  bytes := fun _ _ _ => rfl
  ecc := by simp
  beyond := fun _ _ => rfl
  wf := id

theorem bitOfFrame_lt (i : Nat) : bitOfFrame i < 8 := by unfold bitOfFrame; omega

/-- One more frame. -/
theorem AfterFrames.round {s t : State} {i : Nat} (hF : s.regs.frames ≤ 1024) (hi : i < s.regs.frames)
    (h : AfterFrames s i t) : AfterFrames s (i + 1) (classifyAndPack i t) := by
  obtain ⟨⟨fi, fb, hregs, -, -⟩, hhost, hhalves, hbytes, hecc, hbeyond, hwf⟩ := h
  have hfr : t.regs.frames = s.regs.frames := by simp [Regs.frames, hregs]
  have step : classifyAndPack i t = _ := packBits_enterFrame (classify (t.halfAt .det i)) (by omega)
  rw [show classify (t.halfAt .det i) = detectedBit s i by rw [detectedBit, hhalves], hfr] at step
  have entered : (t.enterFrame i (detectedBit s i)).regs =
      { s.regs with frameIdx := BitVec.ofNat 32 i, frameBit := bitWord (detectedBit s i) } := by simp [hregs]
  by_cases hM : i < 16 * (s.regs.frames / 16)
  · rw [if_pos hM] at step
    have hread : ∀ j, (classifyAndPack i t).byteAt .ecc j =
        if j = i / 8 then replaceBit (t.byteAt .ecc j) (bitOfFrame i) (detectedBit s i) else t.byteAt .ecc j := by
      intro j
      rw [step, State.byteAt_storeBytes]
      by_cases hj : j = i / 8
      · subst hj; simp
      · rw [if_neg hj, if_neg (by simp only [List.length_cons, List.length_nil]; omega)]; simp
    refine ⟨⟨_, _, by rw [step]; exact entered, by simp, by simp⟩, by rw [step]; exact hhost, ?_, ?_, ?_, ?_, ?_⟩
    · intro sp j; rw [step]; simpa using hhalves sp j
    · intro sp j hsp
      rw [step, State.byteAt_storeBytes, if_neg (by simp [hsp])]
      simpa using hbytes sp j hsp
    · intro j k
      rw [hread]
      by_cases hj : j = i / 8
      · have hb := getLsbD_replaceBit (t.byteAt .ecc j) ⟨bitOfFrame i, bitOfFrame_lt i⟩ (detectedBit s i) k
        simp only at hb
        rw [if_pos hj, hb, hecc]
        by_cases hk : k = ⟨bitOfFrame i, bitOfFrame_lt i⟩
        · have hki : 8 * j + (7 - k.val) = i := by subst hk; simp only [bitOfFrame]; omega
          rw [if_pos hk, hki, if_pos ⟨by omega, hM⟩]
        · have hne : 8 * j + (7 - k.val) ≠ i := by
            intro he; apply hk; apply Fin.ext; simp only [bitOfFrame]; omega
          rw [if_neg hk]
          exact if_congr (by omega) rfl rfl
      · rw [if_neg hj, hecc]
        exact if_congr (by omega) rfl rfl
    · intro j hj
      rw [hread, if_neg (by omega)]
      exact hbeyond j hj
    · intro hw
      rw [step]
      refine State.wf_storeBytes (by simpa using hwf hw) ?_
      simp only [List.length_cons, List.length_nil, ByteSpace.size, Config.maxEcc]
      omega
  · rw [if_neg hM] at step
    refine ⟨⟨_, _, by rw [step]; exact entered, by simp, by simp⟩, by rw [step]; exact hhost, ?_, ?_, ?_, ?_, ?_⟩
    · intro sp j; rw [step]; exact hhalves sp j
    · intro sp j hsp; rw [step]; exact hbytes sp j hsp
    · intro j k
      rw [step, State.byteAt_enterFrame, hecc]
      exact if_congr (by omega) rfl rfl
    · intro j hj; rw [step]; exact hbeyond j hj
    · intro hw; rw [step]; exact hwf hw

/-- The whole loop. -/
theorem decodeLoop (s : State) (hF : s.regs.frames ≤ 1024) :
    AfterFrames s s.regs.frames (forUpTo classifyAndPack s.regs.frames s) :=
  forUpTo_induction (AfterFrames s) (AfterFrames.start s) (fun _ _ hi h => h.round hF hi)

/-! ### The loop as the model runs it: the decisions, then the bytes they make -/

/-- A packed byte, bit by bit (R222). -/
theorem getLsbD_packedByte (s : State) (j : Nat) (k : Fin 8) :
    (packedByte s j).getLsbD k = detectedBit s (8 * j + (7 - k)) := by
  have key : ∀ (v : Nat → Bool) (k : Fin 8),
      (forUpTo (fun t r => replaceBit r (bitOfFrame t) (v t)) 8 0#8).getLsbD k = v (7 - k) := by
    intro v k
    have e := fun (r : Byte) (b : Fin 8) (x : Bool) => getLsbD_replaceBit r b x k
    simp only [forUpTo]
    rw [e _ ⟨bitOfFrame 7, by decide⟩, e _ ⟨bitOfFrame 6, by decide⟩, e _ ⟨bitOfFrame 5, by decide⟩,
      e _ ⟨bitOfFrame 4, by decide⟩, e _ ⟨bitOfFrame 3, by decide⟩, e _ ⟨bitOfFrame 2, by decide⟩,
      e _ ⟨bitOfFrame 1, by decide⟩, e _ ⟨bitOfFrame 0, by decide⟩]
    fin_cases k <;> rfl
  exact key (fun t => classify (s.halfAt .det (8 * j + t))) k

/-- The decisions of the first `n` frames leave FRAME_IDX and FRAME_BIT, and nothing else. -/
theorem classifyLoop (s : State) (n : Nat) :
    ∃ fi fb, forUpTo classifyFrame n s = s.setRegs { s.regs with frameIdx := fi, frameBit := fb } ∧
      (0 < n → fi = BitVec.ofNat 32 (n - 1) ∧ fb = bitWord (detectedBit s (n - 1))) ∧
      (n = 0 → fi = s.regs.frameIdx ∧ fb = s.regs.frameBit) := by
  induction n with
  | zero => exact ⟨s.regs.frameIdx, s.regs.frameBit, rfl, by simp, by simp⟩
  | succ n ih =>
    obtain ⟨fi, fb, h, -⟩ := ih
    refine ⟨BitVec.ofNat 32 n, bitWord (detectedBit s n), ?_, by simp, by simp⟩
    rw [forUpTo, h]
    rfl

/-- Bytes with equal bits are equal. -/
theorem byte_eq_of_bits {a b : Byte} (h : ∀ k : Fin 8, a.getLsbD k = b.getLsbD k) : a = b :=
  BitVec.eq_of_getLsbD_eq fun k hk => h ⟨k, hk⟩

/-- The model's loop is the pseudocode's: same registers, same host side, same element everywhere (R220 to R223). -/
theorem packing_agrees (s : State) (hF : s.regs.frames ≤ 1024) :
    let literal := forUpTo classifyAndPack s.regs.frames s
    let model := packDecisions (2 * (s.regs.frames / 16)) (forUpTo classifyFrame s.regs.frames s)
    literal.regs = model.regs ∧ SameHost literal model ∧
      (∀ sp i, literal.byteAt sp i = model.byteAt sp i) ∧ ∀ sp i, literal.halfAt sp i = model.halfAt sp i := by
  obtain ⟨⟨fi, fb, r, r1, r0⟩, hh, hv, hb, he, hbey, -⟩ := decodeLoop s hF
  obtain ⟨fi', fb', e, e1, e0⟩ := classifyLoop s s.regs.frames
  intro literal model
  have hm : model = (s.setRegs { s.regs with frameIdx := fi', frameBit := fb' }).storeBytes .ecc 0
      ((List.range (2 * (s.regs.frames / 16))).map (packedByte s)) := by
    show packDecisions _ _ = _
    rw [e]; rfl
  have same : fi = fi' ∧ fb = fb' := by
    rcases Nat.eq_zero_or_pos s.regs.frames with z | z
    · exact ⟨(r0 z).1.trans (e0 z).1.symm, (r0 z).2.trans (e0 z).2.symm⟩
    · exact ⟨(r1 z).1.trans (e1 z).1.symm, (r1 z).2.trans (e1 z).2.symm⟩
  refine ⟨?_, ?_, fun sp i => ?_, fun sp i => ?_⟩
  · rw [hm, r, same.1, same.2]; rfl
  · rw [hm]; exact ⟨hh.1.symm, hh.2.1.symm, hh.2.2.symm⟩
  · rw [hm, State.byteAt_storeBytes_map]
    by_cases hs : sp = .ecc
    · subst hs
      by_cases hi : i < 2 * (s.regs.frames / 16)
      · rw [if_pos ⟨rfl, by omega, by omega⟩]
        refine byte_eq_of_bits fun k => ?_
        rw [he, Nat.sub_zero, getLsbD_packedByte, if_pos (by omega)]
      · rw [if_neg (by omega)]
        exact hbey i (by omega)
    · rw [if_neg (fun h => hs h.1)]
      exact hb sp i hs
  · rw [hm]; simpa using hv sp i

/-- The state DECODE corrects: all frames packed, the lengths and STATE set (R220). -/
def decodeStart (s : State) : State :=
  let t := forUpTo classifyFrame s.regs.frames (s.setState .classifying)
  beginCorrection (t.regs.frames / 16) (packDecisions (2 * (t.regs.frames / 16)) t)

/-- What decodeStart holds: registers, the packed bytes, everything else as before (R220, R222, R227). -/
structure AfterPacking (s t : State) : Prop where
  regs : ∃ fb, t.regs = { s.regs with
      frameIdx := s.regs.payloadFrames
      frameBit := fb
      eccLen := BitVec.ofNat 32 (2 * (s.regs.frames / 16))
      state := .correcting } ∧
    (0 < s.regs.frames → fb = bitWord (detectedBit s (s.regs.frames - 1))) ∧
    (s.regs.frames = 0 → fb = s.regs.frameBit)
  host : SameHost s t
  halves : ∀ sp i, t.halfAt sp i = s.halfAt sp i
  bytes : ∀ sp i, sp ≠ .ecc → t.byteAt sp i = s.byteAt sp i
  ecc : ∀ j (k : Fin 8), j < 2 * (s.regs.frames / 16) →
    (t.byteAt .ecc j).getLsbD k = detectedBit s (8 * j + (7 - k))
  beyond : ∀ j, 2 * (s.regs.frames / 16) ≤ j → t.byteAt .ecc j = s.byteAt .ecc j
  wf : s.mem.wf = true → t.mem.wf = true

theorem decodeStart_spec (s : State) (hF : s.regs.frames ≤ 1024) : AfterPacking s (decodeStart s) := by
  obtain ⟨fi, fb, e, e1, e0⟩ := classifyLoop (s.setState .classifying) s.regs.frames
  have hd : decodeStart s = beginCorrection (s.regs.frames / 16)
      (((s.setState .classifying).setRegs
          { (s.setState .classifying).regs with frameIdx := fi, frameBit := fb }).storeBytes .ecc 0 ((List.range (2 * (s.regs.frames / 16))).map (packedByte s))) := by
    unfold decodeStart
    rw [e]; rfl
  have hread : ∀ sp i, (decodeStart s).byteAt sp i =
      if sp = .ecc ∧ 0 ≤ i ∧ i < 0 + 2 * (s.regs.frames / 16) then packedByte s (i - 0) else s.byteAt sp i := by
    intro sp i
    rw [hd]
    exact State.byteAt_storeBytes_map ((s.setState .classifying).setRegs _) .ecc sp 0
      (2 * (s.regs.frames / 16)) i (packedByte s)
  refine ⟨⟨fb, by rw [hd]; rfl, fun h => (e1 h).2, fun h => (e0 h).2⟩, by rw [hd]; exact ⟨rfl, rfl, rfl⟩,
    ?_, ?_, ?_, ?_, ?_⟩
  · intro sp i; rw [hd]; rfl
  · intro sp i hsp; rw [hread, if_neg (by simp [hsp])]
  · intro j k hj
    rw [hread, if_pos ⟨rfl, by omega, by omega⟩]
    exact getLsbD_packedByte s j k
  · intro j hj
    rw [hread, if_neg (by omega)]
  · intro hw
    rw [hd]
    refine State.wf_storeBytes hw ?_
    simp only [List.length_map, List.length_range, ByteSpace.size, Config.maxEcc]; omega

/-- DECODE is packing, then ecc_correct, then the end it shares with CORRECT (R220). -/
theorem decodeFrames_eq (s : State) (_hF : s.regs.frames ≤ 1024) :
    decodeFrames s = finishCorrection (s.regs.frames / 16) (eccCorrect (s.regs.frames / 16) (decodeStart s)) := by
  obtain ⟨fi, fb, e, -, -⟩ := classifyLoop (s.setState .classifying) s.regs.frames
  have lfr : (forUpTo classifyFrame s.regs.frames (s.setState .classifying)).regs.frames = s.regs.frames := by
    rw [e]; rfl
  unfold decodeFrames decodeStart
  simp only [lfr]

end Sys2Proof.Machine
end

