-- ==== Sys2Proof/Laws/Spectrum.lean ====
section
/-! SUPPORT. What generate_spectrum does (spec R141, R142). -/

namespace Sys2Proof.Machine

theorem Regs.geometryFits_iff (r : Regs) : r.geometryFits = true ↔ r.frames ≤ 1024 ∧ r.samples ≤ 1024 := by
  rw [Regs.geometryFits, Bool.and_eq_true, decide_eq_true_eq, decide_eq_true_eq]; rfl

@[simp] theorem length_specRow (n tone : Nat) : (specRow n tone).length = n / 2 := by simp [specRow]

@[simp] theorem writeSpecRows_regs (i : Nat) (s : State) : (writeSpecRows i s).regs = s.regs := rfl
@[simp] theorem writeSpecRows_byteAt (i : Nat) (s : State) (sp : ByteSpace) (j : Nat) :
    (writeSpecRows i s).byteAt sp j = s.byteAt sp j := by simp [writeSpecRows]

/-- The value generate_spectrum leaves in an element: the row's coefficient for rows below `rows` and columns below
N/2 of the two tables, the old element elsewhere (R141). -/
def spectrumElement (s : State) (rows : Nat) (sp : HalfSpace) (j : Nat) : Half :=
  if j / 512 < rows ∧ j % 512 < s.regs.samples / 2 then
    match sp with
    | .specLo => if j % 512 = toneLo s.regs.baseBin (j / 512) then 0x8000#16 else 0#16
    | .specHi => if j % 512 = toneHi s.regs.baseBin (j / 512) then 0x8000#16 else 0#16
    | _ => s.halfAt sp j
  else s.halfAt sp j

theorem writeSpecRows_halfAt (i : Nat) (s : State) (hN : s.regs.samples ≤ 1024) (sp : HalfSpace) (j : Nat) :
    (writeSpecRows i s).halfAt sp j =
      if j / 512 = i ∧ j % 512 < s.regs.samples / 2 then
        match sp with
        | .specLo => if j % 512 = toneLo s.regs.baseBin i then 0x8000#16 else 0#16
        | .specHi => if j % 512 = toneHi s.regs.baseBin i then 0x8000#16 else 0#16
        | _ => s.halfAt sp j
      else s.halfAt sp j := by
  have range : (specIndex i 0 ≤ j ∧ j < specIndex i 0 + s.regs.samples / 2) ↔
      (j / 512 = i ∧ j % 512 < s.regs.samples / 2) := by
    simp only [specIndex, Config.specStride]; omega
  by_cases h : j / 512 = i ∧ j % 512 < s.regs.samples / 2
  · have hr := range.mpr h
    have hoff : j - specIndex i 0 = j % 512 := by
      simp only [specIndex, Config.specStride] at hr ⊢; omega
    cases sp <;> simp [writeSpecRows, specRow, State.halfAt_storeHalves_map, hr, hoff, h]
  · have hr : ¬ (specIndex i 0 ≤ j ∧ j < specIndex i 0 + s.regs.samples / 2) := fun x => h (range.mp x)
    simp [writeSpecRows, specRow, State.halfAt_storeHalves_map, hr, h]

/-- The table loop after `n` rows. -/
theorem specLoop (s : State) (hN : s.regs.samples ≤ 1024) (n : Nat) :
    (forUpTo writeSpecRows n s).regs = s.regs ∧
    (forUpTo writeSpecRows n s).pending = s.pending ∧
    (forUpTo writeSpecRows n s).response = s.response ∧
    (forUpTo writeSpecRows n s).freeCount = s.freeCount ∧
    (∀ sp j, (forUpTo writeSpecRows n s).byteAt sp j = s.byteAt sp j) ∧
    ∀ sp j, (forUpTo writeSpecRows n s).halfAt sp j = spectrumElement s n sp j := by
  induction n with
  | zero => simp [spectrumElement]
  | succ n ih =>
    obtain ⟨hr, hp, ha, hf, hb, hh⟩ := ih
    refine ⟨hr, hp, ha, hf, fun sp j => by simp [hb], fun sp j => ?_⟩
    rw [forUpTo_succ, writeSpecRows_halfAt _ _ (by rw [hr]; exact hN), hr, hh]
    unfold spectrumElement
    by_cases hc : j % 512 < s.regs.samples / 2
    · rcases Nat.lt_trichotomy (j / 512) n with h | h | h
      · simp [hc, h, Nat.ne_of_lt h, Nat.lt_succ_of_lt h]
      · simp only [h, hc, Nat.lt_succ_self, and_self, if_true, Nat.lt_irrefl, false_and, if_false]
      · have h1 : ¬ j / 512 < n := by omega
        have h2 : ¬ j / 512 < n + 1 := by omega
        have h3 : ¬ j / 512 = n := by omega
        simp [h1, h2, h3]
    · simp [hc]

theorem generateSpectrum_regs (s : State) (hN : s.regs.samples ≤ 1024) :
    (generateSpectrum s).regs = { s.regs with specValid := true, state := .spectrumReady } := by
  simp [generateSpectrum, (specLoop s hN _).1]

theorem generateSpectrum_host (s : State) (hN : s.regs.samples ≤ 1024) : SameHost s (generateSpectrum s) := by
  obtain ⟨-, hp, ha, hf, -⟩ := specLoop s hN s.regs.frames
  exact ⟨hp, ha, hf⟩

theorem generateSpectrum_byteAt (s : State) (hN : s.regs.samples ≤ 1024) (sp : ByteSpace) (j : Nat) :
    (generateSpectrum s).byteAt sp j = s.byteAt sp j := by
  simpa [generateSpectrum] using (specLoop s hN s.regs.frames).2.2.2.2.1 sp j

/-- Every 16-bit element after generate_spectrum (R141). -/
theorem generateSpectrum_halfAt (s : State) (hN : s.regs.samples ≤ 1024) (sp : HalfSpace) (j : Nat) :
    (generateSpectrum s).halfAt sp j = spectrumElement s s.regs.frames sp j := by
  simpa [generateSpectrum] using (specLoop s hN s.regs.frames).2.2.2.2.2 sp j

/-- The memories other than the two tables are untouched. -/
theorem generateSpectrum_halfAt_other (s : State) (hN : s.regs.samples ≤ 1024) {sp : HalfSpace}
    (h1 : sp ≠ .specLo) (h2 : sp ≠ .specHi) (j : Nat) : (generateSpectrum s).halfAt sp j = s.halfAt sp j := by
  rw [generateSpectrum_halfAt s hN]
  cases sp <;> simp_all [spectrumElement]

/-- generate_spectrum leaves the tables of the geometry (R141, R24). -/
theorem generateSpectrum_tables (s : State) (hN : s.regs.samples ≤ 1024) : TablesHold (generateSpectrum s) := by
  intro i b hi hb
  have hr := generateSpectrum_regs s hN
  simp only [Regs.frames, Regs.samples, Regs.baseBin, hr] at hi hb ⊢
  have hN' : s.regs.samplesPerFrame.toNat ≤ 1024 := hN
  have e1 : specIndex i b / 512 = i := by simp only [specIndex, Config.specStride]; omega
  have e2 : specIndex i b % 512 = b := by simp only [specIndex, Config.specStride]; omega
  rw [generateSpectrum_halfAt s hN, generateSpectrum_halfAt s hN]
  simp only [spectrumElement, e1, e2, Regs.frames, Regs.samples, Regs.baseBin, hi, hb, and_self, if_true]

theorem generateSpectrum_wf (s : State) (hfit : s.regs.geometryFits = true) (hm : s.mem.wf = true) :
    (generateSpectrum s).mem.wf = true := by
  obtain ⟨hF, hN⟩ := s.regs.geometryFits_iff.mp hfit
  have : (forUpTo writeSpecRows s.regs.frames s).regs.samples = s.regs.samples ∧
      (forUpTo writeSpecRows s.regs.frames s).mem.wf = true := by
    refine forUpTo_induction (fun _ (t : State) => t.regs.samples = s.regs.samples ∧ t.mem.wf = true) ⟨rfl, hm⟩ ?_
    rintro i t hi ⟨hr, hw⟩
    refine ⟨hr, State.wf_storeHalves (State.wf_storeHalves hw ?_) ?_⟩ <;>
    · simp only [length_specRow, specIndex, Config.specStride, HalfSpace.size, Config.maxFrames, hr]
      omega
  exact this.2

end Sys2Proof.Machine
end

