-- ==== Sys2Proof/Laws/Modulator.lean ====
section
/-! SUPPORT. The transform and the fades on single samples, and what GEN_PCM's procedures and frame loop do (spec
R160 to R168). -/

namespace Sys2Proof.Machine

/-! ### Single samples -/

theorem sineRows_bound : ∀ row ∈ sineRows, ∀ v ∈ row, v ≤ 32767 := by decide

theorem sineQuarter_le (m : Nat) : sineQuarter m ≤ 32767 := by
  unfold sineQuarter
  rw [List.getD_eq_getElem?_getD, List.getD_eq_getElem?_getD]
  cases hr : sineRows[m / 8]? with
  | none => simp
  | some row =>
    have hrow := List.mem_of_getElem? hr
    cases hv : row[m % 8]? with
    | none => simp [hv]
    | some v => simpa [hv] using sineRows_bound row hrow v (List.mem_of_getElem? hv)

/-- Every ROM entry lies in -32767..32767 (R145). -/
theorem sin1024_range (m : Nat) : -32767 ≤ sin1024 m ∧ sin1024 m ≤ 32767 := by
  have h : ∀ k, sineHalf k ≤ 32767 := by
    intro k; unfold sineHalf; split <;> exact sineQuarter_le _
  have h1 := h (m % Config.romLen)
  have h2 := h (m % Config.romLen - 512)
  simp only [sin1024]
  split <;> omega

/-- Coefficients that are all 0 contribute nothing. -/
theorem toneSum_zeros (samples n k m : Nat) : toneSum samples n k (List.replicate m 0#16) = 0 := by
  induction m generalizing k with
  | zero => rfl
  | succ m ih => simp [List.replicate_succ, toneSum, ih]

/-- A single coefficient 0x8000 at bin `tone` leaves one term of the sum (R162, derived clause). -/
theorem toneSum_oneHot (samples n tone : Nat) (len base : Nat) :
    toneSum samples n base ((List.range' base len).map (fun b => if b = tone then 0x8000#16 else 0#16)) =
      if base ≤ tone ∧ tone < base + len then
        32768 * sin1024 (((tone * n) % samples) * (Config.romLen / samples))
      else 0 := by
  induction len generalizing base with
  | zero => simp [toneSum]
  | succ len ih =>
    rw [List.range'_succ, List.map_cons, toneSum, ih (base + 1)]
    by_cases hb : base = tone
    · subst hb
      rw [if_pos rfl, if_neg (by omega), if_pos (by omega), Int.add_zero]
      rfl
    · rw [if_neg hb]
      by_cases h : base + 1 ≤ tone ∧ tone < base + 1 + len
      · rw [if_pos h, if_pos (by omega)]; simp
      · rw [if_neg h, if_neg (by omega)]; simp

/-- On a row that generate_spectrum writes, the transform is a table lookup (R162, derived clause). -/
theorem frameSample_specRow {samples tone n : Nat} (h : tone < samples / 2) :
    frameSample (specRow samples tone) samples n =
      halfOfInt (sin1024 (((tone * n) % samples) * (Config.romLen / samples))) := by
  have hs := sin1024_range (((tone * n) % samples) * (Config.romLen / samples))
  have hsum := toneSum_oneHot samples n tone (samples / 2) 0
  rw [if_pos ⟨Nat.zero_le _, by omega⟩] at hsum
  unfold frameSample specRow
  rw [List.range_eq_range', hsum, mul_comm, floorShift_full, sat16_of_range (by omega) (by omega)]

theorem fadeIn_le (n offset : Nat) : fadeIn n offset ≤ 32768 := by
  unfold fadeIn; split
  · exact Nat.le_refl _
  · rename_i h
    push Not at h
    exact Nat.div_le_of_le_mul (by nlinarith)

theorem fadeOut_le (samples n residue : Nat) : fadeOut samples n residue ≤ 32768 := by
  unfold fadeOut; split
  · exact Nat.le_refl _
  · rename_i h
    push Not at h
    have : samples - n ≤ residue := by omega
    exact Nat.div_le_of_le_mul (by nlinarith)

theorem fadeWeight_le (samples offset residue n : Nat) : fadeWeight samples offset residue n ≤ 32768 := by
  unfold fadeWeight
  exact Nat.div_le_of_le_mul (Nat.mul_le_mul (fadeIn_le _ _) (fadeOut_le _ _ _))

/-- The two floored products and why the clamp never acts (R163, derived clause). -/
theorem amplifySample_toInt {gain weight : Nat} (hg : gain ≤ 32768) (hw : weight ≤ 32768) (x : Half) :
    (amplifySample gain weight x).toInt = floorShift (floorShift (x.toInt * gain) 15 * weight) 15 ∧
    (0 ≤ x.toInt → 0 ≤ (amplifySample gain weight x).toInt ∧ (amplifySample gain weight x).toInt ≤ x.toInt) ∧
    (x.toInt ≤ 0 → x.toInt ≤ (amplifySample gain weight x).toInt ∧ (amplifySample gain weight x).toInt ≤ 0) := by
  have hx1 : -32768 ≤ x.toInt := by have := BitVec.le_toInt x; omega
  have hx2 : x.toInt ≤ 32767 := by have := BitVec.toInt_lt (x := x); omega
  obtain ⟨a1, a2⟩ := floorShift_weight (x := x.toInt) hg
  obtain ⟨b1, b2⟩ := floorShift_weight (x := floorShift (x.toInt * gain) 15) hw
  have range : -32768 ≤ floorShift (floorShift (x.toInt * gain) 15 * weight) 15 ∧
      floorShift (floorShift (x.toInt * gain) 15 * weight) 15 ≤ 32767 := by
    rcases le_total 0 x.toInt with h | h
    · have := a1 h; have := b1 this.1; omega
    · have := a2 h; have := b2 this.2; omega
  have e : (amplifySample gain weight x).toInt = floorShift (floorShift (x.toInt * gain) 15 * weight) 15 := by
    simp only [amplifySample]
    rw [sat16_of_range range.1 range.2, toInt_halfOfInt range.1 range.2]
  refine ⟨e, fun h => ?_, fun h => ?_⟩ <;> rw [e]
  · have := a1 h; have := b1 this.1; omega
  · have := a2 h; have := b2 this.2; omega

/-! ### The procedures -/

theorem frameBitOf_congr {s t : State} (hl : t.regs.eccLen = s.regs.eccLen)
    (hb : ∀ j, t.byteAt .ecc j = s.byteAt .ecc j) (i : Nat) : frameBitOf t i = frameBitOf s i := by
  simp [frameBitOf, hl, hb]

/-- The coefficients of a frame for a symbol (R162). -/
def coefficientsFor (s : State) (bit : Bool) (frame : Nat) : List Half :=
  (List.range (s.regs.samples / 2)).map
    (fun k => s.halfAt (if bit then .specHi else .specLo) (specIndex frame k))

theorem frameCoefficients_enterFrame (s : State) (i frame : Nat) (b : Bool) :
    frameCoefficients (s.enterFrame i b) frame = coefficientsFor s b frame := by
  cases b <;> rfl

/-- One output sample: sample n of frame i, after transform, gain and fades (R162, R163). -/
def outputSample (s : State) (i n : Nat) : Half :=
  amplifySample s.regs.gain (fadeWeight s.regs.samples (s.regs.samples / 8) (s.regs.samples / 8) n)
    (frameSample (coefficientsFor s (frameBitOf s i) i) s.regs.samples n)

/-- The frame loop after `n` frames, from a state with OUTF_LEN = 0. -/
structure AfterSynthesis (s : State) (n : Nat) (t : State) : Prop where
  regs : ∃ fi fb, t.regs = { s.regs with
      frameIdx := fi
      frameBit := fb
      outfLen := BitVec.ofNat 32 (n * s.regs.samples) } ∧
    (0 < n → fb = bitWord (frameBitOf s (n - 1))) ∧ (n = 0 → fi = s.regs.frameIdx ∧ fb = s.regs.frameBit)
  host : SameHost s t
  bytes : ∀ sp i, t.byteAt sp i = s.byteAt sp i
  halves : ∀ sp i, sp ≠ .cur → sp ≠ .outf → t.halfAt sp i = s.halfAt sp i
  cur : ∀ i, t.halfAt .cur i =
    if 0 < n ∧ i < s.regs.samples then outputSample s (n - 1) i else s.halfAt .cur i
  outf : ∀ i, t.halfAt .outf i =
    if i < n * s.regs.samples then outputSample s (i / s.regs.samples) (i % s.regs.samples) else s.halfAt .outf i
  wf : s.mem.wf = true → t.mem.wf = true

theorem AfterSynthesis.start {s : State} (h0 : s.regs.outfLen = 0#32) : AfterSynthesis s 0 s where
  regs := ⟨s.regs.frameIdx, s.regs.frameBit, by
    cases hs : s.regs; simp_all, by simp, by simp⟩
  host := ⟨rfl, rfl, rfl⟩
  bytes := fun _ _ => rfl
  halves := fun _ _ _ _ => rfl
  cur := by simp
  outf := by simp
  wf := id

/-- One frame: selection, transform, gain and fades into CUR, then the copy to OUTF. -/
theorem synthesiseFrame_eq (i : Nat) (t : State) :
    synthesiseFrame i t =
      appendFrame (((t.enterFrame i (frameBitOf t i)).storeHalves .cur 0
        ((List.range t.regs.samples).map (frameSample (coefficientsFor t (frameBitOf t i) i) t.regs.samples))).storeHalves
          .cur 0 ((List.range t.regs.samples).map (outputSample t i))) := by
  have hw : writeFrame i (t.enterFrame i (frameBitOf t i)) =
      (t.enterFrame i (frameBitOf t i)).storeHalves .cur 0 ((List.range t.regs.samples).map
        (frameSample (coefficientsFor t (frameBitOf t i) i) t.regs.samples)) := by
    unfold writeFrame; rw [frameCoefficients_enterFrame]; rfl
  unfold synthesiseFrame selectFrame
  rw [hw]
  unfold amplifySignal
  have hs : (t.enterFrame i (frameBitOf t i)).regs.samples = t.regs.samples := rfl
  have hg : (t.enterFrame i (frameBitOf t i)).regs.gain = t.regs.gain := rfl
  simp only [State.storeHalves_regs, hs, hg]
  refine congrArg appendFrame (congrArg _ (List.map_congr_left (fun n hn => ?_)))
  rw [State.halfAt_storeHalves_map, if_pos ⟨rfl, Nat.zero_le _, by simpa using List.mem_range.mp hn⟩, Nat.sub_zero]
  unfold outputSample
  rfl

theorem AfterSynthesis.round {s t : State} {i : Nat} (hfit : s.regs.geometryFits = true) (hi : i < s.regs.frames)
    (h : AfterSynthesis s i t) : AfterSynthesis s (i + 1) (synthesiseFrame i t) := by
  obtain ⟨hF, hN⟩ := s.regs.geometryFits_iff.mp hfit
  obtain ⟨⟨fi, fb, hregs, -, -⟩, hhost, hbytes, hhalves, hcur, houtf, hwf⟩ := h
  have hsamples : t.regs.samples = s.regs.samples := by simp [Regs.samples, hregs]
  have hgain : t.regs.gain = s.regs.gain := by simp [Regs.gain, hregs]
  have hbit : ∀ k, frameBitOf t k = frameBitOf s k := frameBitOf_congr (by simp [hregs]) (hbytes .ecc)
  have hcoef : ∀ b k, coefficientsFor t b k = coefficientsFor s b k := by
    intro b k
    unfold coefficientsFor
    rw [hsamples]
    refine List.map_congr_left (fun n _ => ?_)
    cases b <;> exact hhalves _ _ (by decide) (by decide)
  have hout : ∀ n, outputSample t i n = outputSample s i n := by
    intro n; unfold outputSample; rw [hsamples, hgain, hbit, hcoef]
  have hprod : i * s.regs.samples ≤ 1024 * 1024 := Nat.mul_le_mul (by omega) hN
  have hlen : t.regs.outfLen.toNat = i * s.regs.samples := by
    simp only [hregs]; rw [BitVec.toNat_ofNat]; exact Nat.mod_eq_of_lt (by omega)
  have hnext : (i + 1) * s.regs.samples = i * s.regs.samples + s.regs.samples := Nat.succ_mul _ _
  have hnext' : (i + 1) * s.regs.samples ≤ 1024 * 1024 := Nat.mul_le_mul (by omega) hN
  -- the state before append_frame
  generalize hu : ((t.enterFrame i (frameBitOf t i)).storeHalves .cur 0
        ((List.range t.regs.samples).map (frameSample (coefficientsFor t (frameBitOf t i) i) t.regs.samples))).storeHalves
          .cur 0 ((List.range t.regs.samples).map (outputSample t i)) = u
  have ur : u.regs = { s.regs with
      frameIdx := BitVec.ofNat 32 i
      frameBit := bitWord (frameBitOf s i)
      outfLen := BitVec.ofNat 32 (i * s.regs.samples) } := by subst hu; simp [hregs, hbit]
  have us : u.regs.samples = s.regs.samples := by simp [Regs.samples, ur]
  have ul : u.regs.outfLen.toNat = i * s.regs.samples := by rw [← hlen]; simp [ur, hregs]
  have uh : SameHost s u := by subst hu; exact hhost
  have ub : ∀ sp j, u.byteAt sp j = s.byteAt sp j := by intro sp j; subst hu; simpa using hbytes sp j
  have uc : ∀ sp j, u.halfAt sp j =
      if sp = .cur ∧ j < s.regs.samples then outputSample s i j else t.halfAt sp j := by
    intro sp j
    subst hu
    rw [State.halfAt_storeHalves_map, State.halfAt_storeHalves_map, hsamples]
    by_cases hc : sp = .cur ∧ j < s.regs.samples
    · rw [if_pos ⟨hc.1, Nat.zero_le _, by omega⟩, if_pos hc]
      simpa using hout j
    · rw [if_neg (fun x => hc ⟨x.1, by omega⟩), if_neg (fun x => hc ⟨x.1, by omega⟩), if_neg hc]
      simp
  have hstep : synthesiseFrame i t = appendFrame u := by rw [synthesiseFrame_eq, hu]
  have vh : ∀ sp j, (synthesiseFrame i t).halfAt sp j =
      if sp = .outf ∧ i * s.regs.samples ≤ j ∧ j < i * s.regs.samples + s.regs.samples
      then outputSample s i (j - i * s.regs.samples) else u.halfAt sp j := by
    intro sp j
    rw [hstep]
    simp only [appendFrame, State.halfAt_setRegs]
    rw [State.halfAt_storeHalves_map, us, ul]
    by_cases hc : sp = .outf ∧ i * s.regs.samples ≤ j ∧ j < i * s.regs.samples + s.regs.samples
    · rw [if_pos hc, if_pos hc, uc, if_pos ⟨rfl, by omega⟩]
    · rw [if_neg hc, if_neg hc]
  refine ⟨⟨BitVec.ofNat 32 i, bitWord (frameBitOf s i), ?_, by simp, by simp⟩, ?_, ?_, ?_, ?_, ?_, ?_⟩
  · rw [hstep]
    simp only [appendFrame, State.setRegs_regs, State.storeHalves_regs, ul, us, hnext]
    rw [ur]
  · rw [hstep]; exact uh
  · intro sp j; rw [hstep]; simpa [appendFrame] using ub sp j
  · intro sp j h1 h2
    rw [vh, if_neg (by simp [h2]), uc, if_neg (by simp [h1])]
    exact hhalves sp j h1 h2
  · intro j
    rw [vh, if_neg (by simp), uc]
    by_cases hc : j < s.regs.samples
    · simp [hc]
    · rw [if_neg (by simp [hc]), hcur, if_neg (by simp [hc]), if_neg (by simp [hc])]
  · intro j
    rw [vh, hnext]
    by_cases hc : i * s.regs.samples ≤ j ∧ j < i * s.regs.samples + s.regs.samples
    · have hpos : 0 < s.regs.samples := by omega
      have hq : j / s.regs.samples = i := by
        rw [Nat.div_eq_of_lt_le]
        · omega
        · rw [Nat.succ_mul]; omega
      have hm : j % s.regs.samples = j - i * s.regs.samples := by
        have := Nat.div_add_mod j s.regs.samples
        rw [hq, Nat.mul_comm] at this; omega
      rw [if_pos ⟨rfl, hc⟩, if_pos hc.2, hq, hm]
    · rw [if_neg (by simp only [true_and]; exact hc), uc, if_neg (by simp), houtf]
      exact if_congr (by omega) rfl rfl
  · intro hw
    rw [hstep]
    simp only [appendFrame, State.setRegs_mem]
    refine State.wf_storeHalves ?_ ?_
    · subst hu
      refine State.wf_storeHalves (State.wf_storeHalves (by simpa using hwf hw) ?_) ?_ <;>
      · simp only [List.length_map, List.length_range, HalfSpace.size, Config.maxSamples, hsamples]; omega
    · simp only [List.length_map, List.length_range, HalfSpace.size, Config.maxPcm, us, ul]; omega

/-- The whole loop. -/
theorem synthesisLoop (s : State) (hfit : s.regs.geometryFits = true) (h0 : s.regs.outfLen = 0#32) :
    AfterSynthesis s s.regs.frames (forUpTo synthesiseFrame s.regs.frames s) :=
  forUpTo_induction (AfterSynthesis s) (AfterSynthesis.start h0) (fun _ _ hi h => h.round hfit hi)

/-- PCM after copy_out; every other element is as before (R166). -/
theorem copyOut_halfAt (s : State) (sp : HalfSpace) (j : Nat) :
    (copyOut s).halfAt sp j = if sp = .pcm ∧ j < s.regs.outfLen.toNat then s.halfAt .outf j else s.halfAt sp j := by
  simp [copyOut, State.halfAt_storeHalves_map]

@[simp] theorem copyOut_byteAt (s : State) (sp : ByteSpace) (j : Nat) :
    (copyOut s).byteAt sp j = s.byteAt sp j := by simp [copyOut]

theorem copyOut_regs (s : State) : (copyOut s).regs = { s.regs with pcmLen := s.regs.outfLen } := rfl

theorem copyOut_wf {s : State} (hl : s.regs.outfLen.toNat ≤ 1048576) (hm : s.mem.wf = true) :
    (copyOut s).mem.wf = true :=
  State.wf_storeHalves hm (by
    simp only [List.length_map, List.length_range, HalfSpace.size, Config.maxPcm]; omega)

end Sys2Proof.Machine
end

