-- ==== Sys2Proof/Laws/Pcm.lean ====
section
/-! SUPPORT. What GEN_PCM does on a size that fits: the state before its frame loop, and everything generatePcm
leaves (spec R160 to R167). -/

namespace Sys2Proof.Machine

/-- The state GEN_PCM's frame loop starts from: payload encoded, tables there, no sample appended yet. -/
def pcmStart (size : Nat) (s : State) : State := beginFrames (ensureSpectrum (eccEncode size s))

theorem pcmStart_regs {size : Nat} {s : State} (hfit : s.regs.geometryFits = true) :
    (pcmStart size s).regs = { s.regs with
      eccLen := BitVec.ofNat 32 (2 * size)
      specValid := if s.regs.state = .idle then true else s.regs.specValid
      outfLen := 0#32
      state := .encodingFrameLoop } := by
  have hN : (eccEncode size s).regs.samples ≤ 1024 := (s.regs.geometryFits_iff.mp hfit).2
  unfold pcmStart beginFrames ensureSpectrum
  by_cases h : s.regs.state = .idle
  · rw [if_pos (by simpa [eccEncode_regs] using h), if_pos h]
    simp [generateSpectrum_regs _ hN, eccEncode_regs]
  · rw [if_neg (by simpa [eccEncode_regs] using h), if_neg h]
    simp [eccEncode_regs]

theorem pcmStart_host {size : Nat} {s : State} (hfit : s.regs.geometryFits = true) :
    SameHost s (pcmStart size s) := by
  have hN : (eccEncode size s).regs.samples ≤ 1024 := (s.regs.geometryFits_iff.mp hfit).2
  unfold pcmStart beginFrames ensureSpectrum
  split
  · exact generateSpectrum_host (eccEncode size s) hN
  · exact ⟨rfl, rfl, rfl⟩

theorem pcmStart_byteAt {size : Nat} {s : State} (hfit : s.regs.geometryFits = true) (sp : ByteSpace) (j : Nat) :
    (pcmStart size s).byteAt sp j = if sp = .ecc ∧ j < 2 * size then encodedBlock s j else s.byteAt sp j := by
  have hN : (eccEncode size s).regs.samples ≤ 1024 := (s.regs.geometryFits_iff.mp hfit).2
  rw [← eccEncode_byteAt]
  unfold pcmStart beginFrames ensureSpectrum
  split
  · exact generateSpectrum_byteAt (eccEncode size s) hN sp j
  · rfl

/-- The tables are written exactly when STATE was Idle (R160 step 2). -/
theorem pcmStart_halfAt {size : Nat} {s : State} (hfit : s.regs.geometryFits = true) (sp : HalfSpace) (j : Nat) :
    (pcmStart size s).halfAt sp j =
      if s.regs.state = .idle then spectrumElement s s.regs.frames sp j else s.halfAt sp j := by
  have hN : (eccEncode size s).regs.samples ≤ 1024 := (s.regs.geometryFits_iff.mp hfit).2
  unfold pcmStart beginFrames ensureSpectrum
  by_cases h : s.regs.state = .idle
  · rw [if_pos (by simpa [eccEncode_regs] using h), if_pos h, State.halfAt_setRegs, generateSpectrum_halfAt _ hN]
    have e : (eccEncode size s).halfAt = s.halfAt := by funext sp j; simp
    unfold spectrumElement
    rw [e]; rfl
  · rw [if_neg (by simpa [eccEncode_regs] using h), if_neg h]
    simp

theorem pcmStart_wf {size : Nat} {s : State} (hfit : s.regs.geometryFits = true) (hsize : size ≤ 64)
    (hm : s.mem.wf = true) : (pcmStart size s).mem.wf = true := by
  unfold pcmStart beginFrames ensureSpectrum
  split
  · exact generateSpectrum_wf (eccEncode size s) hfit (eccEncode_wf hsize hm)
  · exact eccEncode_wf hsize hm

/-- The tables are there when the frame loop starts, whichever way they came (R160 step 2, R141). -/
theorem pcmStart_tables {size : Nat} {s : State} (hfit : s.regs.geometryFits = true)
    (h : s.regs.state ≠ .idle → TablesHold s) : TablesHold (pcmStart size s) := by
  have hr := pcmStart_regs (size := size) hfit
  intro i b hi hb
  simp only [Regs.frames, Regs.samples, Regs.baseBin, hr] at hi hb ⊢
  rw [pcmStart_halfAt hfit, pcmStart_halfAt hfit]
  by_cases hs : s.regs.state = .idle
  · have hN := (s.regs.geometryFits_iff.mp hfit).2
    have g := generateSpectrum_tables s hN i b
    simp only [generateSpectrum_regs s hN, Regs.frames, Regs.samples, Regs.baseBin,
      generateSpectrum_halfAt s hN] at g
    rw [if_pos hs, if_pos hs]
    exact g hi hb
  · rw [if_neg hs, if_neg hs]
    exact h hs i b hi hb

/-- The frame loop of GEN_PCM, from pcmStart. -/
theorem pcmLoop {size : Nat} {s : State} (hfit : s.regs.geometryFits = true) :
    AfterSynthesis (pcmStart size s) s.regs.frames (forUpTo synthesiseFrame s.regs.frames (pcmStart size s)) := by
  have hr := pcmStart_regs (size := size) hfit
  have hF : (pcmStart size s).regs.frames = s.regs.frames := by simp [Regs.frames, hr]
  have hfit' : (pcmStart size s).regs.geometryFits = true := by
    rw [Regs.geometryFits_iff] at hfit ⊢
    simpa only [Regs.frames, Regs.samples, hr] using hfit
  have := synthesisLoop (pcmStart size s) hfit' (by rw [hr])
  rwa [hF] at this

theorem generatePcm_eq (size : Nat) (s : State) :
    generatePcm size s =
      (let t := pcmStart size s
       let u := copyOut (endFrames (forUpTo synthesiseFrame t.regs.frames t))
       u.setRegs { u.regs with result := u.regs.pcmLen, state := .finalized }) := rfl

/-- Everything GEN_PCM leaves, in terms of the state its frame loop starts from. -/
structure AfterPcm (size : Nat) (s t : State) : Prop where
  regs : ∃ fb, t.regs = { s.regs with
      eccLen := BitVec.ofNat 32 (2 * size)
      specValid := if s.regs.state = .idle then true else s.regs.specValid
      outfLen := BitVec.ofNat 32 (s.regs.frames * s.regs.samples)
      pcmLen := BitVec.ofNat 32 (s.regs.frames * s.regs.samples)
      frameIdx := s.regs.payloadFrames
      frameBit := fb
      result := BitVec.ofNat 32 (s.regs.frames * s.regs.samples)
      state := .finalized } ∧
    (0 < s.regs.frames → fb = bitWord (frameBitOf (pcmStart size s) (s.regs.frames - 1))) ∧
    (s.regs.frames = 0 → fb = s.regs.frameBit)
  host : SameHost s t
  bytes : ∀ sp j, t.byteAt sp j = (pcmStart size s).byteAt sp j
  halves : ∀ sp j, sp ≠ .cur → sp ≠ .outf → sp ≠ .pcm → t.halfAt sp j = (pcmStart size s).halfAt sp j
  cur : ∀ j, t.halfAt .cur j =
    if 0 < s.regs.frames ∧ j < s.regs.samples then outputSample (pcmStart size s) (s.regs.frames - 1) j
    else s.halfAt .cur j
  output : ∀ sp j, sp = .outf ∨ sp = .pcm → t.halfAt sp j =
    if j < s.regs.frames * s.regs.samples
    then outputSample (pcmStart size s) (j / s.regs.samples) (j % s.regs.samples) else s.halfAt sp j
  wf : size ≤ 64 → s.mem.wf = true → t.mem.wf = true

theorem generatePcm_spec (size : Nat) {s : State} (hfit : s.regs.geometryFits = true) :
    AfterPcm size s (generatePcm size s) := by
  obtain ⟨hF, hN⟩ := s.regs.geometryFits_iff.mp hfit
  have hr := pcmStart_regs (size := size) hfit
  have hframes : (pcmStart size s).regs.frames = s.regs.frames := by simp [Regs.frames, hr]
  have hsamples : (pcmStart size s).regs.samples = s.regs.samples := by simp [Regs.samples, hr]
  have hh := pcmStart_host (size := size) hfit
  have hhalf := pcmStart_halfAt (size := size) hfit
  obtain ⟨⟨fi, fb, lregs, lbit, lzero⟩, lhost, lbytes, lhalves, lcur, loutf, lwf⟩ := pcmLoop (size := size) hfit
  have hprod : s.regs.frames * s.regs.samples ≤ 1048576 :=
    le_trans (Nat.mul_le_mul hF hN) (by norm_num)
  have hother : ∀ sp j, sp = .cur ∨ sp = .outf ∨ sp = .pcm → (pcmStart size s).halfAt sp j = s.halfAt sp j := by
    intro sp j hsp
    rw [hhalf]
    split
    · rcases hsp with rfl | rfl | rfl <;> simp [spectrumElement]
    · rfl
  rw [generatePcm_eq]
  simp only [hframes]
  generalize hl : forUpTo synthesiseFrame s.regs.frames (pcmStart size s) = l at lregs lhost lbytes lhalves lcur loutf lwf
  have llen : (endFrames l).regs.outfLen = BitVec.ofNat 32 (s.regs.frames * s.regs.samples) := by
    simp [endFrames, lregs, hsamples]
  have llen' : (endFrames l).regs.outfLen.toNat = s.regs.frames * s.regs.samples := by
    rw [llen, BitVec.toNat_ofNat]; exact Nat.mod_eq_of_lt (by omega)
  have eh : ∀ sp j, (endFrames l).halfAt sp j = l.halfAt sp j := fun _ _ => rfl
  refine ⟨⟨fb, ?_, lbit, fun h => ?_⟩, ?_, ?_, ?_, ?_, ?_, ?_⟩
  · simp only [State.setRegs_regs, copyOut_regs, llen]
    simp [endFrames, lregs, hr]
  · rw [(lzero h).2, hr]
  · exact ⟨lhost.1.trans hh.1, lhost.2.1.trans hh.2.1, lhost.2.2.trans hh.2.2⟩
  · intro sp j
    simp only [State.byteAt_setRegs, copyOut_byteAt]
    exact lbytes sp j
  · intro sp j h1 h2 h3
    rw [State.halfAt_setRegs, copyOut_halfAt, if_neg (by simp [h3]), eh]
    exact lhalves sp j h1 h2
  · intro j
    rw [State.halfAt_setRegs, copyOut_halfAt, if_neg (by simp), eh, lcur, hsamples, hother _ _ (by simp)]
  · intro sp j hsp
    rw [State.halfAt_setRegs, copyOut_halfAt, llen', eh, eh]
    rcases hsp with rfl | rfl
    · rw [if_neg (by simp), loutf, hsamples, hother _ _ (by simp)]
    · rw [loutf, hsamples]
      by_cases hj : j < s.regs.frames * s.regs.samples
      · rw [if_pos ⟨rfl, hj⟩, if_pos hj, if_pos hj]
      · rw [if_neg (by simp [hj]), if_neg hj, lhalves _ _ (by simp) (by simp), hother _ _ (by simp)]
  · intro hsize hm
    exact copyOut_wf (by rw [llen']; exact hprod) (lwf (pcmStart_wf hfit hsize hm))

/-! ### The samples in closed form -/

/-- What a geometry CONFIGURE accepts gives in numbers (R122). -/
theorem Regs.legal_of_cfgOk {r : Regs} (h : r.cfgOk = true) :
    1 ≤ r.frames ∧ r.frames ≤ 1024 ∧ 16 ≤ r.samples ∧ r.samples ≤ 1024 ∧ 1 ≤ r.baseBin ∧
      r.baseBin + 3 ≤ r.samples / 2 - 1 ∧ r.gain ≤ 32768 := by
  simp only [Regs.cfgOk, Bool.and_eq_true, decide_eq_true_eq] at h
  obtain ⟨⟨⟨⟨⟨⟨h1, h2⟩, -⟩, h3⟩, h4⟩, h5⟩, h6⟩ := h
  have h3' : r.samples ∈ legalSamples := by simpa using h3
  have : 16 ≤ r.samples ∧ r.samples ≤ 1024 := by
    simp only [legalSamples, List.mem_cons, List.not_mem_nil, or_false] at h3'
    omega
  exact ⟨h1, h2, this.1, this.2, h4, h5, h6⟩

theorem Regs.fits_of_cfgOk {r : Regs} (h : r.cfgOk = true) : r.geometryFits = true := by
  have := r.legal_of_cfgOk h
  exact r.geometryFits_iff.mpr ⟨by omega, by omega⟩

/-- With offset = residue = N/8 the two weights never act together (R164). -/
theorem fadeWeight_eighths {samples n : Nat} (hN : 16 ≤ samples) (hn : n < samples) :
    fadeWeight samples (samples / 8) (samples / 8) n =
      if n < samples / 8 then 32768 * n / (samples / 8)
      else if samples ≤ n + samples / 8 then 32768 * (samples - n) / (samples / 8)
      else 32768 := by
  have hpos : samples / 8 ≠ 0 := by omega
  unfold fadeWeight fadeIn fadeOut
  by_cases h1 : n < samples / 8
  · rw [if_neg (by omega), if_pos (by omega), if_pos h1]
    exact Nat.mul_div_cancel _ (by norm_num)
  · rw [if_pos (by omega), if_neg h1]
    by_cases h2 : samples ≤ n + samples / 8
    · rw [if_neg (by omega), if_pos h2]
      exact Nat.mul_div_cancel_left _ (by norm_num)
    · rw [if_pos (by omega), if_neg h2]

/-- The coefficients of a frame, where the tables hold the geometry's spectra, are the row of its bin. -/
theorem coefficientsFor_tables {t : State} (ht : TablesHold t) (bit : Bool) {i : Nat} (hi : i < t.regs.frames) :
    coefficientsFor t bit i = specRow t.regs.samples (soundedBin t.regs bit i) := by
  unfold coefficientsFor specRow
  refine List.map_congr_left (fun k hk => ?_)
  obtain ⟨lo, hi'⟩ := ht i k hi (List.mem_range.mp hk)
  cases bit
  · exact lo
  · exact hi'

theorem soundedBin_lt {r : Regs} (h : r.cfgOk = true) (bit : Bool) (i : Nat) : soundedBin r bit i < r.samples / 2 := by
  have := r.legal_of_cfgOk h
  have hb : bit.toNat ≤ 1 := by cases bit <;> simp
  unfold soundedBin; omega

/-- One output sample where the tables hold the geometry's spectra (R162, R163). -/
theorem outputSample_tables {t : State} (hc : t.regs.cfgOk = true) (ht : TablesHold t) {i n : Nat}
    (hi : i < t.regs.frames) (hn : n < t.regs.samples) :
    (outputSample t i n).toInt = soundedSample t.regs (soundedBin t.regs (frameBitOf t i) i) n := by
  have legal := t.regs.legal_of_cfgOk hc
  have hs := sin1024_range (((soundedBin t.regs (frameBitOf t i) i * n) % t.regs.samples) *
    (Config.romLen / t.regs.samples))
  unfold outputSample
  rw [coefficientsFor_tables ht _ hi, frameSample_specRow (soundedBin_lt hc _ i),
    (amplifySample_toInt (by omega) (fadeWeight_le _ _ _ _) _).1, toInt_halfOfInt (by omega) (by omega),
    fadeWeight_eighths (by omega) hn]
  unfold soundedSample floorShift
  rfl

/-- The bit of frame i as GEN_PCM selects it is the bit the payload puts there (R161, R195). -/
theorem frameBitOf_pcmStart {size : Nat} {s : State} (hfit : s.regs.geometryFits = true) (hsize : size ≤ 64)
    (i : Nat) : frameBitOf (pcmStart size s) i = sentBit s size i := by
  have hl : (pcmStart size s).regs.eccLen.toNat = 2 * size := by
    rw [pcmStart_regs hfit]
    simp only [BitVec.toNat_ofNat]
    exact Nat.mod_eq_of_lt (by omega)
  unfold frameBitOf sentBit
  rw [hl]
  by_cases h : i < 16 * size
  · have h1 : i / 8 / 2 = i / 16 := by omega
    rw [if_pos (by omega), if_pos h, pcmStart_byteAt hfit, if_pos ⟨rfl, by omega⟩, encodedBlock, h1]
    rfl
  · rw [if_neg (by omega), if_neg h]

end Sys2Proof.Machine
end

