-- ==== Sys2Proof/Laws/Commands.lean ====
section
/-! SUPPORT. Everything each command can do, said once: the sequence check, and for every command's rule the cases
it ends in (spec R105, R106 and the rule of each command). -/

namespace Sys2Proof.Machine

theorem State.sequenced_legal {s : State} {legal : Bool} {rule : Host.Outcome State Fault Refusal}
    (h : legal = true) : s.sequenced legal rule = rule := by simp [State.sequenced, h]

theorem State.sequenced_illegal {s : State} {legal : Bool} {rule : Host.Outcome State Fault Refusal}
    (h : legal = false) : s.sequenced legal rule = .next (s.reject .illegalSequence) := by
  simp [State.sequenced, h]

/-- A command runs its rule in a legal state and is rejected in any other (R105, R106). -/
theorem State.sequenced_cases {s t : State} {legal : Bool} {rule : Host.Outcome State Fault Refusal}
    (h : s.sequenced legal rule = .next t) :
    (legal = true ∧ rule = .next t) ∨ (legal = false ∧ t = s.reject .illegalSequence) := by
  cases legal
  · rw [State.sequenced_illegal rfl] at h
    exact .inr ⟨rfl, (Host.Outcome.next.inj h).symm⟩
  · rw [State.sequenced_legal rfl] at h
    exact .inl ⟨rfl, h⟩

theorem constructed_iff (st : CoreState) : st.constructed = true ↔ st = .idle ∨ st = .spectrumReady := by
  cases st <;> simp [CoreState.constructed]

/-! ### The rules of the commands -/

theorem execNop_eq (imm : Nat) (s : State) : execNop imm s = .next s := State.sequenced_legal rfl

theorem execReset_eq (imm : Nat) (s : State) : execReset imm s = .next s.resetRegisters := State.sequenced_legal rfl

theorem runGenSpectrum_fits {s : State} (h : s.regs.geometryFits = true) :
    runGenSpectrum s =
      .next ((generateSpectrum s).setRegs
        { (generateSpectrum s).regs with result := (generateSpectrum s).regs.payloadFrames }) := by
  simp [runGenSpectrum, h]

theorem runGenSpectrum_cases {s t : State} (h : runGenSpectrum s = .next t) :
    s.regs.geometryFits = true ∧
    t = (generateSpectrum s).setRegs
      { (generateSpectrum s).regs with result := (generateSpectrum s).regs.payloadFrames } := by
  unfold runGenSpectrum at h
  split at h
  · exact ⟨‹_›, (Host.Outcome.next.inj h).symm⟩
  · cases h

theorem runEncode_fits {size : Nat} {s : State} (h1 : size ≤ s.regs.capacity) (h2 : size ≤ 64) :
    runEncode size s =
      .next ((eccEncode size s).setRegs
        { (eccEncode size s).regs with result := (eccEncode size s).regs.eccLen, state := .finalized }) := by
  unfold runEncode
  rw [if_neg (by omega), if_neg (by simp only [Config.maxMsg]; omega)]

theorem runEncode_cases {size : Nat} {s t : State} (h : runEncode size s = .next t) :
    (s.regs.capacity < size ∧ t = s.fail .payloadTooLarge) ∨
    (size ≤ s.regs.capacity ∧ size ≤ 64 ∧
      t = (eccEncode size s).setRegs
        { (eccEncode size s).regs with result := (eccEncode size s).regs.eccLen, state := .finalized }) := by
  unfold runEncode at h
  split at h
  · exact .inl ⟨‹_›, (Host.Outcome.next.inj h).symm⟩
  · split at h
    · cases h
    · rename_i h1 h2
      simp only [Config.maxMsg] at h2
      exact .inr ⟨by omega, by omega, (Host.Outcome.next.inj h).symm⟩

/-- The state CORRECT corrects (R198). -/
def correctStart (length : Nat) (s : State) : State :=
  s.setRegs { s.regs with state := .correcting, eccLen := BitVec.ofNat 32 length }

theorem runCorrect_fits {length : Nat} {s : State} (h1 : length ≤ 2 * s.regs.capacity) (h2 : length % 2 = 0)
    (h3 : length ≤ 128) :
    runCorrect length s =
      .next (finishCorrection (length / 2) (eccCorrect (length / 2) (correctStart length s))) := by
  unfold runCorrect
  rw [if_neg (by omega), if_neg (by omega), if_neg (by simp only [Config.maxEcc]; omega)]
  rfl

theorem runCorrect_cases {length : Nat} {s t : State} (h : runCorrect length s = .next t) :
    (2 * s.regs.capacity < length ∧ t = s.fail .payloadTooLarge) ∨
    (length ≤ 2 * s.regs.capacity ∧ length % 2 = 1 ∧ t = s.fail .malformedEccBlock) ∨
    (length ≤ 2 * s.regs.capacity ∧ length % 2 = 0 ∧ length ≤ 128 ∧
      t = finishCorrection (length / 2) (eccCorrect (length / 2) (correctStart length s))) := by
  unfold runCorrect at h
  split at h
  · exact .inl ⟨‹_›, (Host.Outcome.next.inj h).symm⟩
  · split at h
    · exact .inr (.inl ⟨by omega, ‹_›, (Host.Outcome.next.inj h).symm⟩)
    · split at h
      · cases h
      · rename_i h1 h2 h3
        simp only [Config.maxEcc] at h3
        exact .inr (.inr ⟨by omega, by omega, by omega, (Host.Outcome.next.inj h).symm⟩)

theorem runGenPcm_fits {size : Nat} {s : State} (h1 : size ≤ s.regs.capacity) (h2 : size ≤ 64)
    (h3 : s.regs.geometryFits = true) : runGenPcm size s = .next (generatePcm size s) := by
  unfold runGenPcm
  rw [if_neg (by omega), if_neg (by simp only [Config.maxMsg]; omega), if_pos h3]

theorem runGenPcm_cases {size : Nat} {s t : State} (h : runGenPcm size s = .next t) :
    (s.regs.capacity < size ∧ t = s.fail .payloadTooLarge) ∨
    (size ≤ s.regs.capacity ∧ size ≤ 64 ∧ s.regs.geometryFits = true ∧ t = generatePcm size s) := by
  unfold runGenPcm at h
  split at h
  · exact .inl ⟨‹_›, (Host.Outcome.next.inj h).symm⟩
  · split at h
    · cases h
    · split at h
      · rename_i h1 h2 h3
        simp only [Config.maxMsg] at h2
        exact .inr ⟨by omega, by omega, h3, (Host.Outcome.next.inj h).symm⟩
      · cases h

theorem runDecode_fits {s : State} (h : s.regs.frames ≤ 1024) :
    runDecode s.regs.frames s = .next (decodeFrames s) := by
  unfold runDecode
  rw [if_neg (by simp), if_neg (by simp only [Config.maxFrames]; omega)]

theorem runDecode_cases {total : Nat} {s t : State} (h : runDecode total s = .next t) :
    (total ≠ s.regs.frames ∧ t = s.fail .frameAlignmentMismatch) ∨
    (total = s.regs.frames ∧ s.regs.frames ≤ 1024 ∧ t = decodeFrames s) := by
  unfold runDecode at h
  split at h
  · exact .inl ⟨‹_›, (Host.Outcome.next.inj h).symm⟩
  · split at h
    · cases h
    · rename_i h1 h2
      simp only [Config.maxFrames] at h2
      exact .inr ⟨by omega, by omega, (Host.Outcome.next.inj h).symm⟩

end Sys2Proof.Machine
end

