-- ==== Sys2Proof/Laws/PerInstr.lean ====
section
/-! SUPPORT. What is said of every command, as syntax: the two fields of the word of a well-formed command (spec
30_encoding R100, R102). -/

namespace Sys2Proof.Laws

/-- The number a command word is: 256 × IMM + OP. -/
theorem toNat_encode {i : Instr} (h : i.wellFormed = true) : (encode i).toNat = i.imm * 256 + i.opcode.toNat := by
  have hi : i.imm ≤ 16777215 := of_decide_eq_true h
  have hop := i.opcode.isLt
  have e : (encode i).toNat = (BitVec.ofNat 24 i.imm).toNat <<< 8 ||| i.opcode.toNat := BitVec.toNat_append _ _
  rw [e, ← Nat.shiftLeft_add_eq_or_of_lt hop, BitVec.toNat_ofNat, Nat.shiftLeft_eq,
    Nat.mod_eq_of_lt (show i.imm < 2 ^ 24 by omega)]

/-- The operand field, as a number. -/
theorem immField_eq (c : Word) : immField c = c.toNat / 256 := by
  have := c.isLt
  rw [immField, BitVec.extractLsb'_toNat, Nat.shiftRight_eq_div_pow]
  omega

/-- The opcode field, as a number. -/
theorem toNat_opField (c : Word) : (opField c).toNat = c.toNat % 256 := by
  rw [opField, BitVec.extractLsb'_toNat, Nat.shiftRight_zero]

namespace EncodedFields

/-- The word of a well-formed command has the command's OP in bits 7:0 and its IMM in bits 31:8. -/
def Statement (i : Instr) : Prop :=
  i.wellFormed = true → opField (encode i) = i.opcode ∧ immField (encode i) = i.imm

theorem fields (i : Instr) : Statement i := by
  intro h
  have hw := toNat_encode h
  have hop := i.opcode.isLt
  constructor
  · refine BitVec.eq_of_toNat_eq ?_
    rw [toNat_opField, hw]; omega
  · rw [immField_eq, hw]; omega

theorem nop (imm : Nat) : Statement (.nop imm) := fields _
theorem configure (imm : Nat) : Statement (.configure imm) := fields _
theorem encode (imm : Nat) : Statement (.encode imm) := fields _
theorem correct (imm : Nat) : Statement (.correct imm) := fields _
theorem genSpectrum (imm : Nat) : Statement (.genSpectrum imm) := fields _
theorem genPcm (imm : Nat) : Statement (.genPcm imm) := fields _
theorem decode (imm : Nat) : Statement (.decode imm) := fields _
theorem reset (imm : Nat) : Statement (.reset imm) := fields _

end EncodedFields

end Sys2Proof.Laws
end

