-- ==== Sys2Proof/Laws/Step.lean ====
section
/-! SUPPORT. Everything one step can do, said once: the six things an event of the host can come to (spec R71, R80,
R105, R126, R270). -/

namespace Sys2Proof.Machine

theorem step_idle {s : State} (h : s.pending = []) : step s = .next s := by simp [step, h]

theorem step_event {s : State} {e : HostEvent} {rest : List HostEvent} (h : s.pending = e :: rest) :
    step s = handleEvent e (s.setPending rest) := by simp [step, h]

theorem step_cases {s t : State} (h : step s = .next t) :
    (s.pending = [] ∧ t = s) ∨
    ∃ e rest, s.pending = e :: rest ∧ handleEvent e (s.setPending rest) = .next t := by
  cases hp : s.pending with
  | nil => rw [step_idle hp] at h; exact .inl ⟨rfl, (Host.Outcome.next.inj h).symm⟩
  | cons e rest => rw [step_event hp] at h; exact .inr ⟨e, rest, rfl, h⟩

theorem issue_ok {c : Word} {i : Instr} (h : decode c = .ok i) (s : State) : issue c s = exec i s := by
  simp [issue, h]

theorem issue_cases {c : Word} {s t : State} (h : issue c s = .next t) :
    (∃ i, decode c = .ok i ∧ exec i s = .next t) ∨
    (∃ op, decode c = .error (.illegalCommand op) ∧ t = s.reject .illegalCommand) := by
  unfold issue at h
  split at h
  · rename_i i hd; exact .inl ⟨i, hd, h⟩
  · rename_i op hd; exact .inr ⟨op, hd, (Host.Outcome.next.inj h).symm⟩

/-- When an event executes a command (R105, R248). -/
theorem HostEvent.executes_iff {e : HostEvent} {st : CoreState} :
    e.executes st = true ↔ ∃ c i, (e = .write cmdAddr c ∨ e = .rstDuring cmdAddr c) ∧ decode c = .ok i ∧
      legalIn i st = true := by
  cases e with
  | read a => simp [executes]
  | rst => simp [executes]
  | write a w => cases hd : decode w <;> simp [executes, hd]
  | rstDuring a w => cases hd : decode w <;> simp [executes, hd]

theorem State.executing_idle {s : State} (h : s.pending = []) : s.executing = false := by simp [executing, h]

theorem State.executing_event {s : State} {e : HostEvent} {rest : List HostEvent} (h : s.pending = e :: rest) :
    s.executing = e.executes s.regs.state := by simp [executing, h]

/-- The six things an event can come to. -/
theorem handleEvent_cases {e : HostEvent} {s t : State} (h : handleEvent e s = .next t) :
    (∃ a, e = .read a ∧ t = s.respond (some (readResponse s a))) ∨
    (∃ c, e = .write cmdAddr c ∧ issue c (s.respond (some .ok)) = .next t) ∨
    (∃ a w u, e = .write a w ∧ a ≠ cmdAddr ∧ hostStore s a w = some u ∧ t = u.respond (some .ok)) ∨
    (∃ a w, e = .write a w ∧ a ≠ cmdAddr ∧ hostStore s a w = none ∧ t = s.respond (some .busError)) ∨
    ((e = .rst ∨ ∃ a w, e = .rstDuring a w) ∧ t = resetEdge s) ∨
    ∃ c i, e = .rstDuring cmdAddr c ∧ decode c = .ok i ∧ abandon i s = .next t := by
  cases e with
  | read a => exact .inl ⟨a, rfl, (Host.Outcome.next.inj h).symm⟩
  | write a w =>
    simp only [handleEvent, hostWrite] at h
    split at h
    · rename_i ha; subst ha; exact .inr (.inl ⟨w, rfl, h⟩)
    · rename_i ha
      split at h
      · rename_i u hu
        exact .inr (.inr (.inl ⟨a, w, u, rfl, ha, hu, (Host.Outcome.next.inj h).symm⟩))
      · rename_i hu
        exact .inr (.inr (.inr (.inl ⟨a, w, rfl, ha, hu, (Host.Outcome.next.inj h).symm⟩)))
  | rst => exact .inr (.inr (.inr (.inr (.inl ⟨.inl rfl, (Host.Outcome.next.inj h).symm⟩))))
  | rstDuring a w =>
    simp only [handleEvent, resetDuring] at h
    split at h
    · rename_i ha
      subst ha
      split at h
      · rename_i i hd; exact .inr (.inr (.inr (.inr (.inr ⟨w, i, rfl, hd, h⟩))))
      · exact .inr (.inr (.inr (.inr (.inl ⟨.inr ⟨_, w, rfl⟩, (Host.Outcome.next.inj h).symm⟩))))
    · exact .inr (.inr (.inr (.inr (.inl ⟨.inr ⟨_, w, rfl⟩, (Host.Outcome.next.inj h).symm⟩))))

end Sys2Proof.Machine
end

