-- ==== Sys2Proof/Tests/Slice0.lean ====
section
/-! SUPPORT. Tests: what WellFormed refuses, words written out from the encoding of R100 to R104, single steps with
the values of spec 95_test_vectors, and one witness for the hypotheses of every statement. -/

namespace Sys2Proof.Tests

open Sys2Proof.Machine

set_option Elab.async false

/-! ### Small states -/

/-- The configuration registers of a geometry (F, B = 1, N, k0, g), before CONFIGURE. -/
def configured (frames samples k0 gain : Word) : Regs :=
  { Regs.reset with
    payloadFrames := frames, payloadFrameSize := 1#32, samplesPerFrame := samples, frequencyStart := k0
    outputGain := gain }

/-- The registers after CONFIGURE has accepted the geometry. -/
def idle (frames samples k0 gain : Word) : Regs :=
  { configured frames samples k0 gain with maxPayload := frames / 16#32, state := .idle }

/-- The geometry of vector GP3: F = 16, N = 16, k0 = 1, g = 1.0. -/
def idle16 : Regs := idle 16#32 16#32 1#32 32768#32

/-- A core with these registers and events, nothing written in its memories. -/
def unit (r : Regs) (events : List HostEvent) : State := { State.reset with regs := r, pending := events }

/-- The next state of an outcome, or the state after reset where there is none. -/
def next : Host.Outcome State Fault Refusal → State
  | .next t => t
  | _ => State.reset

/-- Whether an outcome is a next state. -/
def completes : Host.Outcome State Fault Refusal → Bool
  | .next _ => true
  | _ => false

theorem completes_next {o : Host.Outcome State Fault Refusal} (h : completes o = true) : ∃ t, o = .next t := by
  cases o with
  | next t => exact ⟨t, rfl⟩
  | _ => cases h

/-! ### WellFormed refuses an operand beyond 24 bits (R100) -/

theorem test_operand_beyond_24_bits_is_refused :
    (Instr.nop 16777216).wellFormed = false ∧ (Instr.configure 16777216).wellFormed = false ∧
    (Instr.encode 16777216).wellFormed = false ∧ (Instr.correct 16777216).wellFormed = false ∧
    (Instr.genSpectrum 16777216).wellFormed = false ∧ (Instr.genPcm 16777216).wellFormed = false ∧
    (Instr.decode 16777216).wellFormed = false ∧ (Instr.reset 16777216).wellFormed = false := by decide

theorem test_largest_operand_is_wellFormed : (Instr.decode 16777215).wellFormed = true := by decide

/-! ### Decode, on words written out bit by bit (R100, R102; vectors K1 to K15) -/

theorem test_decode_nop : decode 0b000000000000000000000000_00000000#32 = .ok (.nop 0) := by decide
theorem test_decode_nop_operand : decode 0b111111111111111111111111_00000000#32 = .ok (.nop 16777215) := by decide
theorem test_decode_configure : decode 0b000000000000000000000000_00000001#32 = .ok (.configure 0) := by decide
theorem test_decode_encode : decode 0b000000000000000000000100_00000010#32 = .ok (.encode 4) := by decide
theorem test_decode_correct : decode 0b000000000000000000001000_00000011#32 = .ok (.correct 8) := by decide
theorem test_decode_genSpectrum : decode 0b000000000000000000000000_00000100#32 = .ok (.genSpectrum 0) := by decide
theorem test_decode_genPcm : decode 0b000000000000000001000000_00000101#32 = .ok (.genPcm 64) := by decide
theorem test_decode_decode : decode 0b000000000000010000000000_00000110#32 = .ok (.decode 1024) := by decide
theorem test_decode_reset : decode 0b101010111100110111101111_00000111#32 = .ok (.reset 0xABCDEF) := by decide
theorem test_decode_first_reserved : decode 0x00000008#32 = .error (.illegalCommand 0x08#8) := by decide
theorem test_decode_last_reserved : decode 0x123456FF#32 = .error (.illegalCommand 0xFF#8) := by decide
theorem test_encode_words :
    encode (.genPcm 1) = 0x00000105#32 ∧ encode (.decode 16) = 0x00001006#32 ∧ encode (.reset 0) = 0x00000007#32 := by
  decide
theorem test_table_word :
    decodeTableWord 32 0x00000105 = some (.genPcm 1) ∧ decodeTableWord 8 0x06 = some (.decode 0) ∧
    decodeTableWord 32 0x55 = none := by decide
theorem test_fetched_word_runs : (next (step (State.reset.withFetchWord 32 0x55))).regs.errc = 7#4 := by decide

/-! ### The ECC code and the sample arithmetic (vectors H, W, F, A) -/

theorem test_ecc_blocks :
    eccDecByte 0x4D#8 = ⟨4#4, false, false⟩ ∧ eccDecByte 0x45#8 = ⟨4#4, true, false⟩ ∧
    eccDecByte 0x5D#8 = ⟨4#4, true, false⟩ ∧ eccDecByte 0xCC#8 = ⟨0xC#4, false, true⟩ ∧
    eccDecByte 0x0E#8 = ⟨8#4, true, false⟩ := by decide

/-- W5 (both ends of sat16) and W6 (the floor). -/
theorem test_frame_sample_saturates_and_floors :
    (frameSample [0#16, 0x8000#16, 0#16, 0x8000#16, 0#16, 0#16, 0#16, 0#16] 16 2).toInt = 32767 ∧
    (frameSample [0#16, 0x8000#16, 0#16, 0x8000#16, 0#16, 0#16, 0#16, 0#16] 16 9).toInt = -32768 ∧
    (frameSample [0#16, 0x8000#16, 0#16, 0x8000#16, 0#16, 0#16, 0#16, 0#16] 16 3).toInt = 17734 ∧
    (frameSample [0#16, 0#16, 1#16, 0#16, 0#16, 0#16, 0#16, 0#16] 16 5).toInt = -1 := by decide +kernel

/-- F2 and F4. -/
theorem test_fade_weights :
    (List.range 16).map (fadeWeight 16 3 5) =
      [0, 10922, 21845, 32768, 32768, 32768, 32768, 32768, 32768, 32768, 32768, 32768, 26214, 19660, 13107, 6553] ∧
    (List.range 8).map (fadeWeight 16 12 12) = [0, 2730, 5461, 8192, 10922, 12515, 13653, 14335] := by decide

/-- A1, A5, A7 and A18. -/
theorem test_amplify :
    (amplifySample 16384 32768 (-1#16)).toInt = -1 ∧ (amplifySample 10923 32768 (-3#16)).toInt = -2 ∧
    (amplifySample 16384 16384 (BitVec.ofInt 16 (-12539))).toInt = -3135 ∧
    (amplifySample 16384 21846 3#16).toInt = 0 := by decide

/-! ### One step of each command -/

/-- Q8. -/
theorem test_nop :
    exec (.nop 0) (unit { idle16 with state := .finalized, result := 1024#32 } []) =
      .next (unit { idle16 with state := .finalized, result := 1024#32 } []) := by rfl

/-- T11, the highest k0 for N = 64. -/
theorem test_configure_accepts :
    (next (exec (.configure 0) (unit (configured 16#32 64#32 28#32 32768#32) []))).regs =
      idle 16#32 64#32 28#32 32768#32 := by decide

/-- T10, one bin too high. -/
theorem test_configure_refuses :
    let t := next (exec (.configure 0) (unit (configured 16#32 64#32 29#32 32768#32) []))
    t.regs.statusWord = 0x00000508#32 ∧ t.regs.result = 0xFFFFFFFB#32 ∧ t.regs.maxPayload = 0#32 := by decide

/-- EC1. -/
theorem test_encode :
    let s := (unit (idle 64#32 16#32 1#32 0#32) []).storeBytes .msg 0 [0xDE#8, 0xAD#8, 0xBE#8, 0xEF#8]
    let t := next (exec (.encode 4) s)
    (List.range 8).map (t.byteAt .ecc) = [0xD4#8, 0xE8#8, 0xA5#8, 0xD4#8, 0xB2#8, 0xE8#8, 0xE8#8, 0xFF#8] ∧
    t.regs.eccLen = 8#32 ∧ t.regs.result = 8#32 ∧ t.regs.statusWord = 0x00000004#32 := by decide +kernel

/-- EC3. -/
theorem test_encode_too_large :
    let t := next (exec (.encode 5) (unit (idle 64#32 16#32 1#32 0#32) []))
    t.regs.statusWord = 0x00000408#32 ∧ t.regs.result = 0xFFFFFFFC#32 ∧ t.mem = Memory.powerOn := by decide

/-- EC6: one block with two errors, another with one. -/
theorem test_correct_uncorrectable :
    let s := (unit (idle 64#32 16#32 1#32 0#32) []).storeBytes .ecc 0
      [0xD4#8, 0xE8#8, 0xA5#8, 0xC5#8, 0xB2#8, 0xE8#8, 0xE9#8, 0xFF#8]
    let t := next (exec (.correct 8) s)
    (List.range 4).map (t.byteAt .out) = [0xDE#8, 0xAC#8, 0xBE#8, 0xEF#8] ∧
    t.regs.statusWord = 0x00000168#32 ∧ t.regs.corrCount = 1#32 ∧ t.regs.outLen = 0#32 ∧ t.regs.eccLen = 8#32 := by
  decide +kernel

/-- EC9: too large is tested before odd. -/
theorem test_correct_order_of_checks :
    (next (exec (.correct 9) (unit (idle 64#32 16#32 1#32 0#32) []))).regs.result = 0xFFFFFFFC#32 := by decide

/-- Q3, SP1 to SP4. -/
theorem test_genSpectrum :
    let t := next (exec (.genSpectrum 0) (unit idle16 []))
    t.regs.statusWord = 0x00000012#32 ∧ t.regs.result = 16#32 ∧
    (List.range 4).map (t.halfAt .specLo) = [0#16, 0x8000#16, 0#16, 0#16] ∧
    (List.range 4).map (t.halfAt .specHi) = [0#16, 0#16, 0x8000#16, 0#16] ∧
    t.halfAt .specLo 515 = 0x8000#16 ∧ t.halfAt .specHi 516 = 0x8000#16 := by decide +kernel

/-- Q4. -/
theorem test_genSpectrum_rejected :
    (next (exec (.genSpectrum 0) (unit { idle16 with state := .spectrumReady, specValid := true } []))).regs.statusWord
      = 0x00000692#32 := by decide

/-- The two patterns of GP3, a frame of each parity. -/
theorem test_genPcm :
    let t := next (exec (.genPcm 0) (unit (idle 2#32 16#32 1#32 32768#32) []))
    (List.range 32).map (fun j => (t.halfAt .pcm j).toInt) =
      [0, 6269, 23170, 30273, 32767, 30273, 23170, 12539, 0, -12539, -23170, -30273, -32767, -30273, -23170, -6270,
        0, 15136, 23170, -12539, -32767, -12539, 23170, 30273, 0, -30273, -23170, 12539, 32767, 12539, -23170, -15137] ∧
    t.regs.statusWord = 0x00000014#32 ∧ t.regs.result = 32#32 := by decide +kernel

/-- GP5. -/
theorem test_genPcm_too_large :
    let t := next (exec (.genPcm 2) (unit (idle 16#32 64#32 4#32 32768#32) []))
    t.regs.statusWord = 0x00000408#32 ∧ t.regs.pcmLen = 0#32 ∧ t.mem = Memory.powerOn := by decide

/-- DV2: soft scores, two single errors. -/
theorem test_decode_corrects :
    let scores : List Int :=
      [-900, 1200, 5, -900, 1200, 1200, -900, 1200, -900, -900, -900, 1200, -900, 1200, 1200, 0]
    let t := next (exec (.decode 16) ((unit idle16 []).storeHalves .det 0 (scores.map (BitVec.ofInt 16))))
    (List.range 2).map (t.byteAt .ecc) = [0x6D#8, 0x16#8] ∧ t.byteAt .out 0 = 0x41#8 ∧
    t.regs.statusWord = 0x00000027#32 ∧ t.regs.result = 1#32 ∧ t.regs.corrCount = 2#32 ∧ t.regs.frameBit = 0#32 := by
  decide +kernel

/-- DV4. -/
theorem test_decode_misaligned :
    let t := next (exec (.decode 15) (unit idle16 []))
    t.regs.statusWord = 0x00000208#32 ∧ t.regs.result = 0xFFFFFFFE#32 ∧ t.regs.frameIdx = 0#32 := by decide

/-- Q10. -/
theorem test_reset :
    (next (exec (.reset 0) (unit { idle16 with state := .failed, result := 0xFFFFFFFB#32, errc := 5#4 } []))).regs
      = Regs.reset := by decide

/-! ### Bus transactions and `rst` -/

/-- M13: the ignored bits of a write, the sign extension of a read. -/
theorem test_det_element :
    hostRead (next (step (unit Regs.reset [.write 0x300000#24 0x00018000#32]))) 0x300000#24 = some 0xFFFF8000#32 := by
  decide

/-- M5, M11 and M19. -/
theorem test_unmapped :
    (next (step (unit Regs.reset [.read 0x000018#24]))).response = some .busError ∧
    (next (step (unit Regs.reset [.write 0x100040#24 0#32]))).response = some .busError ∧
    (next (step (unit Regs.reset [.read 0xA00000#24]))).response = some .busError := by decide

/-- M21: the configuration lock. -/
theorem test_locked :
    let t := next (step (unit (idle 16#32 64#32 4#32 16384#32) [.write 0x000008#24 0x8000#32]))
    t.response = some .busError ∧ hostRead t 0x000008#24 = some 0x4000#32 := by decide

/-- X1: a reset edge, and a command it abandons. -/
theorem test_rst :
    (next (step (unit idle16 [.rst]))).regs = Regs.reset ∧
    (next (step (unit idle16 [.rstDuring 0x000001#24 0x00000102#32]))).regs = Regs.reset := by decide +kernel

/-! ### States that meet the hypotheses of the statements -/

/-- The invariant on registers CONFIGURE has just accepted, whatever the host is about to do. -/
theorem inv_idle {r : Regs} (hs : r.state = .idle) (hv : r.specValid = false) (hc : r.Constructed)
    (he : r.errc = 0#4) (hr : r.result = 0#32) (hl : r.outLen = 0#32 ∧ r.pcmLen = 0#32 ∧ r.eccLen = 0#32 ∧
      r.outfLen = 0#32) (hf : r.corrCount = 0#32 ∧ r.frameIdx = 0#32 ∧ r.corrected = false) (q : List HostEvent) :
    (unit r q).Inv where
  canonical := by show Memory.powerOn.wf = true; decide
  stable := by unfold StateIsStable unit; rw [hs]; rfl
  geometry := ⟨fun _ => hc, fun h => by simp [unit, hs] at h⟩
  spectra := ⟨fun h => by simp [unit, hv] at h, fun h => by simp [unit, hs] at h⟩
  errorCode := by unfold ErrorCodeHolds unit; rw [he]; decide
  result := by unfold ResultHolds unit; rw [hs, hr]; decide
  lengths := ⟨fun _ => hl.1, fun _ => hl.2.1, fun h => by simp [unit, hs] at h⟩
  bounds := by unfold BoundsHold unit; simp [hl, hf]
  corrected := by unfold CorrectedHolds unit; simp [hf]

/-- The invariant with the configuration registers written and CONFIGURE still to come. -/
theorem inv_configured (f n k g : Word) (q : List HostEvent) : (unit (configured f n k g) q).Inv where
  canonical := by show Memory.powerOn.wf = true; decide
  stable := rfl
  geometry := ⟨(fun h => by cases h), fun _ => ⟨rfl, rfl, rfl⟩⟩
  spectra := ⟨(fun h => by cases h), (fun h => by cases h)⟩
  errorCode := by show (0#4).toNat ≤ 7; decide
  result := ⟨⟨(fun h => by cases h), fun h => absurd h (by show ¬ (0#32).toInt < 0; decide)⟩, (fun h => by cases h)⟩
  lengths := ⟨fun _ => rfl, fun _ => rfl, (fun h => by cases h)⟩
  bounds := by simp [BoundsHold, unit, configured, Regs.reset]
  corrected := by simp [CorrectedHolds, unit, configured, Regs.reset]

theorem constructed_smallest : (idle 1#32 16#32 1#32 0#32).Constructed := ⟨by decide, by decide⟩
theorem constructed_largest : (idle 1024#32 1024#32 508#32 32768#32).Constructed := ⟨by decide, by decide⟩
theorem constructed_16 : idle16.Constructed := ⟨by decide, by decide⟩

theorem inv_smallest (q : List HostEvent) : (unit (idle 1#32 16#32 1#32 0#32) q).Inv :=
  inv_idle rfl rfl constructed_smallest rfl rfl ⟨rfl, rfl, rfl, rfl⟩ ⟨rfl, rfl, rfl⟩ q
theorem inv_largest (q : List HostEvent) : (unit (idle 1024#32 1024#32 508#32 32768#32) q).Inv :=
  inv_idle rfl rfl constructed_largest rfl rfl ⟨rfl, rfl, rfl, rfl⟩ ⟨rfl, rfl, rfl⟩ q
theorem inv_16 (q : List HostEvent) : (unit idle16 q).Inv :=
  inv_idle rfl rfl constructed_16 rfl rfl ⟨rfl, rfl, rfl, rfl⟩ ⟨rfl, rfl, rfl⟩ q

theorem ready_idle {r : Regs} (hc : r.Constructed) (hs : r.state = .idle) (q : List HostEvent) : Ready (unit r q) where
  geometry := hc
  state := .inl hs
  tables := fun h => by simp [unit, hs] at h

theorem ready_spectrum : Ready (generateSpectrum (unit idle16 [])) where
  geometry := by rw [generateSpectrum_regs _ (by decide)]; exact ⟨by decide, by decide⟩
  state := .inr (by rw [generateSpectrum_regs _ (by decide)])
  tables := fun _ => generateSpectrum_tables _ (by decide)

/-- A ready core with MSG[0] = 0x41. -/
def loaded : State := (unit idle16 []).storeBytes .msg 0 [0x41#8]

theorem ready_loaded : Ready loaded := ⟨constructed_16, .inl rfl, (fun h => by cases h)⟩

/-! ### One witness for the hypotheses of each statement -/

theorem witness_ResetRegistersReadAsTheTable : 0 < 24 ∧ 23 < 24 ∧ State.reset.pending = [] :=
  ⟨by decide, by decide, rfl⟩

theorem witness_NothingChangesUnlessTheHostActs : (unit idle16 []).pending = [] := rfl

theorem witness_StepRunsTheDecodedCommand :
    (unit idle16 [.write 0x000001#24 0x00000102#32, .rst]).pending = .write 0x000001#24 0x00000102#32 :: [.rst] ∧
    decode 0x00000102#32 = .ok (.encode 1) := ⟨rfl, by decide⟩

theorem witness_DecodeOfEncodeIsTheCommand :
    (Instr.nop 0).wellFormed = true ∧ (Instr.configure 0).wellFormed = true ∧
    (Instr.encode 16777215).wellFormed = true ∧ (Instr.correct 16777215).wellFormed = true ∧
    (Instr.genSpectrum 0).wellFormed = true ∧ (Instr.genPcm 16777215).wellFormed = true ∧
    (Instr.decode 16777215).wellFormed = true ∧ (Instr.reset 16777215).wellFormed = true := by decide

theorem witness_EncodeOfDecodeIsTheWord : decode 0xFFFFFF06#32 = .ok (.decode 16777215) := by decide

theorem witness_ReservedOpcodesAreRejectedInEveryState :
    (unit idle16 [.write 0x000001#24 0x00000008#32]).pending = .write 0x000001#24 0x00000008#32 :: [] ∧
    7 < (0x00000008#32 &&& 0x000000FF#32).toNat ∧ 7 < (0x123456FF#32 &&& 0x000000FF#32).toNat :=
  ⟨rfl, by decide, by decide⟩

theorem witness_LegalStatesPerCommand :
    (unit idle16 []).regs.state.stable = true ∧ (unit idle16 []).regs.state ∉ runColumns (.configure 0) ∧
    (unit idle16 []).regs.state ∈ runColumns (.genSpectrum 0) ∧
    (∃ t, exec (.nop 0) (unit { idle16 with cmdErr := true } []) = .next t ∧ t.regs.cmdErr = true) ∧
    (∃ t, exec (.genSpectrum 0) (unit idle16 []) = .next t) ∧
    ∀ imm, Instr.genSpectrum 0 ≠ .nop imm ∧ Instr.genSpectrum 0 ≠ .reset imm :=
  ⟨by decide, by decide, by decide, ⟨_, rfl, rfl⟩, completes_next (by decide +kernel),
    fun _ => ⟨(fun h => by cases h), (fun h => by cases h)⟩⟩

theorem witness_ConfigureConstructsOrFails :
    (unit (configured 1#32 16#32 1#32 0#32) []).regs.state = .unconfigured ∧
    (configured 1#32 16#32 1#32 0#32).cfgOk = true ∧ (configured 1024#32 1024#32 508#32 32768#32).cfgOk = true ∧
    (configured 1025#32 1024#32 508#32 32768#32).cfgOk = false ∧ Regs.reset.cfgOk = false :=
  ⟨rfl, by decide, by decide, by decide, by decide⟩

theorem witness_FrequencyPlanOfALegalGeometry :
    (idle 1#32 16#32 1#32 0#32).cfgOk = true ∧ (idle 1024#32 1024#32 508#32 32768#32).cfgOk = true := by decide

theorem witness_GenSpectrumFillsTheTables :
    let s := unit (idle 1024#32 1024#32 508#32 32768#32) []
    s.regs.state = .idle ∧ s.regs.frames ≤ 1024 ∧ s.regs.samples ≤ 1024 ∧
    (1023 < s.regs.frames ∧ 511 < s.regs.samples / 2) ∧ s.regs.frames ≤ (1024 * 512) / 512 ∧
    (unit idle16 []).regs.samples / 2 ≤ 8 % 512 := by decide

theorem witness_SpectraAreDeterministicAndIdempotent :
    let s := unit idle16 []
    let u := { loaded with freeCount := 1 }
    s.regs.payloadFrames = u.regs.payloadFrames ∧ s.regs.samplesPerFrame = u.regs.samplesPerFrame ∧
    s.regs.frequencyStart = u.regs.frequencyStart ∧ s.regs.samples ≤ 1024 ∧ 15 < s.regs.frames ∧
    7 < s.regs.samples / 2 := by decide

theorem witness_SineRomSymmetryAndSums :
    (257 ≤ 257 ∧ 257 ≤ 512) ∧ (257 ≤ 512 ∧ 512 ≤ 512) ∧ (513 ≤ 513 ∧ 513 ≤ 1023) ∧ 513 ≤ 1023 ∧ 1023 ≤ 1023 := by
  decide

theorem witness_SineRomQuarterWaveChecks : 0 < 256 ∧ 255 < 256 := by decide

theorem witness_EncoderGivesTheSixteenCodewords : 1#4 ≠ 0#4 ∧ 15#4 ≠ 0#4 ∧ 0#4 ≠ 15#4 := by decide

theorem witness_CapabilityOfTheCode :
    [0x00#8, 0x80#8, 0x81#8, 0x0E#8, 0x17#8, 0x1F#8, 0x3F#8, 0x7F#8, 0xFF#8].map
      (fun e => (List.range 8).countP (fun k => e.getLsbD k)) = [0, 1, 2, 3, 4, 5, 6, 7, 8] := by decide

/-- Payload 0x41; the second block is received with bit 7 inverted. -/
theorem witness_EncodeThenCorrectIsTheIdentity :
    let u := (unit idle16 []).storeBytes .ecc 0 [0x4D#8, 0x97#8]
    let touched : Nat → Option (Fin 8) := fun j => if j = 1 then some 7 else none
    1 ≤ 64 ∧ 0 < 1 ∧ ∀ j, j < 2 * 1 → u.byteAt .ecc j = (eccEncode 1 loaded).byteAt .ecc j ^^^
      (match touched j with | none => 0#8 | some b => 1#8 <<< b.val) := by
  refine ⟨by decide, by decide, ?_⟩
  decide +kernel

theorem witness_EncodeWritesTheCodewords :
    let s := unit (idle 1024#32 16#32 1#32 0#32) []
    (s.regs.state = .idle ∨ s.regs.state = .spectrumReady) ∧ 64 ≤ s.regs.maxPayload.toNat ∧ 64 ≤ 64 ∧ 63 < 64 ∧
    2 * 64 ≤ 128 ∧ 0 ≤ s.regs.maxPayload.toNat := by decide

theorem witness_CorrectRecoversOrFails :
    let s := unit (idle 1024#32 16#32 1#32 0#32) []
    (s.regs.state = .idle ∨ s.regs.state = .spectrumReady) ∧ 128 ≤ 2 * s.regs.maxPayload.toNat ∧ 128 % 2 = 0 ∧
    128 ≤ 128 ∧ 63 < 128 / 2 ∧ 128 / 2 ≤ 64 := by decide

theorem witness_OperandChecksFailBeforeAnyWrite :
    let s := unit idle16 []
    (s.regs.state = .idle ∨ s.regs.state = .spectrumReady) ∧ s.regs.maxPayload.toNat < 2 ∧
    2 * s.regs.maxPayload.toNat < 3 ∧ (1 ≤ 2 * s.regs.maxPayload.toNat ∧ 1 % 2 = 1) ∧
    15 ≠ s.regs.payloadFrames.toNat ∧ 17 ≠ s.regs.payloadFrames.toNat := by decide

theorem witness_DecodeRecoversOrFails :
    let s := unit (idle 1024#32 16#32 1#32 0#32) []
    (s.regs.state = .idle ∨ s.regs.state = .spectrumReady) ∧ 1 ≤ s.regs.frames ∧ s.regs.frames ≤ 1024 ∧
    (127 < 2 * (s.regs.frames / 16) ∧ 7 < 8) ∧ 1 ≤ (unit (idle 1#32 16#32 1#32 0#32) []).regs.frames := by decide

theorem witness_FadeWeightsAreLinear :
    15 < 16 ∧ (0 < 16 ∧ 16 < 17) ∧ (16 ≤ 16 ∧ 15 < 16) ∧ 16 ≤ 1024 ∧ 1023 < 1024 := by decide

theorem witness_AmplifyNeverGrowsASample : 32768 ≤ 32768 ∧ 0 ≤ 32768 := by decide

theorem witness_WriteFrameOfAToneIsARomLookup :
    let s := generateSpectrum (unit idle16 [])
    let t := s.enterFrame 15 true
    (s.regs.cfgOk = true ∧ TablesHold s ∧ 15 < s.regs.frames ∧ s.regs.frameBit = (if false = true then 1#32 else 0#32)) ∧
    t.regs.cfgOk = true ∧ TablesHold t ∧ 15 < t.regs.frames ∧ t.regs.frameBit = (if true = true then 1#32 else 0#32) := by
  have tables := generateSpectrum_tables (unit idle16 []) (by decide)
  refine ⟨⟨?_, tables, ?_, ?_⟩, ?_, tables, ?_, ?_⟩ <;> decide +kernel

theorem witness_WriteFrameIsTheInverseSineTransform : 15 < (unit idle16 []).regs.samples := by decide

theorem witness_GenPcmSynthesisesThePayload :
    (Ready loaded ∧ 1 ≤ loaded.regs.maxPayload.toNat) ∧
    (Ready (generateSpectrum (unit idle16 [])) ∧ 0 ≤ (generateSpectrum (unit idle16 [])).regs.maxPayload.toNat) ∧
    15 < loaded.regs.frames ∧ 15 < loaded.regs.samples ∧ loaded.regs.frames ≤ (16 * 512) / 512 :=
  ⟨⟨ready_loaded, by decide⟩, ⟨ready_spectrum, Nat.zero_le _⟩, by decide, by decide, by decide⟩

theorem witness_GainBoundsEverySample :
    (Ready loaded ∧ 1 ≤ loaded.regs.maxPayload.toNat ∧ 255 < loaded.regs.frames * loaded.regs.samples) ∧
    Ready (unit (idle 1#32 16#32 1#32 0#32) []) ∧ (unit (idle 1#32 16#32 1#32 0#32) []).regs.gain = 0 :=
  ⟨⟨ready_loaded, by decide, by decide⟩, ready_idle constructed_smallest rfl [], by decide⟩

theorem witness_GenSpectrumFirstMakesNoDifference :
    loaded.regs.Constructed ∧ loaded.regs.state = .idle ∧ 1 ≤ loaded.regs.maxPayload.toNat :=
  ⟨constructed_16, rfl, by decide⟩

theorem witness_GenPcmDependsOnConfigurationAndPayloadOnly :
    let u := loaded.storeBytes .out 0 [0x55#8]
    Ready loaded ∧ Ready u ∧ loaded.regs.payloadFrames = u.regs.payloadFrames ∧
    loaded.regs.payloadFrameSize = u.regs.payloadFrameSize ∧ loaded.regs.samplesPerFrame = u.regs.samplesPerFrame ∧
    loaded.regs.frequencyStart = u.regs.frequencyStart ∧ loaded.regs.outputGain = u.regs.outputGain ∧
    1 ≤ loaded.regs.maxPayload.toNat ∧ ∀ p, p < 1 → loaded.byteAt .msg p = u.byteAt .msg p :=
  ⟨ready_loaded, ⟨constructed_16, .inl rfl, (fun h => by cases h)⟩, rfl, rfl, rfl, rfl, rfl, by decide, by decide⟩

/-- A receiver whose detection stage scores frame i positive exactly when `bits i`. -/
def receiver (bits : Nat → Bool) : State :=
  (unit idle16 []).storeHalves .det 0 ((List.range 16).map (fun i => if bits i = true then 1#16 else 0#16))

theorem ready_receiver (bits : Nat → Bool) : Ready (receiver bits) :=
  ⟨constructed_16, .inl rfl, (fun h => by cases h)⟩

theorem detects (bits : Nat → Bool) (i : Nat) (hi : i < 16) :
    0 < ((receiver bits).halfAt .det i).toInt ↔ bits i = true := by
  have e : (receiver bits).halfAt .det i = if bits i = true then 1#16 else 0#16 := by
    unfold receiver
    rw [State.halfAt_storeHalves_map, if_pos ⟨rfl, by omega, by omega⟩, Nat.sub_zero]
  rw [e]
  split <;> simp_all

/-- No frame wrong, one wrong, and two wrong in one group of eight. -/
theorem witness_RoundTripOverTwoInstances :
    let wrongIn := fun (wrong : Nat → Bool) (j : Nat) => (List.range 8).countP (fun k => wrong (8 * j + k))
    Ready loaded ∧ 1 ≤ loaded.regs.maxPayload.toNat ∧
    (∃ sent, exec (.genPcm 1) loaded = .next sent ∧ ∀ wrong : Nat → Bool, ∃ received : State, Ready received ∧
      received.regs.payloadFrames = loaded.regs.payloadFrames ∧
      ∀ i, i < loaded.regs.frames →
        (0 < (received.halfAt .det i).toInt ↔ (frameBitOf sent i ^^ wrong i) = true)) ∧
    (∀ j, j < 2 * (loaded.regs.frames / 16) → wrongIn (fun _ => false) j = 0) ∧
    (∀ j, j < 2 * (loaded.regs.frames / 16) → wrongIn (fun i => i == 15) j ≤ 1) ∧
    ∃ j, j < 2 * (loaded.regs.frames / 16) ∧ wrongIn (fun i => i == 8 || i == 15) j = 2 := by
  obtain ⟨sent, h⟩ := completes_next (o := exec (.genPcm 1) loaded) (by decide +kernel)
  exact ⟨ready_loaded, by decide,
    ⟨sent, h, fun wrong =>
      ⟨receiver fun i => frameBitOf sent i ^^ wrong i, ready_receiver _, rfl, fun i hi => detects _ i hi⟩⟩,
    by decide, by decide, 1, by decide, by decide⟩

theorem witness_MappedAddressesAnswer :
    (∀ a, (unit idle16 [.read a]).pending = .read a :: []) ∧
    [0x000017#24, 0x10003F#24, 0x20007F#24, 0x3003FF#24, 0x40003F#24, 0x5003FF#24, 0x67FFFF#24, 0x77FFFF#24,
      0x8FFFFF#24, 0x9FFFFF#24].all (fun a => (hostRead (unit idle16 []) a).isSome) = true ∧
    [0x000018#24, 0x100040#24, 0x200080#24, 0x300400#24, 0x400040#24, 0x500400#24, 0x680000#24, 0x780000#24,
      0xA00000#24, 0xFFFFFF#24].all (fun a => (hostRead (unit idle16 []) a).isNone) = true :=
  ⟨fun _ => rfl, by decide +kernel, by decide +kernel⟩

theorem witness_RefusedWritesChangeNothing :
    (∀ r a w, (unit r [.write a w]).pending = .write a w :: []) ∧ 0x000008#24 ≠ 0x000001#24 ∧
    [0x000004#24, 0x000008#24, 0x10003F#24, 0x20007F#24, 0x3003FF#24].all
      (fun a => (hostStore (unit Regs.reset []) a 0#32).isSome) = true ∧
    [0x000003#24, 0x000009#24, 0x100040#24, 0x200080#24, 0x300400#24, 0x400000#24, 0x9FFFFF#24, 0xA00000#24].all
      (fun a => (hostStore (unit Regs.reset []) a 0#32).isNone) = true ∧
    (hostStore (unit idle16 []) 0x000004#24 0#32).isNone = true :=
  ⟨fun _ _ _ => rfl, by decide, by decide +kernel, by decide +kernel, by decide +kernel⟩

theorem witness_ConfigurationRegistersAreLocked :
    4 ≤ (0x000004#24).toNat ∧ (0x000008#24).toNat ≤ 8 ∧
    (∀ r a w, (unit r [.write a w]).pending = .write a w :: []) ∧ (unit Regs.reset []).regs.state = .unconfigured ∧
    (unit idle16 []).regs.state ≠ .unconfigured :=
  ⟨by decide, by decide, fun _ _ _ => rfl, rfl, by decide⟩

theorem witness_WrittenElementsReadBack :
    (∀ a w, (unit idle16 [.write a w]).pending = .write a w :: []) ∧
    ((ByteSpace.msg = .msg ∧ 0x100000 = 0x100000 ∧ 63 < 64) ∨ (ByteSpace.msg = .ecc ∧ 0x100000 = 0x200000 ∧ 63 < 128)) ∧
    ((ByteSpace.ecc = .msg ∧ 0x200000 = 0x100000 ∧ 127 < 64) ∨
      (ByteSpace.ecc = .ecc ∧ 0x200000 = 0x200000 ∧ 127 < 128)) ∧ 1023 < 1024 :=
  ⟨fun _ _ => rfl, by decide, by decide, by decide⟩

theorem witness_ReadsExtendTheElement :
    63 ≤ 63 ∧ 127 ≤ 127 ∧ 1023 ≤ 1023 ∧ 524287 ≤ 524287 ∧ 1048575 ≤ 1048575 := by decide

theorem witness_BusyExactlyWhileACommandExecutes :
    idle16.state.stable = true ∧
    [0x00000000#32, 0x00000004#32, 0x00000102#32, 0x00000203#32, 0x00000105#32, 0x00001006#32, 0x00000007#32].all
      (fun c => (unit idle16 [.write 0x000001#24 c]).executing && (unit idle16 [.rstDuring 0x000001#24 c]).executing) = true ∧
    (unit { idle16 with state := .finalized } [.write 0x000001#24 0x00000000#32]).executing = true ∧
    (unit Regs.reset [.write 0x000001#24 0x00000001#32]).executing = true ∧
    (∀ c, (unit idle16 [.write 0x000001#24 c]).pending = .write 0x000001#24 c :: []) ∧
    [0x00000001#32, 0x00000008#32].any (fun c => (unit idle16 [.write 0x000001#24 c]).executing) = false :=
  ⟨rfl, by decide, by decide, by decide, fun _ => rfl, by decide⟩

theorem witness_AbandonedCommandsLeaveTheRestAlone :
    (∀ c, (unit idle16 [.rstDuring 0x000001#24 c]).Inv ∧
      (unit idle16 [.rstDuring 0x000001#24 c]).pending = .rstDuring 0x000001#24 c :: []) ∧
    decode 0x00000008#32 = .error (.illegalCommand 0x08#8) ∧ decode 0x00000000#32 = .ok (.nop 0) ∧
    decode 0x00000001#32 = .ok (.configure 0) ∧ decode 0x00000007#32 = .ok (.reset 0) ∧
    decode 0x00000004#32 = .ok (.genSpectrum 0) ∧ decode 0x00000102#32 = .ok (.encode 1) ∧
    decode 0x00000203#32 = .ok (.correct 2) ∧ decode 0x00001006#32 = .ok (.decode 16) ∧
    decode 0x00000105#32 = .ok (.genPcm 1) := by
  refine ⟨fun c => ⟨inv_16 _, rfl⟩, ?_⟩
  decide

theorem witness_StepKeepsTheMemoriesCanonical :
    (unit idle16 [.write 0x10003F#24 1#32]).mem.wf = true ∧
    ∃ t, step (unit idle16 [.write 0x10003F#24 1#32]) = .next t := ⟨by decide, completes_next (by decide)⟩

theorem witness_StepKeepsTheInvariant :
    (unit (idle 1024#32 1024#32 508#32 32768#32) [.write 0x000001#24 0x00004002#32]).Inv ∧
    ∃ t, step (unit (idle 1024#32 1024#32 508#32 32768#32) [.write 0x000001#24 0x00004002#32]) = .next t :=
  ⟨inv_largest _, completes_next (by decide +kernel)⟩

theorem witness_EveryTransactionCompletes : (unit idle16 [.read 0x000002#24]).Inv := inv_16 _

theorem witness_AbsentElementsFault :
    let s := unit { idle16 with payloadFrames := 1025#32, maxPayload := 65#32 } []
    (s.regs.state = .idle ∨ s.regs.state = .spectrumReady) ∧ (65 ≤ s.regs.maxPayload.toNat ∧ 64 < 65) ∧
    (130 ≤ 2 * s.regs.maxPayload.toNat ∧ 130 % 2 = 0 ∧ 128 < 130) ∧ 1024 < s.regs.frames ∧
    64 ≤ s.regs.maxPayload.toNat := by decide

/-- Each command where it runs, and the Fail outcomes of those that have one. -/
theorem witness_TransitionRelationOfAcceptedCommands :
    ((unit (configured 16#32 16#32 1#32 0#32) []).Inv ∧ (unit (configured 0#32 16#32 1#32 0#32) []).Inv ∧
      legalIn (.configure 0) .unconfigured = true ∧
      completes (exec (.configure 0) (unit (configured 16#32 16#32 1#32 0#32) [])) = true ∧
      completes (exec (.configure 0) (unit (configured 0#32 16#32 1#32 0#32) [])) = true) ∧
    (unit idle16 []).Inv ∧
    ∀ i ∈ [Instr.nop 0, .reset 0, .genSpectrum 0, .encode 0, .encode 1, .encode 2, .genPcm 1, .genPcm 2, .decode 16,
      .decode 15, .correct 0, .correct 1, .correct 2, .correct 3],
      legalIn i (unit idle16 []).regs.state = true ∧ completes (exec i (unit idle16 [])) = true := by
  refine ⟨⟨inv_configured _ _ _ _ _, inv_configured _ _ _ _ _, ?_⟩, inv_16 _, ?_⟩ <;> decide +kernel

theorem witness_TerminalStatesKeepTheirResults :
    (∀ imm, Instr.encode 1 ≠ .reset imm) ∧ (∀ imm, Instr.nop 0 ≠ .reset imm) ∧
    ∀ st ∈ [CoreState.finalized, .done, .failed], st = .finalized ∨ st = .done ∨ st = .failed :=
  ⟨(fun _ h => by cases h), (fun _ h => by cases h), by decide⟩

theorem witness_CommandsWriteOnlyTheirMemories :
    completes (exec (.configure 0) (unit Regs.reset [])) = true ∧
    ∀ i ∈ [Instr.nop 0, .reset 0, .genSpectrum 0, .encode 1, .genPcm 1, .decode 16, .correct 2],
      completes (exec i (unit idle16 [])) = true := by decide +kernel

theorem witness_OnlyAResetUndoesTheConfiguration :
    (∃ t, step (unit { idle16 with cmdErr := true } [.write 0x000001#24 0x00000004#32]) = .next t) ∧
    ({ idle16 with cmdErr := true } : Regs).cmdErr = true ∧ idle16.state ≠ .unconfigured ∧
    (∃ t, step (unit idle16 [.rst]) = .next t) ∧
    (∃ t, step (unit idle16 [.rstDuring 0x000001#24 0x00000000#32]) = .next t) ∧
    (∃ t, step (unit idle16 [.write 0x000001#24 0xFFFFFF07#32]) = .next t) ∧
    0xFFFFFF07#32 &&& 0x000000FF#32 = 0x00000007#32 :=
  ⟨completes_next (by decide +kernel), rfl, by decide, completes_next (by decide), completes_next (by decide),
    completes_next (by decide), by decide⟩

end Sys2Proof.Tests
end

section
/-! PROOFS. The register half of HostRead, and the registers that read the same in every state (spec 10_state R22,
R28, R33; 20_memory R70, R71). -/

namespace Sys2Proof.Machine

/-- Region 0 of R71's map: the word addresses 0x00..0x17 are the registers of R22. -/
theorem place_register {a : Addr} (h : a.toNat < 24) : place a = .register a.toNat := by
  have region : a.toNat / 2 ^ 20 = 0 := Nat.div_eq_of_lt (by omega)
  have index : a.toNat % 2 ^ 20 = a.toNat := Nat.mod_eq_of_lt (by omega)
  rw [place_eq, region, index]
  exact if_pos h

theorem hostRead_register (s : State) {a : Addr} (h : a.toNat < 24) :
    hostRead s a = some (s.regs.read a.toNat) := by
  simp only [hostRead, place_register h]

/-! What the constant registers and CMD read as: no field of `r` appears on the right (R28, R33). -/

section
variable (r : Regs)

@[simp] theorem Regs.read_id : r.read 0x00 = Config.id := rfl
@[simp] theorem Regs.read_cmd : r.read 0x01 = 0#32 := rfl
@[simp] theorem Regs.read_eccN : r.read 0x0A = Config.eccN := rfl
@[simp] theorem Regs.read_eccK : r.read 0x0B = Config.eccK := rfl
@[simp] theorem Regs.read_eccT : r.read 0x0C = Config.eccT := rfl
@[simp] theorem Regs.read_eccD : r.read 0x0D = Config.eccD := rfl
@[simp] theorem Regs.read_preambleLen : r.read 0x15 = Config.preambleLen := rfl
@[simp] theorem Regs.read_postambleLen : r.read 0x16 = Config.postambleLen := rfl
@[simp] theorem Regs.read_threshold : r.read 0x17 = Config.threshold := rfl

end

/-- Settles O42: each of the nine addresses is a register's, and what that register reads as is a constant of the
build, whatever the state. -/
theorem constantRegistersReadTheSameInEveryState : Obligations.ConstantRegistersReadTheSameInEveryState := by
  intro s
  simp [hostRead_register, Config.id, Config.eccN, Config.eccK, Config.eccT, Config.eccD, Config.preambleLen,
    Config.postambleLen, Config.threshold]

end Sys2Proof.Machine
end

section
/-! PROOFS. The decoder, said once: which words decode to a command, which do not, and both in the masks of the opcode
table (spec 30_encoding R100 to R103). -/

namespace Sys2Proof.Machine

/-- A word decodes to a command exactly when its two fields are the command's (R100, R102). -/
theorem decode_ok_iff {c : Word} {i : Instr} : decode c = .ok i ↔ opField c = i.opcode ∧ immField c = i.imm := by
  rw [← BitVec.toNat_inj]
  constructor
  · intro h
    unfold decode at h
    split at h <;> cases h <;> exact ⟨‹_›, rfl⟩
  · rintro ⟨hop, himm⟩
    cases i <;> simp [decode, hop, himm, Instr.opcode, Instr.imm]

/-- A word that does not decode is answered with its OP, which is above the last row of the table (R102, R103). -/
theorem decode_error_iff {c : Word} {op : Byte} :
    decode c = .error (.illegalCommand op) ↔ opField c = op ∧ 7 < op.toNat := by
  constructor
  · intro h
    unfold decode at h
    split at h <;> cases h
    refine ⟨rfl, ?_⟩
    simp only [imp_false] at *
    omega
  · rintro ⟨rfl, hop⟩
    unfold decode
    split
    case h_9 => rfl
    all_goals omega

/-- The mask 0xFF of the table leaves OP (R100, R102). -/
theorem toNat_and_opMask (c : Word) : (c &&& 0x000000FF#32).toNat = (opField c).toNat := by
  rw [Laws.toNat_opField, BitVec.toNat_and]
  exact Nat.and_two_pow_sub_one_eq_mod c.toNat 8

/-- IMM as the word shifted down by the width of OP (R100). -/
theorem immField_eq_shiftRight (c : Word) : immField c = (c >>> 8).toNat := by
  rw [Laws.immField_eq, BitVec.toNat_ushiftRight, Nat.shiftRight_eq_div_pow]

/-- R102's test, for any command whose operand is `c[31:8]`: the row's match is its OP. -/
theorem decode_ok_iff_match {c : Word} {i : Instr} (himm : (c >>> 8).toNat = i.imm) :
    decode c = .ok i ↔ c &&& 0x000000FF#32 = i.opcode.zeroExtend 32 := by
  have hop := i.opcode.isLt
  have field : immField c = i.imm := (immField_eq_shiftRight c).trans himm
  rw [decode_ok_iff, and_iff_left field, ← BitVec.toNat_inj, ← BitVec.toNat_inj, toNat_and_opMask,
    BitVec.toNat_setWidth, Nat.mod_eq_of_lt (by omega)]

/-- R103's test: a word is no command exactly when its OP is above 7. -/
theorem decode_illegal_iff_mask {c : Word} :
    (∃ op, decode c = .error (.illegalCommand op)) ↔ 7 < (c &&& 0x000000FF#32).toNat := by
  simp only [decode_error_iff, exists_eq_left', toNat_and_opMask]

/-- Settles O7: each row of the table is `decode_ok_iff_match` at that row's command. -/
theorem decodeFollowsMatchAndMask : Obligations.DecodeFollowsMatchAndMask := by
  intro c imm
  exact ⟨decode_ok_iff_match (i := .nop imm) rfl, decode_ok_iff_match (i := .configure imm) rfl,
    decode_ok_iff_match (i := .encode imm) rfl, decode_ok_iff_match (i := .correct imm) rfl,
    decode_ok_iff_match (i := .genSpectrum imm) rfl, decode_ok_iff_match (i := .genPcm imm) rfl,
    decode_ok_iff_match (i := .decode imm) rfl, decode_ok_iff_match (i := .reset imm) rfl,
    decode_illegal_iff_mask⟩

end Sys2Proof.Machine
end

section
/-! PROOFS. A command word written to CMD, and every command as its sequence check followed by its rule (spec
30_encoding R103 to R106; 60_exceptions R243, R245). -/

namespace Sys2Proof.Machine

/-! ### The write to CMD -/

/-- The write to CMD issues its word, on the state with the event taken off and the write completed (R80, R105). -/
theorem step_writeCmd {s : State} {c : Word} {rest : List HostEvent} (h : s.pending = .write cmdAddr c :: rest) :
    step s = issue c ((s.setPending rest).respond (some .ok)) := by
  rw [step_event h, handleEvent, hostWrite, if_pos rfl]

theorem issue_error {c : Word} {op : Byte} (h : decode c = .error (.illegalCommand op)) (s : State) :
    issue c s = .next (s.reject .illegalCommand) := by
  simp [issue, h]

/-- Settles O8: the word does not decode, so what is issued is the Reject, which writes CMDERR and ERRC alone. -/
theorem reservedOpcodesAreRejectedInEveryState : Obligations.ReservedOpcodesAreRejectedInEveryState := by
  intro s c rest hpending hop
  obtain ⟨op, hdecode⟩ := decode_illegal_iff_mask.mpr hop
  exact ⟨_, (step_writeCmd hpending).trans (issue_error hdecode _), rfl, rfl, rfl, rfl, rfl⟩

/-! ### The sequence check and the rule -/

/-- What a command does once the sequence check has passed; `exec_eq_sequenced` ties it to `exec`. -/
def commandRule (i : Instr) (s : State) : Host.Outcome State Fault Refusal :=
  match i with
  | .nop _ => .next s
  | .configure _ => .next (runConfigure s)
  | .encode size => runEncode size s
  | .correct length => runCorrect length s
  | .genSpectrum _ => runGenSpectrum s
  | .genPcm size => runGenPcm size s
  | .decode total => runDecode total s
  | .reset _ => .next s.resetRegisters

/-- Every command is R105's sequence check and then its rule. -/
theorem exec_eq_sequenced (i : Instr) (s : State) :
    exec i s = s.sequenced (legalIn i s.regs.state) (commandRule i s) := by
  cases i <;> rfl

theorem exec_legal {i : Instr} {s : State} (h : legalIn i s.regs.state = true) : exec i s = commandRule i s :=
  (exec_eq_sequenced i s).trans (State.sequenced_legal h)

theorem exec_illegal {i : Instr} {s : State} (h : legalIn i s.regs.state = false) :
    exec i s = .next (s.reject .illegalSequence) :=
  (exec_eq_sequenced i s).trans (State.sequenced_illegal h)

/-- Commands with the same legal states and the same rule are one command. -/
theorem exec_congr {i j : Instr} (hlegal : legalIn i = legalIn j) (hrule : commandRule i = commandRule j) (s : State) :
    exec i s = exec j s := by
  rw [exec_eq_sequenced, exec_eq_sequenced, hlegal, hrule]

/-- Settles O10: neither the legal states nor the rule of these four commands has the operand in it. -/
theorem ignoredOperandsAreIgnored : Obligations.IgnoredOperandsAreIgnored :=
  fun s _ _ => ⟨exec_congr rfl rfl s, exec_congr rfl rfl s, exec_congr rfl rfl s, exec_congr rfl rfl s⟩

/-! ### The table of legal states -/

/-- In a state the host can meet, the columns marked "run" are the states the sequence check lets pass (R106). -/
theorem mem_runColumns_iff {st : CoreState} (h : st.stable = true) (i : Instr) :
    st ∈ runColumns i ↔ legalIn i st = true := by
  cases i with
  | nop | reset => cases st <;> simp_all [runColumns, legalIn, CoreState.stable]
  | configure | genSpectrum => simp [runColumns, legalIn]
  | encode | correct | genPcm | decode => simp [runColumns, legalIn, constructed_iff]

/-! ### How a rule ends -/

/-- A rule ended without a Reject, in one of these values of STATE. -/
structure EndsIn (ends : List CoreState) (s t : State) : Prop where
  /-- CMDERR is set by a Reject only (R24, R243). -/
  cmdErr : t.regs.cmdErr = s.regs.cmdErr
  state : t.regs.state ∈ ends

theorem fail_endsIn {s : State} {f : FailCode} {ends : List CoreState} (h : .failed ∈ ends) :
    EndsIn ends s (s.fail f) := ⟨rfl, h⟩

theorem runConfigure_endsIn (s : State) : EndsIn [.idle, .failed] s (runConfigure s) := by
  unfold runConfigure
  split
  · exact ⟨rfl, by simp⟩
  · exact fail_endsIn (by simp)

theorem runEncode_endsIn {size : Nat} {s t : State} (h : runEncode size s = .next t) :
    EndsIn [.finalized, .failed] s t := by
  obtain ⟨-, rfl⟩ | ⟨-, -, rfl⟩ := runEncode_cases h
  · exact fail_endsIn (by simp)
  · exact ⟨rfl, by simp⟩

/-- The end CORRECT and DECODE share (R198, R220). -/
theorem finishCorrection_endsIn (pairs : Nat) (s : State) : EndsIn [.done, .failed] s (finishCorrection pairs s) := by
  cases h : s.regs.uncorrectable
  · constructor <;> simp [finishCorrection_done h]
  · constructor <;> simp [finishCorrection_failed h]

/-- Correcting and ending leave CMDERR as it was where the correction started. -/
theorem correction_endsIn (pairs : Nat) {s t : State} (h : t.regs.cmdErr = s.regs.cmdErr) :
    EndsIn [.done, .failed] s (finishCorrection pairs (eccCorrect pairs t)) := by
  obtain ⟨hcmd, hstate⟩ := finishCorrection_endsIn pairs (eccCorrect pairs t)
  exact ⟨hcmd.trans h, hstate⟩

theorem runCorrect_endsIn {length : Nat} {s t : State} (h : runCorrect length s = .next t) :
    EndsIn [.done, .failed] s t := by
  obtain ⟨-, rfl⟩ | ⟨-, -, rfl⟩ | ⟨-, -, -, rfl⟩ := runCorrect_cases h
  · exact fail_endsIn (by simp)
  · exact fail_endsIn (by simp)
  · exact correction_endsIn _ rfl

theorem runDecode_endsIn {total : Nat} {s t : State} (h : runDecode total s = .next t) :
    EndsIn [.done, .failed] s t := by
  obtain ⟨-, rfl⟩ | ⟨-, hF, rfl⟩ := runDecode_cases h
  · exact fail_endsIn (by simp)
  · rw [decodeFrames_eq s hF]
    obtain ⟨fb, hregs, -⟩ := (decodeStart_spec s hF).regs
    exact correction_endsIn _ (by rw [hregs])

theorem runGenSpectrum_endsIn {s t : State} (h : runGenSpectrum s = .next t) : EndsIn [.spectrumReady] s t := by
  obtain ⟨hfit, rfl⟩ := runGenSpectrum_cases h
  have hregs := generateSpectrum_regs s (s.regs.geometryFits_iff.mp hfit).2
  constructor <;> simp [hregs]

theorem runGenPcm_endsIn {size : Nat} {s t : State} (h : runGenPcm size s = .next t) :
    EndsIn [.finalized, .failed] s t := by
  obtain ⟨-, rfl⟩ | ⟨-, -, hfit, rfl⟩ := runGenPcm_cases h
  · exact fail_endsIn (by simp)
  · obtain ⟨fb, hregs, -⟩ := (generatePcm_spec size hfit).regs
    constructor <;> simp [hregs]

/-- The values of STATE a command's rule ends in, other than NOP, which keeps it, and RESET, which forgets it. -/
def endStates : Instr → List CoreState
  | .nop _ | .reset _ => []
  | .configure _ => [.idle, .failed]
  | .encode _ | .genPcm _ => [.finalized, .failed]
  | .correct _ | .decode _ => [.done, .failed]
  | .genSpectrum _ => [.spectrumReady]

/-- Every rule but those of NOP and RESET ends without a Reject, in one of its end states. -/
theorem commandRule_endsIn {i : Instr} {s t : State} (hi : ∀ imm, i ≠ .nop imm ∧ i ≠ .reset imm)
    (h : commandRule i s = .next t) : EndsIn (endStates i) s t := by
  cases i with
  | nop imm => exact absurd rfl (hi imm).1
  | reset imm => exact absurd rfl (hi imm).2
  | configure imm => cases h; exact runConfigure_endsIn s
  | encode size => exact runEncode_endsIn h
  | correct length => exact runCorrect_endsIn h
  | genSpectrum imm => exact runGenSpectrum_endsIn h
  | genPcm size => exact runGenPcm_endsIn h
  | decode total => exact runDecode_endsIn h

/-- No rule sets CMDERR (R106, R243): NOP keeps it, RESET clears it, and every other rule keeps it. -/
theorem cmdErr_of_commandRule {i : Instr} {s t : State} (h : commandRule i s = .next t)
    (hcmd : t.regs.cmdErr = true) : s.regs.cmdErr = true := by
  by_cases hi : ∀ imm, i ≠ .nop imm ∧ i ≠ .reset imm
  · rwa [(commandRule_endsIn hi h).cmdErr] at hcmd
  · cases i with
    | nop => cases h; exact hcmd
    | reset => cases h; cases hcmd
    | configure | encode | correct | genSpectrum | genPcm | decode => simp at hi

/-- A command never starts in a state it ends in (R106). -/
theorem not_mem_endStates {i : Instr} {st : CoreState} (h : legalIn i st = true) : st ∉ endStates i := by
  cases i with
  | nop | reset => simp [endStates]
  | configure | genSpectrum => simp_all [legalIn, endStates]
  | encode | correct | genPcm | decode => rcases (constructed_iff st).mp h with rfl | rfl <;> simp [endStates]

/-- Settles O9: outside the columns marked "run" the sequence check rejects; inside them the rule runs, sets no CMDERR
and ends in a state the command could not start in. -/
theorem legalStatesPerCommand : Obligations.LegalStatesPerCommand := by
  intro i s hstable
  have columns := mem_runColumns_iff hstable i
  constructor
  · intro hcolumn
    have illegal : legalIn i s.regs.state = false := Bool.eq_false_iff.mpr (mt columns.mpr hcolumn)
    exact ⟨_, exec_illegal illegal, rfl, rfl, rfl, rfl, rfl⟩
  · intro hcolumn t ht
    have legal : legalIn i s.regs.state = true := columns.mp hcolumn
    rw [exec_legal legal] at ht
    refine ⟨cmdErr_of_commandRule ht, fun hi hsame => not_mem_endStates legal ?_⟩
    exact hsame ▸ (commandRule_endsIn hi ht).state

end Sys2Proof.Machine
end

section
/-! PROOFS. NOP, RESET and the `rst` pin, cfg_ok(), and the step with no event (spec 40_control R120, R122, R123,
R126). -/

namespace Sys2Proof.Machine

/-- Settles O2: the machine is idle. -/
theorem nothingChangesUnlessTheHostActs : Obligations.NothingChangesUnlessTheHostActs :=
  fun _ hpending => step_idle hpending

/-- Settles O11: NOP is legal in every state, and its rule keeps the state. -/
theorem nopChangesNothing : Obligations.NopChangesNothing :=
  fun imm s => exec_legal (i := .nop imm) (s := s) rfl

/-! ### cfg_ok() -/

/-- The listed sample counts are the powers of two from 2 ^ 4 to 2 ^ 10 (R122 (3)). -/
theorem mem_legalSamples_iff {n : Nat} : n ∈ legalSamples ↔ ∃ e, 4 ≤ e ∧ e ≤ 10 ∧ n = 2 ^ e := by
  constructor
  · intro h
    have listed : ∀ m ∈ legalSamples, 4 ≤ m.log2 ∧ m.log2 ≤ 10 ∧ m = 2 ^ m.log2 := by decide
    exact ⟨n.log2, listed n h⟩
  · rintro ⟨e, low, high, rfl⟩
    interval_cases e <;> decide

/-- cfg_ok() as a proposition, on the numbers F, N, k0 and g of the configuration registers (R122). -/
theorem Regs.cfgOk_iff (r : Regs) :
    r.cfgOk = true ↔
      (1 ≤ r.frames ∧ r.frames ≤ Config.maxFrames) ∧ r.payloadFrameSize = 1#32 ∧ r.samples ∈ legalSamples ∧
      (1 ≤ r.baseBin ∧ r.baseBin + 3 ≤ r.samples / 2 - 1) ∧ r.gain ≤ 32768 := by
  simp only [Regs.cfgOk, Bool.and_eq_true, decide_eq_true_eq, List.contains_iff_mem, and_assoc]

/-- Settles O12: `Regs.cfgOk_iff`, with PAYLOAD_FRAME_SIZE read as a number and the list of sample counts as powers
of two. -/
theorem cfgOkIsTheFiveConditions : Obligations.CfgOkIsTheFiveConditions := by
  intro r
  rw [r.cfgOk_iff, mem_legalSamples_iff, ← BitVec.toNat_inj]
  rfl

/-! ### RESET and the pin -/

/-- An edge of `rst` is handled in every state, by reset_registers() with no response (R270, R272). -/
theorem handleEvent_rst (s : State) : handleEvent .rst s = .next (s.resetRegisters.respond none) := rfl

/-- Settles O14: RESET is legal in every state and its rule is reset_registers(), which the pin does too. -/
theorem resetCommandAndPinAgree : Obligations.ResetCommandAndPinAgree := by
  intro imm s
  have command : exec (.reset imm) s = .next s.resetRegisters := exec_legal rfl
  have host : SameHost s s.resetRegisters :=
    ⟨s.resetRegisters_pending, s.resetRegisters_response, s.resetRegisters_freeCount⟩
  exact ⟨command, s.resetRegisters_regs, s.resetRegisters_mem, host,
    _, handleEvent_rst s, State.respond_regs _ _, s.resetRegisters_mem⟩

end Sys2Proof.Machine
end

section
/-! PROOFS. The frequency plan, and the sine ROM beyond its first quarter wave (spec 41_spectrum R142, R147). -/

namespace Sys2Proof.Machine

/-! ### The frequency plan -/

/-- A frame's two tone bins are neighbours: symbol 1 sounds one bin above symbol 0 (R142). -/
theorem toneHi_eq (k0 i : Nat) : toneHi k0 i = toneLo k0 i + 1 := rfl

/-- The pair of tone bins alternates between (k0, k0 + 1) and (k0 + 2, k0 + 3) from a frame to the next (R142). -/
theorem toneLo_alternates (k0 i : Nat) :
    (toneLo k0 i = k0 ∧ toneLo k0 (i + 1) = k0 + 2) ∨ (toneLo k0 i = k0 + 2 ∧ toneLo k0 (i + 1) = k0) := by
  unfold toneLo
  rcases Nat.mod_two_eq_zero_or_one i with even | odd
  · exact .inl (by omega)
  · exact .inr (by omega)

/-- Settles O15: the pairs of two neighbouring frames are (k0, k0 + 1) and (k0 + 2, k0 + 3) in one order or the other,
and R122 gives 1 ≤ k0 and k0 + 3 ≤ N/2 - 1. -/
theorem frequencyPlanOfALegalGeometry : Obligations.FrequencyPlanOfALegalGeometry := by
  intro r i hcfg
  obtain ⟨-, -, -, -, hlow, hhigh, -⟩ := r.legal_of_cfgOk hcfg
  unfold Regs.samples at hhigh
  refine ⟨rfl, rfl, ?_⟩
  simp only [toneHi_eq]
  obtain ⟨here, next⟩ | ⟨here, next⟩ := toneLo_alternates r.baseBin i <;> rw [here, next] <;> omega

/-! ### The sine ROM -/

theorem sineHalf_eq_sineQuarter {m : Nat} (h : m ≤ 256) : sineHalf m = sineQuarter m := if_pos h

/-- The half wave is symmetric about m = 256 (R147). -/
theorem sineHalf_reflect {m : Nat} (h : m ≤ 512) : sineHalf (512 - m) = sineHalf m := by
  unfold sineHalf
  rcases Nat.lt_trichotomy m 256 with low | rfl | high
  · rw [if_neg (by omega), if_pos (by omega), Nat.sub_sub_self h]
  · rfl
  · rw [if_pos (by omega), if_neg (by omega)]

theorem sin1024_mod (m : Nat) : sin1024 (m % 1024) = sin1024 m := by
  have index : m % 1024 % Config.romLen = m % Config.romLen := Nat.mod_mod m 1024
  simp only [sin1024, index]

theorem sin1024_eq_sineHalf {m : Nat} (h : m ≤ 512) : sin1024 m = sineHalf m := by
  have index : m % Config.romLen = m := Nat.mod_eq_of_lt (by simp only [Config.romLen]; omega)
  simp only [sin1024, index, if_pos h]

/-- The second half wave is the first negated; at its first index both are 0 (R147). -/
theorem sin1024_add_512 {m : Nat} (h : m < 512) : sin1024 (512 + m) = -(sineHalf m : Int) := by
  have index : (512 + m) % Config.romLen = 512 + m := Nat.mod_eq_of_lt (by simp only [Config.romLen]; omega)
  cases m with
  | zero => rfl
  | succ k => simp only [sin1024, index, if_neg (show ¬ 512 + (k + 1) ≤ 512 by omega), Nat.add_sub_cancel_left]

/-- A sum over the whole ROM, by half waves. -/
theorem sum_sin1024_halves {M : Type} [AddCommMonoid M] (f : Int → M) :
    ((List.range 1024).map (fun m => f (sin1024 m))).sum =
      ∑ m ∈ Finset.range 512, (f (sineHalf m) + f (-sineHalf m)) := by
  calc ((List.range 1024).map (fun m => f (sin1024 m))).sum
      = ∑ m ∈ Finset.range (512 + 512), f (sin1024 m) := rfl
    _ = ∑ m ∈ Finset.range 512, f (sin1024 m) + ∑ m ∈ Finset.range 512, f (sin1024 (512 + m)) :=
      Finset.sum_range_add _ 512 512
    _ = ∑ m ∈ Finset.range 512, (f (sineHalf m) + f (-sineHalf m)) := by
      rw [← Finset.sum_add_distrib]
      refine Finset.sum_congr rfl (fun m hm => ?_)
      have hm := Finset.mem_range.mp hm
      rw [sin1024_eq_sineHalf hm.le, sin1024_add_512 hm]

/-- The checksum of R146's table. -/
theorem sum_sineQuarter : ∑ m ∈ Finset.range 257, sineQuarter m = 5356550 := by decide +kernel

/-- The half wave is the quarter wave up and down again, with its ends 0 and 32767 met once. -/
theorem sum_sineHalf : ∑ m ∈ Finset.range 512, sineHalf m = 10680333 := by
  have up : ∑ m ∈ Finset.range 256, sineHalf m = ∑ m ∈ Finset.range 256, sineQuarter m :=
    Finset.sum_congr rfl fun m hm => sineHalf_eq_sineQuarter (Finset.mem_range.mp hm).le
  have down : ∑ m ∈ Finset.range 256, sineHalf (256 + m) = ∑ m ∈ Finset.range 256, sineQuarter (m + 1) := by
    rw [← Finset.sum_range_reflect]
    refine Finset.sum_congr rfl (fun m hm => ?_)
    have hm := Finset.mem_range.mp hm
    have index : 256 + (256 - 1 - m) = 512 - (m + 1) := by omega
    rw [index, sineHalf_reflect (by omega), sineHalf_eq_sineQuarter hm]
  have last : ∑ m ∈ Finset.range 257, sineQuarter m = ∑ m ∈ Finset.range 256, sineQuarter m + sineQuarter 256 :=
    Finset.sum_range_succ sineQuarter 256
  have first : ∑ m ∈ Finset.range 257, sineQuarter m = ∑ m ∈ Finset.range 256, sineQuarter (m + 1) + sineQuarter 0 :=
    Finset.sum_range_succ' sineQuarter 256
  have lowest : sineQuarter 0 = 0 := rfl
  have highest : sineQuarter 256 = 32767 := rfl
  have table := sum_sineQuarter
  calc ∑ m ∈ Finset.range 512, sineHalf m
      = ∑ m ∈ Finset.range 256, sineHalf m + ∑ m ∈ Finset.range 256, sineHalf (256 + m) :=
      Finset.sum_range_add sineHalf 256 256
    _ = 10680333 := by omega

/-- Settles O18: both halves of the wave come from `sineHalf`, so its symmetry, the negation of the second half wave
and its sum give every clause. -/
theorem sineRomSymmetryAndSums : Obligations.SineRomSymmetryAndSums := by
  refine ⟨?symmetry, ?negation, rfl, rfl, ?sum, ?absSum, fun m => (sin1024_mod m).symm⟩
  case symmetry =>
    intro m _ hm
    rw [sin1024_eq_sineHalf hm, sin1024_eq_sineHalf (Nat.sub_le 512 m), sineHalf_reflect hm]
  case negation =>
    intro m _ _
    obtain ⟨k, rfl⟩ : ∃ k, m = 512 + k := ⟨m - 512, by omega⟩
    rw [sin1024_add_512 (by omega), Nat.add_sub_cancel_left, sin1024_eq_sineHalf (by omega)]
  case sum =>
    refine (sum_sin1024_halves id).trans ?_
    simp
  case absSum =>
    refine (sum_sin1024_halves Int.natAbs).trans ?_
    simp only [Int.natAbs_neg, Int.natAbs_natCast, Finset.sum_add_distrib, sum_sineHalf]

end Sys2Proof.Machine
end

section
/-! PROOFS. The modulator: the fade weights, GEN_PCM on a ready core, what bounds its samples and what they depend
on (spec 42_modulator R160 to R170). -/

namespace Sys2Proof.Machine

/-! ### The fade weights -/

theorem fadeIn_full {n offset : Nat} (h : offset ≤ n) : fadeIn n offset = 32768 := if_pos (.inr h)

theorem fadeOut_full {samples n residue : Nat} (h : n + residue < samples) : fadeOut samples n residue = 32768 :=
  if_pos (.inr h)

/-- Inside a fade-out of positive length the weight falls linearly (R164). -/
theorem fadeOut_linear {samples n residue : Nat} (hpos : residue ≠ 0) (h : samples ≤ n + residue) :
    fadeOut samples n residue = 32768 * (samples - n) / residue :=
  if_neg (by omega)

/-- Where the fade-in is full, the product weight is the fade-out (R163, R164). -/
theorem fadeWeight_of_fadeIn_full {samples offset residue n : Nat} (h : fadeIn n offset = 32768) :
    fadeWeight samples offset residue n = fadeOut samples n residue := by
  rw [fadeWeight, h, Nat.mul_div_cancel_left _ (by norm_num)]

/-- Where the fade-out is full, the product weight is the fade-in (R163, R164). -/
theorem fadeWeight_of_fadeOut_full {samples offset residue n : Nat} (h : fadeOut samples n residue = 32768) :
    fadeWeight samples offset residue n = fadeIn n offset := by
  rw [fadeWeight, h, Nat.mul_div_cancel _ (by norm_num)]

/-- Settles O28: the formulas are the weights' definitions, and with eighths a sample past the fade-in has it full,
while a sample inside it lies before the fade-out. -/
theorem fadeWeightsAreLinear : Obligations.FadeWeightsAreLinear := by
  refine ⟨fun _ _ => rfl, fun _ _ _ _ => rfl, ?longResidue, ?eighths⟩
  case longResidue =>
    intro samples n residue _ hlong
    exact fadeOut_linear (by omega) (by omega)
  case eighths =>
    intro samples n hN hn
    rcases Nat.lt_or_ge n (samples / 8) with fading | past
    · have full : fadeOut samples n (samples / 8) = 32768 := fadeOut_full (by omega)
      exact .inr ⟨full, fadeWeight_of_fadeOut_full full⟩
    · have full : fadeIn n (samples / 8) = 32768 := fadeIn_full past
      exact .inl ⟨full, fadeWeight_of_fadeIn_full full⟩

/-! ### GEN_PCM on a ready core -/

section
variable {size : Nat} {s : State}

/-- The capacity is F / 16 bytes, so a payload that fits is one of at most 64 bytes (R27, R122). -/
theorem Ready.size_le (h : Ready s) (hsize : size ≤ s.regs.maxPayload.toNat) : size ≤ 64 := by
  obtain ⟨hcfg, hcap⟩ := h.geometry
  have legal := s.regs.legal_of_cfgOk hcfg
  rw [hcap, BitVec.toNat_ofNat] at hsize
  omega

theorem Ready.fits (h : Ready s) : s.regs.geometryFits = true := Regs.fits_of_cfgOk h.geometry.1

/-- A ready core passes the sequence check and the operand checks (R105, R160). -/
theorem Ready.exec_genPcm (h : Ready s) (hsize : size ≤ s.regs.maxPayload.toNat) :
    exec (.genPcm size) s = .next (generatePcm size s) :=
  (exec_legal (i := .genPcm size) ((constructed_iff _).mpr h.state)).trans
    (runGenPcm_fits hsize (h.size_le hsize) h.fits)

/-- In SpectrumReady the tables are kept, in Idle they are written first (R160 step 2). -/
theorem Ready.pcmStart_tablesHold (h : Ready s) : TablesHold (pcmStart size s) :=
  pcmStart_tables h.fits fun busy => h.tables (h.state.resolve_left busy)

/-- The tables stay as the frame loop found them (R160). -/
theorem Ready.generatePcm_tablesHold (h : Ready s) : TablesHold (generatePcm size s) := by
  have after := generatePcm_spec size h.fits
  obtain ⟨fb, hregs, -⟩ := after.regs
  have start := h.pcmStart_tablesHold (size := size)
  intro i b
  rw [after.halves _ _ (by decide) (by decide) (by decide), after.halves _ _ (by decide) (by decide) (by decide)]
  simpa only [Regs.frames, Regs.samples, Regs.baseBin, hregs, pcmStart_regs h.fits] using start i b

/-- OUTF and PCM hold, frame after frame, the sine of each frame's bin after gain and fades (R160 to R166). -/
theorem Ready.generatePcm_sample (h : Ready s) (hsize : size ≤ s.regs.maxPayload.toNat) {sp : HalfSpace}
    (hsp : sp = .outf ∨ sp = .pcm) {j : Nat} (hj : j < s.regs.frames * s.regs.samples) :
    ((generatePcm size s).halfAt sp j).toInt =
      soundedSample s.regs (soundedBin s.regs (sentBit s size (j / s.regs.samples)) (j / s.regs.samples))
        (j % s.regs.samples) := by
  have legal := s.regs.legal_of_cfgOk h.geometry.1
  have frame : j / s.regs.samples < s.regs.frames := Nat.div_lt_of_lt_mul (by rwa [Nat.mul_comm])
  have sample : j % s.regs.samples < s.regs.samples := Nat.mod_lt _ (by omega)
  have hregs := pcmStart_regs (size := size) h.fits
  have hcfg : (pcmStart size s).regs.cfgOk = true := by rw [hregs]; exact h.geometry.1
  have closed := outputSample_tables hcfg h.pcmStart_tablesHold (i := j / s.regs.samples) (n := j % s.regs.samples)
    (by rw [hregs]; exact frame) (by rw [hregs]; exact sample)
  rw [(generatePcm_spec size h.fits).output sp j hsp, if_pos hj, closed,
    frameBitOf_pcmStart h.fits (h.size_le hsize), hregs]
  rfl

end

/-! ### The gain bound -/

/-- Gain and fade on a value that is not the lowest 16-bit integer: the gain's floor costs at most 1 below the scaled
peak, and the fade does not grow what the gain left (R163, R169). -/
theorem floorShift_gain_weight_bounds {x : Int} {gain weight : Nat} (hx : -32767 ≤ x ∧ x ≤ 32767)
    (hg : gain ≤ 32768) (hw : weight ≤ 32768) :
    (floorShift (floorShift (x * gain) 15 * weight) 15).natAbs ≤ 32767 * gain / 32768 + 1 ∧
    (floorShift (floorShift (x * gain) 15 * weight) 15).natAbs ≤ 32767 ∧
    (gain = 0 → floorShift (floorShift (x * gain) 15 * weight) 15 = 0) := by
  obtain ⟨gainPos, gainNeg⟩ := floorShift_weight (x := x) hg
  obtain ⟨fadePos, fadeNeg⟩ := floorShift_weight (x := floorShift (x * gain) 15) hw
  have upper : x * gain ≤ 32767 * gain := Int.mul_le_mul_of_nonneg_right hx.2 (Int.natCast_nonneg gain)
  have lower : -32767 * gain ≤ x * gain := Int.mul_le_mul_of_nonneg_right hx.1 (Int.natCast_nonneg gain)
  have amplified : floorShift (x * gain) 15 = x * gain / 32768 := rfl
  rcases le_total 0 x with pos | neg
  · have gained := gainPos pos
    have faded := fadePos gained.1
    omega
  · have gained := gainNeg neg
    have faded := fadeNeg gained.2
    omega

/-- A sounded sample is a ROM entry through gain and fade (R162 to R164). -/
theorem soundedSample_eq {r : Regs} (hN : 16 ≤ r.samples) (bin : Nat) {n : Nat} (hn : n < r.samples) :
    soundedSample r bin n =
      floorShift (floorShift (sin1024 (((bin * n) % r.samples) * (1024 / r.samples)) * r.gain) 15 *
        fadeWeight r.samples (r.samples / 8) (r.samples / 8) n) 15 := by
  rw [fadeWeight_eighths hN hn]
  rfl

/-- Settles O33: every sample is a ROM entry, which is never -32768, through a gain and a weight of at most 1.0. -/
theorem gainBoundsEverySample : Obligations.GainBoundsEverySample := by
  intro size s ready hsize
  refine ⟨_, ready.exec_genPcm hsize, fun j hj => ?_⟩
  have legal := s.regs.legal_of_cfgOk ready.geometry.1
  rw [ready.generatePcm_sample hsize (.inr rfl) hj, soundedSample_eq (by omega) _ (Nat.mod_lt _ (by omega))]
  exact floorShift_gain_weight_bounds (sin1024_range _) (by omega) (fadeWeight_le _ _ _ _)

/-! ### What the output depends on -/

theorem soundedSample_congr {r q : Regs} (hN : r.samples = q.samples) (hg : r.gain = q.gain) (bin n : Nat) :
    soundedSample r bin n = soundedSample q bin n := by
  simp only [soundedSample, hN, hg]

theorem soundedBin_congr {r q : Regs} (h : r.baseBin = q.baseBin) (bit : Bool) (i : Nat) :
    soundedBin r bit i = soundedBin q bit i := by
  simp only [soundedBin, h]

section
variable {size : Nat} {s u : State}

/-- Block j is made of byte j / 2 of the payload (R195). -/
theorem encodedBlock_congr (hmsg : ∀ p, p < size → s.byteAt .msg p = u.byteAt .msg p) {j : Nat}
    (hj : j < 2 * size) : encodedBlock s j = encodedBlock u j := by
  simp only [encodedBlock, hmsg (j / 2) (by omega)]

/-- The bits GEN_PCM sends are those of the payload, and padding after it (R161). -/
theorem sentBit_congr (hmsg : ∀ p, p < size → s.byteAt .msg p = u.byteAt .msg p) (i : Nat) :
    sentBit s size i = sentBit u size i := by
  unfold sentBit
  by_cases payload : i < 16 * size
  · rw [if_pos payload, if_pos payload, hmsg (i / 16) (by omega)]
  · rw [if_neg payload, if_neg payload]

theorem generatePcm_ecc (hfit : s.regs.geometryFits = true) {j : Nat} (hj : j < 2 * size) :
    (generatePcm size s).byteAt .ecc j = encodedBlock s j := by
  rw [(generatePcm_spec size hfit).bytes, pcmStart_byteAt hfit, if_pos ⟨rfl, hj⟩]

/-- The geometry's part of the registers outlasts the command (R160). -/
theorem generatePcm_geometry (hfit : s.regs.geometryFits = true) :
    (generatePcm size s).regs.frames = s.regs.frames ∧ (generatePcm size s).regs.samples = s.regs.samples ∧
      (generatePcm size s).regs.baseBin = s.regs.baseBin := by
  obtain ⟨fb, hregs, -⟩ := (generatePcm_spec size hfit).regs
  rw [hregs]
  exact ⟨rfl, rfl, rfl⟩

end

/-- Tables that hold are a function of F, N and k0 (R142, R144). -/
theorem TablesHold.agree {t v : State} (ht : TablesHold t) (hv : TablesHold v)
    (hF : t.regs.frames = v.regs.frames) (hN : t.regs.samples = v.regs.samples)
    (hk : t.regs.baseBin = v.regs.baseBin) {i b : Nat} (hi : i < t.regs.frames) (hb : b < t.regs.samples / 2) :
    t.halfAt .specLo (specIndex i b) = v.halfAt .specLo (specIndex i b) ∧
      t.halfAt .specHi (specIndex i b) = v.halfAt .specHi (specIndex i b) := by
  obtain ⟨tLo, tHi⟩ := ht i b hi hb
  obtain ⟨vLo, vHi⟩ := hv i b (hF ▸ hi) (hN ▸ hb)
  rw [tLo, vLo, tHi, vHi, hk]
  exact ⟨rfl, rfl⟩

/-- Settles O35: what GEN_PCM leaves in each memory is a closed form of the payload and the configuration. -/
theorem genPcmDependsOnConfigurationAndPayloadOnly : Obligations.GenPcmDependsOnConfigurationAndPayloadOnly := by
  intro size s u readyS readyU hframes _ hsamples hbase hgain hsize hmsg
  have hF : s.regs.frames = u.regs.frames := congrArg BitVec.toNat hframes
  have hN : s.regs.samples = u.regs.samples := congrArg BitVec.toNat hsamples
  have hk : s.regs.baseBin = u.regs.baseBin := congrArg BitVec.toNat hbase
  have hg : s.regs.gain = u.regs.gain := congrArg BitVec.toNat hgain
  have hsize' : size ≤ u.regs.maxPayload.toNat := by
    rwa [readyU.geometry.2, ← hF, ← readyS.geometry.2]
  have output : ∀ sp, sp = HalfSpace.outf ∨ sp = .pcm → ∀ j, j < s.regs.frames * s.regs.samples →
      (generatePcm size s).halfAt sp j = (generatePcm size u).halfAt sp j := by
    intro sp hsp j hj
    refine BitVec.eq_of_toInt_eq ?_
    rw [readyS.generatePcm_sample hsize hsp hj, readyU.generatePcm_sample hsize' hsp (by rwa [← hF, ← hN]),
      soundedSample_congr hN hg, soundedBin_congr hk, sentBit_congr hmsg, hN]
  refine ⟨_, _, readyS.exec_genPcm hsize, readyU.exec_genPcm hsize', ?ecc, ?tables, ?samples⟩
  case ecc =>
    intro j hj
    rw [generatePcm_ecc readyS.fits hj, generatePcm_ecc readyU.fits hj, encodedBlock_congr hmsg hj]
  case tables =>
    intro i b hi hb
    obtain ⟨tF, tN, tk⟩ := generatePcm_geometry (size := size) readyS.fits
    obtain ⟨vF, vN, vk⟩ := generatePcm_geometry (size := size) readyU.fits
    exact readyS.generatePcm_tablesHold.agree readyU.generatePcm_tablesHold (by rw [tF, vF, hF]) (by rw [tN, vN, hN])
      (by rw [tk, vk, hk]) (by rwa [tF]) (by rwa [tN])
  case samples =>
    exact fun j hj => ⟨output _ (.inl rfl) j hj, output _ (.inr rfl) j hj⟩

end Sys2Proof.Machine
end

section
/-! PROOFS. The code as a linear code, and what ecc_correct makes of encoded blocks with at most one inverted bit each
(spec 43_ecc R192, R196, R201). -/

namespace Sys2Proof.Machine

/-! ### The codewords -/

/-- The number of ones of a byte (R192). -/
def byteWeight (c : Byte) : Nat := (List.range 8).countP (fun k => c.getLsbD k)

/-- The code is linear: every check bit is an xor of data bits (R191, R192). -/
theorem eccEncNibble_xor (d e : Nibble) : eccEncNibble (d ^^^ e) = eccEncNibble d ^^^ eccEncNibble e := by
  revert d e; decide

theorem byteWeight_eccEncNibble {d : Nibble} (h : d ≠ 0#4) :
    byteWeight (eccEncNibble d) = if eccEncNibble d = 0xFF#8 then 8 else 4 := by
  revert d; decide

/-- The distance of two codewords is the weight of a third, by linearity (R192). -/
theorem four_le_distance {d e : Nibble} (h : d ≠ e) : 4 ≤ byteWeight (eccEncNibble d ^^^ eccEncNibble e) := by
  have nonzero : d ^^^ e ≠ 0#4 := fun zero => h (BitVec.xor_eq_zero_iff.mp zero)
  rw [← eccEncNibble_xor, byteWeight_eccEncNibble nonzero]
  split <;> omega

/-- Settles O20: the codewords are the table of R192; closure and distance are linearity, and the weights are those of
the fifteen codewords that are not zero. -/
theorem encoderGivesTheSixteenCodewords : Obligations.EncoderGivesTheSixteenCodewords := by
  refine ⟨?table, ?closed, ?weights, ?distance⟩
  case table => decide
  case closed => exact fun d e => ⟨d ^^^ e, (eccEncNibble_xor d e).symm⟩
  case weights => exact fun _ => byteWeight_eccEncNibble
  case distance => exact fun _ _ => four_le_distance

/-! ### Blocks with at most one inverted bit -/

/-- What an inverted bit, or none, adds to a received byte (R199, e = 0 and e = 1). -/
def errorPattern : Option (Fin 8) → Byte
  | none => 0#8
  | some b => 1#8 <<< b.val

/-- A codeword with at most one inverted bit gives its nibble, and `corr` says whether a bit was inverted (R199). -/
theorem eccDecByte_errorPattern (d : Nibble) (e : Option (Fin 8)) :
    eccDecByte (eccEncNibble d ^^^ errorPattern e) = { nibble := d, corr := e.isSome, unc := false } := by
  cases e with
  | none => rw [errorPattern, BitVec.xor_zero, eccDecByte_enc]; rfl
  | some b => exact eccDecByte_oneError d b

/-- ECC of `u` holds the payload of `s`, encoded, with at most the bit `touched j` of block j inverted (R201). -/
def ReceivedFrom (s : State) (size : Nat) (touched : Nat → Option (Fin 8)) (u : State) : Prop :=
  ∀ j, j < 2 * size → u.byteAt .ecc j = encodedBlock s j ^^^ errorPattern (touched j)

/-- Nothing inverted between ecc_encode and ecc_correct. -/
theorem receivedFrom_eccEncode (s : State) (size : Nat) : ReceivedFrom s size (fun _ => none) (eccEncode size s) :=
  fun j hj => by rw [eccEncode_byteAt, if_pos ⟨rfl, hj⟩, errorPattern, BitVec.xor_zero]

section
variable {s u : State} {size : Nat} {touched : Nat → Option (Fin 8)} (h : ReceivedFrom s size touched u)
include h

theorem ReceivedFrom.decodedBlock {j : Nat} (hj : j < 2 * size) :
    decodedBlock u j =
      { nibble := if j % 2 = 0 then highNibble (s.byteAt .msg (j / 2)) else lowNibble (s.byteAt .msg (j / 2))
        corr := (touched j).isSome
        unc := false } := by
  rw [Machine.decodedBlock, h j hj, encodedBlock, eccDecByte_errorPattern]

/-- Blocks 2p and 2p + 1 give back the two nibbles of byte p (R195, R196). -/
theorem ReceivedFrom.decodedByte {p : Nat} (hp : p < size) : decodedByte u p = s.byteAt .msg p := by
  have high : 2 * p % 2 = 0 ∧ 2 * p / 2 = p := by omega
  have low : (2 * p + 1) % 2 = 1 ∧ (2 * p + 1) / 2 = p := by omega
  rw [Machine.decodedByte, h.decodedBlock (by omega), h.decodedBlock (by omega), high.1, high.2, low.1, low.2]
  exact nibbles_append _

theorem ReceivedFrom.correctedBlocks :
    correctedBlocks u (2 * size) = (List.range (2 * size)).countP (fun j => (touched j).isSome) :=
  List.countP_congr fun j hj => by rw [h.decodedBlock (List.mem_range.mp hj)]

theorem ReceivedFrom.out_eccCorrect {p : Nat} (hp : p < size) :
    (eccCorrect size u).byteAt .out p = s.byteAt .msg p := by
  rw [eccCorrect_byteAt, if_pos ⟨rfl, hp⟩, h.decodedByte hp]

theorem ReceivedFrom.uncorrectable_eccCorrect : (eccCorrect size u).regs.uncorrectable = false :=
  (anyUncorrectable_eq_false u _).mpr fun _ hj => by rw [h.decodedBlock hj]

theorem ReceivedFrom.corrected_eccCorrect :
    (eccCorrect size u).regs.corrected = true ↔ ∃ j, j < 2 * size ∧ touched j ≠ none := by
  simp [eccCorrect_regs, Regs.withEccFlags, h.correctedBlocks, List.countP_pos_iff, Option.isSome_iff_ne_none]

/-- CORR_COUNT counts the touched blocks; at most 128 of them fit the register (R31). -/
theorem ReceivedFrom.corrCount_eccCorrect (hsize : size ≤ 64) :
    (eccCorrect size u).regs.corrCount.toNat =
      (List.range (2 * size)).countP (fun j => (touched j).isSome) := by
  have count : (List.range (2 * size)).countP (fun j => (touched j).isSome) ≤ 2 * size := by
    rw [← h.correctedBlocks]; exact correctedBlocks_le u _
  rw [eccCorrect_regs, Regs.withEccFlags, h.correctedBlocks]
  exact Nat.mod_eq_of_lt (by omega)

end

/-- Settles O22: the unchanged ECC is the received one with no block touched, so both halves are the `ReceivedFrom`
lemmas. -/
theorem encodeThenCorrectIsTheIdentity : Obligations.EncodeThenCorrectIsTheIdentity := by
  intro s size hsize
  have clean := receivedFrom_eccEncode s size
  refine ⟨fun p hp => clean.out_eccCorrect hp, ?corrected, clean.uncorrectable_eccCorrect, ?count, ?touched⟩
  case corrected =>
    refine Bool.eq_false_iff.mpr fun flag => ?_
    obtain ⟨_, _, inverted⟩ := clean.corrected_eccCorrect.mp flag
    exact inverted rfl
  case count => exact BitVec.eq_of_toNat_eq (by rw [clean.corrCount_eccCorrect hsize]; simp)
  case touched =>
    intro u touched hu
    have received : ReceivedFrom s size touched u := fun j hj => by
      have flipped : u.byteAt .ecc j = (eccEncode size s).byteAt .ecc j ^^^ errorPattern (touched j) := hu j hj
      rw [flipped, eccEncode_byteAt, if_pos ⟨rfl, hj⟩]
    exact ⟨fun p hp => received.out_eccCorrect hp, received.corrected_eccCorrect,
      received.uncorrectable_eccCorrect, received.corrCount_eccCorrect hsize⟩

end Sys2Proof.Machine
end

section
/-! PROOFS. The decision on a detected value (spec 44_decoder R221). -/

namespace Sys2Proof.Machine

theorem Config.threshold_toInt : Config.threshold.toInt = 0 := BitVec.toInt_zero

theorem classify_eq_true_iff (v : Half) : classify v = true ↔ Config.threshold.toInt < v.toInt := decide_eq_true_iff

/-- Settles O26: `classify` compares with the constant THRESHOLD, which is 0. -/
theorem classifyIsStrictlyAboveZero : Obligations.ClassifyIsStrictlyAboveZero := by
  intro v
  rw [classify_eq_true_iff, Config.threshold_toInt]

end Sys2Proof.Machine
end

section
/-! PROOFS. What reset_registers() leaves: the registers of its table and every memory element (spec
70_reset_and_hazards R271, R272). -/

namespace Sys2Proof.Machine

/-- An element is read from `mem` alone, so states with equal `mem` read alike in all nine memories. -/
theorem sameMemory_of_mem_eq {s t : State} (h : t.mem = s.mem) : SameMemory s t where
  left := fun _ _ => by simp only [State.byteAt, h]
  right := fun _ _ => by simp only [State.halfAt, h]

theorem State.resetRegisters_sameMemory (s : State) : SameMemory s s.resetRegisters :=
  sameMemory_of_mem_eq s.resetRegisters_mem

/-- Reset leaves the pending events alone, so a core with none stays idle across it (R126, R271). -/
theorem step_resetRegisters_idle {s : State} (h : s.pending = []) :
    step s.resetRegisters = .next s.resetRegisters :=
  step_idle (s.resetRegisters_pending.trans h)

/-- Settles O1: the registers after reset are the closed value `Regs.reset`, whatever the state was, so R271's table is
24 closed readings; memories and pending events are the frame of reset_registers(). -/
theorem resetRegistersReadAsTheTable : Obligations.ResetRegistersReadAsTheTable := by
  intro s
  refine ⟨?table, s.resetRegisters_sameMemory, step_resetRegisters_idle⟩
  case table =>
    rw [State.resetRegisters_regs]
    decide

end Sys2Proof.Machine
end

section
/-! PROOFS. The two round trips of the encoding, and the words of the test vectors (spec 30_encoding R100 to R104;
95_test_vectors). -/

namespace Sys2Proof.Machine

/-- Settles O5: the fields of the encoded word are the command's, and a word decodes by its fields. -/
theorem decodeOfEncodeIsTheCommand : Obligations.DecodeOfEncodeIsTheCommand :=
  fun i hwf => decode_ok_iff.mpr (Laws.EncodedFields.fields i hwf)

/-- The operand field has 24 bits, so what a word decodes to is well-formed (R100). -/
theorem wellFormed_of_decode {c : Word} {i : Instr} (h : decode c = .ok i) : i.wellFormed = true := by
  obtain ⟨-, himm⟩ := decode_ok_iff.mp h
  have field := Laws.immField_eq c
  have bound := c.isLt
  exact decide_eq_true (by omega)

/-- Settles O6: the word is 256 × IMM + OP, and so is the word of the command it decodes to. -/
theorem encodeOfDecodeIsTheWord : Obligations.EncodeOfDecodeIsTheWord := by
  intro c i hdecode
  have hwf := wellFormed_of_decode hdecode
  obtain ⟨hop, himm⟩ := decode_ok_iff.mp hdecode
  refine ⟨hwf, BitVec.eq_of_toNat_eq ?_⟩
  rw [Laws.toNat_encode hwf, ← hop, ← himm, Laws.immField_eq, Laws.toNat_opField]
  omega

/-- Settles O4: eight words by their two fields, and one whose OP is above the table. -/
theorem commandWordsOfTheVectorsDecode : Obligations.CommandWordsOfTheVectorsDecode := by
  simp only [Obligations.CommandWordsOfTheVectorsDecode, decode_ok_iff, decode_error_iff]
  decide

end Sys2Proof.Machine
end

section
/-! PROOFS. What the commands do where nothing is computed: CONFIGURE, the operand checks, the model's own stop, and the
states in which a command is rejected (spec 40_control R121, R125; 60_exceptions R241 to R248; logs 7 and 20). -/

namespace Sys2Proof.Machine

/-- Settles O3: the write to CMD issues its word, and the word decodes. -/
theorem stepRunsTheDecodedCommand : Obligations.StepRunsTheDecodedCommand :=
  fun _ _ _ _ hpending hdecode => (step_writeCmd hpending).trans (issue_ok hdecode _)

/-! ### CONFIGURE -/

section
variable {s : State}

theorem runConfigure_legal (h : s.regs.cfgOk = true) :
    runConfigure s =
      s.setRegs { s.regs with maxPayload := BitVec.ofNat 32 (s.regs.frames / 16), result := 0#32, state := .idle } :=
  if_pos h

theorem runConfigure_illegal (h : s.regs.cfgOk ≠ true) : runConfigure s = s.fail .invalidConfiguration := if_neg h

end

/-- Settles O13: in Unconfigured the rule runs, and it is one of two register writes. -/
theorem configureConstructsOrFails : Obligations.ConfigureConstructsOrFails := by
  intro imm s hstate
  have run : exec (.configure imm) s = .next (runConfigure s) :=
    exec_legal (i := .configure imm) (decide_eq_true hstate)
  by_cases legal : s.regs.cfgOk = true
  · rw [runConfigure_legal legal] at run
    exact ⟨_, run, rfl, ⟨rfl, rfl, rfl⟩, (if_pos legal).symm⟩
  · rw [runConfigure_illegal legal] at run
    exact ⟨_, run, rfl, ⟨rfl, rfl, rfl⟩, (if_neg legal).symm⟩

/-! ### The operand checks and the absent elements -/

section
variable {n : Nat} {s : State}

theorem runEncode_tooLarge (h : s.regs.capacity < n) : runEncode n s = .next (s.fail .payloadTooLarge) := if_pos h

theorem runGenPcm_tooLarge (h : s.regs.capacity < n) : runGenPcm n s = .next (s.fail .payloadTooLarge) := if_pos h

theorem runCorrect_tooLarge (h : 2 * s.regs.capacity < n) : runCorrect n s = .next (s.fail .payloadTooLarge) :=
  if_pos h

theorem runCorrect_odd (hlen : n ≤ 2 * s.regs.capacity) (hodd : n % 2 = 1) :
    runCorrect n s = .next (s.fail .malformedEccBlock) :=
  (if_neg (by omega)).trans (if_pos hodd)

theorem runDecode_misaligned (h : n ≠ s.regs.frames) : runDecode n s = .next (s.fail .frameAlignmentMismatch) :=
  if_pos h

theorem runEncode_absent (hsize : n ≤ s.regs.capacity) (habsent : 64 < n) :
    runEncode n s = .fault .absentElement :=
  (if_neg (by omega)).trans (if_pos habsent)

theorem runGenPcm_absentPayload (hsize : n ≤ s.regs.capacity) (habsent : 64 < n) :
    runGenPcm n s = .fault .absentElement :=
  (if_neg (by omega)).trans (if_pos habsent)

theorem runCorrect_absent (hlen : n ≤ 2 * s.regs.capacity) (heven : n % 2 = 0) (habsent : 128 < n) :
    runCorrect n s = .fault .absentElement :=
  (if_neg (by omega)).trans ((if_neg (by omega)).trans (if_pos habsent))

theorem runDecode_absent (habsent : 1024 < s.regs.frames) : runDecode s.regs.frames s = .fault .absentElement :=
  (if_neg (by simp)).trans (if_pos habsent)

/-- A frame or a sample without its element is a geometry that does not fit (log 7). -/
theorem Regs.not_geometryFits {r : Regs} (h : 1024 < r.frames ∨ 1024 < r.samples) : ¬ r.geometryFits = true := by
  rw [Regs.geometryFits_iff]
  omega

theorem runGenPcm_absentFrame (hsize : n ≤ s.regs.capacity) (hfits : n ≤ 64) (h : ¬ s.regs.geometryFits = true) :
    runGenPcm n s = .fault .absentElement :=
  (if_neg (by omega)).trans ((if_neg (Nat.not_lt.mpr hfits)).trans (if_neg h))

theorem runGenSpectrum_absent (h : ¬ s.regs.geometryFits = true) : runGenSpectrum s = .fault .absentElement := if_neg h

/-- In the two states of a constructed core the sequence check lets these four commands pass (R106). -/
theorem exec_constructed {i : Instr} (hi : legalIn i = CoreState.constructed)
    (hstate : s.regs.state = .idle ∨ s.regs.state = .spectrumReady) : exec i s = commandRule i s :=
  exec_legal (by rw [hi]; exact (constructed_iff _).mpr hstate)

end

/-- Settles O25: each clause is the branch of the rule that its hypothesis picks. -/
theorem operandChecksFailBeforeAnyWrite : Obligations.OperandChecksFailBeforeAnyWrite := by
  intro n s hstate failed
  refine ⟨fun h => ?encode, fun h => ?genPcm, fun h => ?correct, fun h hodd => ?odd, fun h => ?decode⟩
  case encode => exact (exec_constructed (i := .encode n) rfl hstate).trans (runEncode_tooLarge h)
  case genPcm => exact (exec_constructed (i := .genPcm n) rfl hstate).trans (runGenPcm_tooLarge h)
  case correct => exact (exec_constructed (i := .correct n) rfl hstate).trans (runCorrect_tooLarge h)
  case odd => exact (exec_constructed (i := .correct n) rfl hstate).trans (runCorrect_odd h hodd)
  case decode => exact (exec_constructed (i := .decode n) rfl hstate).trans (runDecode_misaligned h)

/-- Settles O49: each clause is the branch of the rule that its hypotheses pick. -/
theorem absentElementsFault : Obligations.AbsentElementsFault := by
  intro n s hstate
  refine ⟨fun h habsent => ⟨?encode, ?payload⟩, fun h heven habsent => ?correct, fun habsent => ?decode,
    fun h hfits habsent => ?frame, fun hidle habsent => ?spectrum⟩
  case encode => exact (exec_constructed (i := .encode n) rfl hstate).trans (runEncode_absent h habsent)
  case payload => exact (exec_constructed (i := .genPcm n) rfl hstate).trans (runGenPcm_absentPayload h habsent)
  case correct => exact (exec_constructed (i := .correct n) rfl hstate).trans (runCorrect_absent h heven habsent)
  case decode => exact (exec_constructed (i := .decode s.regs.frames) rfl hstate).trans (runDecode_absent habsent)
  case frame =>
    exact (exec_constructed (i := .genPcm n) rfl hstate).trans
      (runGenPcm_absentFrame h hfits (Regs.not_geometryFits habsent))
  case spectrum =>
    exact (exec_legal (i := .genSpectrum n) (decide_eq_true hidle)).trans
      (runGenSpectrum_absent (Regs.not_geometryFits habsent))

/-! ### No refusal -/

/-- What every operation of this machine answers: a next state, or the model's own stop (log 7). -/
def Answers (o : Host.Outcome State Fault Refusal) : Prop := (∃ t, o = .next t) ∨ o = .fault .absentElement

theorem answers_next (t : State) : Answers (.next t) := .inl ⟨t, rfl⟩

theorem answers_fault : Answers (.fault .absentElement) := .inr rfl

theorem answers_ite {p : Prop} [Decidable p] {a b : Host.Outcome State Fault Refusal} (ha : Answers a)
    (hb : Answers b) : Answers (if p then a else b) := by
  split
  · exact ha
  · exact hb

theorem commandRule_answers (i : Instr) (s : State) : Answers (commandRule i s) := by
  have next := answers_next
  have stop := answers_fault
  cases i with
  | nop | configure | reset => exact next _
  | encode size => exact answers_ite (next _) (answers_ite stop (next _))
  | correct length => exact answers_ite (next _) (answers_ite (next _) (answers_ite stop (next _)))
  | genSpectrum imm => exact answers_ite (next _) stop
  | genPcm size => exact answers_ite (next _) (answers_ite stop (answers_ite (next _) stop))
  | decode total => exact answers_ite (next _) (answers_ite stop (next _))

theorem exec_answers (i : Instr) (s : State) : Answers (exec i s) := by
  rw [exec_eq_sequenced]
  exact answers_ite (commandRule_answers i s) (answers_next _)

theorem abandon_answers (i : Instr) (s : State) : Answers (abandon i s) := answers_ite (answers_next _) answers_fault

theorem handleEvent_answers (e : HostEvent) (s : State) : Answers (handleEvent e s) := by
  cases e with
  | read a => exact answers_next _
  | rst => exact answers_next _
  | write a w =>
    refine answers_ite ?_ ?_
    · unfold issue
      split
      · exact exec_answers _ _
      · exact answers_next _
    · split <;> exact answers_next _
  | rstDuring a w =>
    refine answers_ite ?_ (answers_next _)
    split
    · exact abandon_answers _ _
    · exact answers_next _

theorem step_answers (s : State) : Answers (step s) := by
  cases h : s.pending with
  | nil => rw [step_idle h]; exact answers_next _
  | cons e rest => rw [step_event h]; exact handleEvent_answers _ _

/-- Settles O50: a step answers a next state or the model's own stop. -/
theorem noStepIsRefused : Obligations.NoStepIsRefused := by
  intro s r refused
  obtain ⟨t, h⟩ | h := step_answers s <;> rw [refused] at h <;> cases h

/-! ### Where a command is rejected -/

/-- Once the one operation has ended, only NOP and RESET are legal (R106, R125). -/
theorem legalIn_terminal {i : Instr} {st : CoreState} (hst : st = .finalized ∨ st = .done ∨ st = .failed)
    (hi : ∀ imm, i ≠ .nop imm ∧ i ≠ .reset imm) : legalIn i st = false := by
  cases i with
  | nop imm => exact absurd rfl (hi imm).1
  | reset imm => exact absurd rfl (hi imm).2
  | configure | encode | correct | genSpectrum | genPcm | decode => rcases hst with rfl | rfl | rfl <;> rfl

/-- Settles O52: NOP keeps the state, and every other command but RESET is rejected. -/
theorem terminalStatesKeepTheirResults : Obligations.TerminalStatesKeepTheirResults := by
  intro i s hstate hreset
  by_cases hnop : ∃ imm, i = .nop imm
  · obtain ⟨imm, rfl⟩ := hnop
    exact ⟨s, nopChangesNothing imm s, rfl, ⟨rfl, rfl, rfl⟩, .inl rfl⟩
  · have illegal := legalIn_terminal hstate fun imm => ⟨fun h => hnop ⟨imm, h⟩, hreset imm⟩
    exact ⟨_, exec_illegal illegal, rfl, ⟨rfl, rfl, rfl⟩, .inr rfl⟩

/-- A write to CMD during which no command executes is rejected, for its OP or for the sequence (R243, R248). -/
theorem step_writeCmd_rejects {s : State} {c : Word} {rest : List HostEvent}
    (hpending : s.pending = .write cmdAddr c :: rest) (hidle : s.executing = false) :
    ∃ j, step s = .next (((s.setPending rest).respond (some .ok)).reject j) := by
  rw [step_writeCmd hpending]
  cases hdecode : decode c with
  | error e => exact ⟨.illegalCommand, issue_error hdecode _⟩
  | ok i =>
    have illegal : legalIn i s.regs.state = false := by
      rw [Bool.eq_false_iff]
      intro legal
      rw [State.executing_event hpending, HostEvent.executes_iff.mpr ⟨c, i, .inl rfl, hdecode, legal⟩] at hidle
      cases hidle
    exact ⟨.illegalSequence, (issue_ok hdecode _).trans (exec_illegal illegal)⟩

/-- Settles O56: `executes_iff` with R106's table for the check (3) of R105; where nothing executes, the word is
rejected. -/
theorem busyExactlyWhileACommandExecutes : Obligations.BusyExactlyWhileACommandExecutes := by
  intro s hstable
  refine ⟨rfl, ?busy, ?quiet⟩
  case busy =>
    simp only [State.busyO, mem_runColumns_iff hstable]
    cases hpending : s.pending with
    | nil => simp [State.executing_idle hpending]
    | cons e events =>
      rw [State.executing_event hpending, HostEvent.executes_iff]
      constructor
      · rintro ⟨c, i, rfl | rfl, hdecode, legal⟩
        · exact ⟨c, i, events, .inl rfl, hdecode, legal⟩
        · exact ⟨c, i, events, .inr rfl, hdecode, legal⟩
      · rintro ⟨c, i, rest, h | h, hdecode, legal⟩ <;> obtain ⟨rfl, rfl⟩ := List.cons.inj h
        · exact ⟨c, i, .inl rfl, hdecode, legal⟩
        · exact ⟨c, i, .inr rfl, hdecode, legal⟩
  case quiet =>
    intro c rest hpending hquiet
    obtain ⟨j, hstep⟩ := step_writeCmd_rejects hpending hquiet
    exact ⟨_, hstep, rfl, rfl, rfl⟩

end Sys2Proof.Machine
end

section
/-! PROOFS. The bus: what a read answers, which writes are stored, and the registers as the host reads them (spec
10_state R22 to R33, R44; 20_memory R70 to R79). -/

namespace Sys2Proof.Machine

/-! ### The region map, read in both directions -/

/-- R71's table: the regions and, in each, the indices that name something. -/
def Mapped (region index : Nat) : Prop :=
  (region = 0 ∧ index ≤ 0x17) ∨ (region = 1 ∧ index ≤ 63) ∨ (region = 2 ∧ index ≤ 127) ∨
    (region = 3 ∧ index ≤ 1023) ∨ (region = 4 ∧ index ≤ 63) ∨ (region = 5 ∧ index ≤ 1023) ∨
    (region = 6 ∧ index ≤ 524287) ∨ (region = 7 ∧ index ≤ 524287) ∨ region = 8 ∨ region = 9

/-- An index has 20 bits, which is why regions 8 and 9 have no index out of range (R70, R71). -/
theorem placeAt_eq_unmapped_iff {region index : Nat} (hindex : index < 2 ^ 20) :
    placeAt region index = .unmapped ↔ ¬ Mapped region index := by
  unfold placeAt Mapped
  split
  case h_1 => simp; omega
  case h_11 => simp only [imp_false, true_iff] at *; omega
  case h_9 | h_10 => simp [halfPlace_unmapped, HalfSpace.size, Config.maxPcm]; omega
  all_goals
    simp [bytePlace_unmapped, halfPlace_unmapped, ByteSpace.size, HalfSpace.size, Config.maxMsg, Config.maxEcc,
      Config.maxFrames, Config.maxSamples, Config.specStride]
    omega

/-- An address is its region number and its index (R70). -/
theorem place_ofNat {region index : Nat} (hregion : region < 16) (hindex : index < 2 ^ 20) :
    place (BitVec.ofNat 24 (region * 2 ^ 20 + index)) = placeAt region index := by
  have value : (BitVec.ofNat 24 (region * 2 ^ 20 + index)).toNat = region * 2 ^ 20 + index := by
    rw [BitVec.toNat_ofNat]
    exact Nat.mod_eq_of_lt (by omega)
  have high : (region * 2 ^ 20 + index) / 2 ^ 20 = region := by omega
  have low : (region * 2 ^ 20 + index) % 2 ^ 20 = index := by omega
  rw [place_eq, value, high, low]

/-- Every element of a byte memory has its address (R71). -/
theorem place_byteElement {sp : ByteSpace} {i : Nat} (hi : i < sp.size) :
    place (BitVec.ofNat 24 (sp.base + i)) = .byteElement sp i := by
  rw [← bytePlace_mapped hi]
  cases sp with
  | msg => exact place_ofNat (region := 1) (by decide) (hi.trans (by decide))
  | ecc => exact place_ofNat (region := 2) (by decide) (hi.trans (by decide))
  | out => exact place_ofNat (region := 4) (by decide) (hi.trans (by decide))

/-- Every element of a 16-bit memory has its address (R71). -/
theorem place_halfElement {sp : HalfSpace} {i : Nat} (hi : i < sp.size) :
    place (BitVec.ofNat 24 (sp.base + i)) = .halfElement sp i := by
  rw [← halfPlace_mapped hi]
  cases sp with
  | det => exact place_ofNat (region := 3) (by decide) (hi.trans (by decide))
  | cur => exact place_ofNat (region := 5) (by decide) (hi.trans (by decide))
  | specLo => exact place_ofNat (region := 6) (by decide) (hi.trans (by decide))
  | specHi => exact place_ofNat (region := 7) (by decide) (hi.trans (by decide))
  | outf => exact place_ofNat (region := 8) (by decide) (hi.trans_le (by decide))
  | pcm => exact place_ofNat (region := 9) (by decide) (hi.trans_le (by decide))

/-! ### Reads -/

theorem hostRead_byteElement (s : State) {sp : ByteSpace} {i : Nat} (hi : i < sp.size) :
    hostRead s (BitVec.ofNat 24 (sp.base + i)) = some (zext32 (s.byteAt sp i)) := by
  simp only [hostRead, place_byteElement hi]

theorem hostRead_halfElement (s : State) {sp : HalfSpace} {i : Nat} (hi : i < sp.size) :
    hostRead s (BitVec.ofNat 24 (sp.base + i)) =
      some (if sp.signed then sext32 (s.halfAt sp i) else zext32 (s.halfAt sp i)) := by
  simp only [hostRead, place_halfElement hi]

theorem hostRead_eq_none_iff {s : State} {a : Addr} : hostRead s a = none ↔ place a = .unmapped := by
  unfold hostRead
  cases place a <;> simp

/-- A read completes with its word or with BusError, and leaves nothing else behind (R76, R244). -/
theorem step_read {s : State} {a : Addr} {rest : List HostEvent} (h : s.pending = .read a :: rest) :
    step s = .next ((s.setPending rest).respond (some (readResponse (s.setPending rest) a))) :=
  step_event h

/-- Settles O37: a read answers exactly where its address names something. -/
theorem mappedAddressesAnswer : Obligations.MappedAddressesAnswer := by
  intro s a rest hpending region index mapped
  have named : place a = .unmapped ↔ ¬ mapped := by
    rw [place_eq]
    exact placeAt_eq_unmapped_iff (Nat.mod_lt _ (by decide))
  refine ⟨_, step_read hpending, rfl, rfl, rfl, rfl, fun hunmapped => ?unmapped, fun hmapped => ?mapped⟩
  case unmapped =>
    have silent : hostRead (s.setPending rest) a = none := hostRead_eq_none_iff.mpr (named.mpr hunmapped)
    simp only [State.respond_response, readResponse, silent]
  case mapped =>
    have answers : hostRead s a ≠ none := fun silent => named.mp (hostRead_eq_none_iff.mp silent) hmapped
    obtain ⟨w, hw⟩ := Option.ne_none_iff_exists'.mp answers
    have same : hostRead (s.setPending rest) a = some w := hw
    exact ⟨w, hw, by simp only [State.respond_response, readResponse, same]⟩

/-- Settles O41: the element an address names, with the extension its memory has in R72. -/
theorem readsExtendTheElement : Obligations.ReadsExtendTheElement := by
  intro s i
  exact ⟨fun h => hostRead_byteElement s (sp := .msg) (Nat.lt_succ_of_le h),
    fun h => hostRead_byteElement s (sp := .ecc) (Nat.lt_succ_of_le h),
    fun h => hostRead_halfElement s (sp := .det) (Nat.lt_succ_of_le h),
    fun h => hostRead_byteElement s (sp := .out) (Nat.lt_succ_of_le h),
    fun h => hostRead_halfElement s (sp := .cur) (Nat.lt_succ_of_le h),
    fun h => hostRead_halfElement s (sp := .specLo) (Nat.lt_succ_of_le h),
    fun h => hostRead_halfElement s (sp := .specHi) (Nat.lt_succ_of_le h),
    fun h => hostRead_halfElement s (sp := .outf) (Nat.lt_succ_of_le h),
    fun h => hostRead_halfElement s (sp := .pcm) (Nat.lt_succ_of_le h)⟩

/-- Settles O55: fourteen of the addresses below 24, each with its own register. -/
theorem valueRegistersReadAtTheirAddresses : Obligations.ValueRegistersReadAtTheirAddresses := by
  intro s
  refine ⟨?_, ?_, ?_, ?_, ?_, ?_, ?_, ?_, ?_, ?_, ?_, ?_, ?_, ?_⟩ <;> exact hostRead_register s (by decide)

/-! ### STATUS -/

/-- The fields of STATUS, from the least significant bit up (R24). -/
theorem Regs.statusWord_fields (r : Regs) :
    r.statusWord.extractLsb' 0 4 = r.state.code ∧ r.statusWord.getLsbD 4 = r.specValid ∧
    r.statusWord.getLsbD 5 = r.corrected ∧ r.statusWord.getLsbD 6 = r.uncorrectable ∧
    r.statusWord.getLsbD 7 = r.cmdErr ∧ r.statusWord.extractLsb' 8 4 = r.errc ∧
    r.statusWord.extractLsb' 12 20 = 0#20 := by
  unfold Regs.statusWord
  refine ⟨BitVec.extractLsb'_append_eq_right, ?specValid, ?corrected, ?uncorrectable, ?cmdErr, ?errc, ?zeros⟩
  case errc =>
    refine BitVec.eq_of_getLsbD_eq fun i hi => ?_
    simp (disch := omega) only [BitVec.getLsbD_extractLsb', BitVec.getLsbD_append, if_neg, if_pos]
    have position : 8 + i - 4 - 1 - 1 - 1 - 1 = i := by omega
    rw [position, decide_eq_true hi, Bool.true_and]
  case zeros =>
    refine BitVec.eq_of_getLsbD_eq fun i hi => ?_
    simp (disch := omega) only [BitVec.getLsbD_extractLsb', BitVec.getLsbD_append, if_neg]
    simp
  all_goals
    simp only [BitVec.getLsbD_append]
    simp

/-- Settles O43: the fields of STATUS, and the pins by the codes of STATE they stand for. -/
theorem statusWordHoldsItsFields : Obligations.StatusWordHoldsItsFields := by
  intro s
  obtain ⟨hstate, hfields⟩ := s.regs.statusWord_fields
  refine ⟨s.regs.statusWord, hostRead_register s (by decide), hstate.trans ?codes, ?_⟩
  case codes => cases s.regs.state <;> rfl
  obtain ⟨hspec, hcorr, hunc, hcmd, herrc, hzeros⟩ := hfields
  refine ⟨hspec, hcorr, hunc, hcmd, herrc, hzeros, ?doneO, ?failO, fun _ => Iff.rfl⟩
  case doneO => rw [hstate]; unfold State.doneO; cases s.regs.state <;> decide
  case failO => rw [hstate]; unfold State.failO; cases s.regs.state <;> decide

/-! ### Writes other than to CMD -/

section
variable {s t : State} {a : Addr} {w : Word} {rest : List HostEvent}

/-- A write that is stored (R72, R79). -/
theorem step_write_stored (h : s.pending = .write a w :: rest) (ha : a ≠ cmdAddr)
    (hstore : hostStore (s.setPending rest) a w = some t) : step s = .next (t.respond (some .ok)) := by
  simp only [step_event h, handleEvent, hostWrite, if_neg ha, hstore]

/-- A write that is refused (R78, R244). -/
theorem step_write_refused (h : s.pending = .write a w :: rest) (ha : a ≠ cmdAddr)
    (hstore : hostStore (s.setPending rest) a w = none) :
    step s = .next ((s.setPending rest).respond (some .busError)) := by
  simp only [step_event h, handleEvent, hostWrite, if_neg ha, hstore]

end

theorem storeRegister_locked {r : Regs} {i : Nat} {w : Word} (h : r.state ≠ .unconfigured) :
    storeRegister r i w = none := if_neg h

/-- The five configuration registers, by their addresses (R22, R26). -/
def Regs.withConfiguration (r : Regs) (i : Nat) (w : Word) : Regs :=
  if i = 4 then { r with payloadFrames := w }
  else if i = 5 then { r with payloadFrameSize := w }
  else if i = 6 then { r with samplesPerFrame := w }
  else if i = 7 then { r with frequencyStart := w }
  else { r with outputGain := w }

theorem storeRegister_open {r : Regs} {i : Nat} (w : Word) (h : r.state = .unconfigured) (low : 4 ≤ i) (high : i ≤ 8) :
    storeRegister r i w = some (r.withConfiguration i w) := by
  unfold storeRegister
  rw [if_pos h]
  interval_cases i <;> rfl

/-- Whether a write to a place is stored, in a state of the core (R71, R78, R79). -/
def Place.Storable (st : CoreState) : Place → Prop
  | .register i => 4 ≤ i ∧ i ≤ 8 ∧ st = .unconfigured
  | .byteElement sp _ => sp.hostWritable = true
  | .halfElement sp _ => sp.hostWritable = true
  | .unmapped => False

theorem storeRegister_isSome_iff {r : Regs} {i : Nat} {w : Word} :
    (storeRegister r i w).isSome = true ↔ 4 ≤ i ∧ i ≤ 8 ∧ r.state = .unconfigured := by
  constructor
  · intro h
    obtain ⟨q, hq⟩ := Option.isSome_iff_exists.mp h
    obtain ⟨hstate, hindex⟩ := storeRegister_cases hq
    exact ⟨by omega, by omega, hstate⟩
  · rintro ⟨low, high, hstate⟩
    rw [storeRegister_open w hstate low high]
    rfl

theorem hostStore_isSome_iff {s : State} {a : Addr} {w : Word} :
    (hostStore s a w).isSome = true ↔ (place a).Storable s.regs.state := by
  unfold hostStore
  cases place a with
  | register i => simpa [Place.Storable] using storeRegister_isSome_iff
  | byteElement sp i => cases h : sp.hostWritable <;> simp [Place.Storable, h]
  | halfElement sp i => cases h : sp.hostWritable <;> simp [Place.Storable, h]
  | unmapped => simp [Place.Storable]

theorem bytePlace_storable_iff {sp : ByteSpace} {i : Nat} {st : CoreState} :
    (bytePlace sp i).Storable st ↔ i < sp.size ∧ sp.hostWritable = true := by
  unfold bytePlace
  split <;> simp_all [Place.Storable]

theorem halfPlace_storable_iff {sp : HalfSpace} {i : Nat} {st : CoreState} :
    (halfPlace sp i).Storable st ↔ i < sp.size ∧ sp.hostWritable = true := by
  unfold halfPlace
  split <;> simp_all [Place.Storable]

/-- The regions R71 lets the host write, by region number and index. -/
theorem placeAt_storable_iff {region index : Nat} {st : CoreState} :
    (placeAt region index).Storable st ↔
      (region = 0 ∧ 4 ≤ index ∧ index ≤ 8 ∧ st = .unconfigured) ∨ (region = 1 ∧ index ≤ 63) ∨
        (region = 2 ∧ index ≤ 127) ∨ (region = 3 ∧ index ≤ 1023) := by
  unfold placeAt
  split
  case h_1 =>
    split
    · simp [Place.Storable]
    · simp [Place.Storable]; omega
  case h_11 => simp_all [Place.Storable]
  case h_2 | h_3 | h_4 =>
    simp [bytePlace_storable_iff, halfPlace_storable_iff, ByteSpace.hostWritable, HalfSpace.hostWritable,
      ByteSpace.size, HalfSpace.size, Config.maxMsg, Config.maxEcc, Config.maxFrames]
    omega
  all_goals
    simp [bytePlace_storable_iff, halfPlace_storable_iff, ByteSpace.hostWritable, HalfSpace.hostWritable]

/-- Settles O38: a write is stored exactly where the place it names takes one, and a refused write leaves the registers
and the memories as they are. -/
theorem refusedWritesChangeNothing : Obligations.RefusedWritesChangeNothing := by
  intro s a w rest hpending ha region index storable
  have stored : (hostStore (s.setPending rest) a w).isSome = true ↔ storable := by
    rw [hostStore_isSome_iff, place_eq]
    exact placeAt_storable_iff
  cases hstore : hostStore (s.setPending rest) a w with
  | none =>
    rw [hstore] at stored
    exact ⟨_, step_write_refused hpending ha hstore, rfl, rfl, fun h => absurd (stored.mpr h) (by simp),
      fun _ => ⟨rfl, rfl, rfl⟩⟩
  | some t =>
    rw [hstore] at stored
    obtain ⟨hpend, -, hcount⟩ := hostStore_host hstore
    exact ⟨_, step_write_stored hpending ha hstore, hpend, hcount, fun _ => rfl, fun h => absurd (stored.mp rfl) h⟩

theorem ne_cmdAddr_of_toNat {a : Addr} (h : 4 ≤ a.toNat) : a ≠ cmdAddr := by
  rintro rfl
  exact absurd h (by decide)

/-- Settles O39: the five addresses are registers, and storing to a register is decided by STATE. -/
theorem configurationRegistersAreLocked : Obligations.ConfigurationRegistersAreLocked := by
  intro s w rest a low high hpending
  have ha := ne_cmdAddr_of_toNat low
  have named :
      hostStore (s.setPending rest) a w = (storeRegister s.regs a.toNat w).map (s.setPending rest).setRegs := by
    simp only [hostStore, place_register (show a.toNat < 24 by omega), State.setPending_regs]
  by_cases hstate : s.regs.state = .unconfigured
  · rw [storeRegister_open w hstate low high] at named
    exact ⟨_, step_write_stored hpending ha named, rfl, rfl, rfl, fun _ => ⟨rfl, rfl⟩, fun h => absurd hstate h⟩
  · rw [storeRegister_locked hstate] at named
    exact ⟨_, step_write_refused hpending ha named, rfl, rfl, rfl, fun h => absurd h hstate, fun _ => ⟨rfl, rfl⟩⟩

/-! ### Writing an element and reading it back -/

theorem zext32_low_byte (w : Word) : zext32 (w.extractLsb' 0 8) = w &&& 0x000000FF#32 := by
  refine BitVec.eq_of_toNat_eq ?_
  rw [BitVec.toNat_and]
  refine Eq.trans ?_ (Nat.and_two_pow_sub_one_eq_mod w.toNat 8).symm
  rw [zext32, BitVec.toNat_setWidth, BitVec.extractLsb'_toNat, Nat.shiftRight_zero]
  omega

theorem sext32_low_half (w : Word) : sext32 (w.extractLsb' 0 16) = (w.setWidth 16).signExtend 32 := by
  rw [sext32]
  congr 1

/-- CMD is no element. -/
theorem ne_cmdAddr_of_place {a : Addr} (h : place a ≠ .register 1) : a ≠ cmdAddr := by
  rintro rfl
  exact h (place_register (by decide))

section
variable {s : State} {w : Word} {rest : List HostEvent} {i : Nat}

/-- A write to an element of a byte memory the host may write (R72). -/
theorem step_write_byteElement {sp : ByteSpace} (hi : i < sp.size) (hsp : sp.hostWritable = true)
    (h : s.pending = .write (BitVec.ofNat 24 (sp.base + i)) w :: rest) :
    step s = .next (((s.setPending rest).storeBytes sp i [w.extractLsb' 0 8]).respond (some .ok)) := by
  refine step_write_stored h (ne_cmdAddr_of_place (by rw [place_byteElement hi]; simp)) ?_
  simp only [hostStore, place_byteElement hi, if_pos hsp]

/-- A write to an element of a 16-bit memory the host may write (R72). -/
theorem step_write_halfElement {sp : HalfSpace} (hi : i < sp.size) (hsp : sp.hostWritable = true)
    (h : s.pending = .write (BitVec.ofNat 24 (sp.base + i)) w :: rest) :
    step s = .next (((s.setPending rest).storeHalves sp i [w.extractLsb' 0 16]).respond (some .ok)) := by
  refine step_write_stored h (ne_cmdAddr_of_place (by rw [place_halfElement hi]; simp)) ?_
  simp only [hostStore, place_halfElement hi, if_pos hsp]

end

/-- One stored byte reads back, and no other element of the byte memories changes. -/
theorem State.byteAt_storeBytes_singleton (s : State) (sp sp' : ByteSpace) (i j : Nat) (v : Byte) :
    (s.storeBytes sp i [v]).byteAt sp' j = if sp' = sp ∧ j = i then v else s.byteAt sp' j := by
  rw [State.byteAt_storeBytes, List.length_singleton]
  by_cases h : sp' = sp ∧ j = i
  · rw [if_pos h, if_pos ⟨h.1, by omega, by omega⟩, h.2, Nat.sub_self]
    rfl
  · rw [if_neg h, if_neg fun range => h ⟨range.1, by omega⟩]

/-- One stored 16-bit element reads back, and no other element of the 16-bit memories changes. -/
theorem State.halfAt_storeHalves_singleton (s : State) (sp sp' : HalfSpace) (i j : Nat) (v : Half) :
    (s.storeHalves sp i [v]).halfAt sp' j = if sp' = sp ∧ j = i then v else s.halfAt sp' j := by
  rw [State.halfAt_storeHalves, List.length_singleton]
  by_cases h : sp' = sp ∧ j = i
  · rw [if_pos h, if_pos ⟨h.1, by omega, by omega⟩, h.2, Nat.sub_self]
    rfl
  · rw [if_neg h, if_neg fun range => h ⟨range.1, by omega⟩]

/-- Settles O40: the write is a store of one element, which reads back extended. -/
theorem writtenElementsReadBack : Obligations.WrittenElementsReadBack := by
  intro s w rest i
  refine ⟨fun sp base hsp hpending => ?byte, fun hi hpending => ?half⟩
  case byte =>
    obtain ⟨hbase, hi, writable⟩ : base = sp.base ∧ i < sp.size ∧ sp.hostWritable = true := by
      obtain ⟨rfl, rfl, hi⟩ | ⟨rfl, rfl, hi⟩ := hsp <;> exact ⟨rfl, hi, rfl⟩
    subst hbase
    refine ⟨_, step_write_byteElement hi writable hpending, rfl, rfl, rfl, rfl, ?read, fun sp' j other => ?frame,
      fun sp' j => ?halves⟩
    case read =>
      rw [hostRead_byteElement _ hi, State.byteAt_respond, State.byteAt_storeBytes_singleton, if_pos ⟨rfl, rfl⟩,
        zext32_low_byte]
    case frame => rw [State.byteAt_respond, State.byteAt_storeBytes_singleton, if_neg other, State.byteAt_setPending]
    case halves => rw [State.halfAt_respond, State.halfAt_storeBytes, State.halfAt_setPending]
  case half =>
    refine ⟨_, step_write_halfElement (sp := .det) hi rfl hpending, rfl, rfl, rfl, rfl, ?readHalf,
      fun sp' j other => ?frameHalf, fun sp' j => ?bytes⟩
    case readHalf =>
      refine (hostRead_halfElement _ (sp := .det) hi).trans ?_
      rw [State.halfAt_respond, State.halfAt_storeHalves_singleton, if_pos (And.intro rfl rfl), ← sext32_low_half]
      rfl
    case frameHalf =>
      rw [State.halfAt_respond, State.halfAt_storeHalves_singleton, if_neg other, State.halfAt_setPending]
    case bytes => rw [State.byteAt_respond, State.byteAt_storeHalves, State.byteAt_setPending]

end Sys2Proof.Machine
end

section
/-! PROOFS. The checks of the sine ROM, the capability of the code, and ENCODE, CORRECT and DECODE where they complete
(spec 41_spectrum R146; 43_ecc R193 to R199; 44_decoder R220 to R227). -/

namespace Sys2Proof.Machine

/-! ### The first quarter wave -/

theorem sin1024_eq_sineQuarter {m : Nat} (h : m ≤ 256) : sin1024 m = sineQuarter m := by
  rw [sin1024_eq_sineHalf (by omega), sineHalf_eq_sineQuarter h]

theorem sineQuarter_strictlyRises : ∀ m, m < 256 → sineQuarter m < sineQuarter (m + 1) := by decide +kernel

/-- The exclusive-or of R146's table. -/
theorem xor_sineQuarter : (List.range 257).foldl (fun x m => x ^^^ sineQuarter m) 0 = 24332 := by decide +kernel

/-- Settles O19: on the first quarter wave `sin1024` is R146's table, whose checks are closed. -/
theorem sineRomQuarterWaveChecks : Obligations.SineRomQuarterWaveChecks := by
  refine ⟨rfl, rfl, rfl, rfl, rfl, ?sum, ?xor, ?rises⟩
  case sum =>
    have table : ∑ m ∈ Finset.range 257, sin1024 m = ((∑ m ∈ Finset.range 257, sineQuarter m : Nat) : Int) := by
      rw [Nat.cast_sum]
      exact Finset.sum_congr rfl fun m hm => sin1024_eq_sineQuarter (Nat.le_of_lt_succ (Finset.mem_range.mp hm))
    exact table.trans (congrArg Nat.cast sum_sineQuarter)
  case xor =>
    refine Eq.trans (List.foldl_ext _ _ 0 fun x m hm => ?_) xor_sineQuarter
    rw [sin1024_eq_sineQuarter (Nat.le_of_lt_succ (List.mem_range.mp hm)), Int.toNat_natCast]
  case rises =>
    intro m hm
    rw [sin1024_eq_sineQuarter (by omega), sin1024_eq_sineQuarter (by omega)]
    exact Int.ofNat_lt.mpr (sineQuarter_strictlyRises m hm)

/-! ### The capability of the code -/

/-- A codeword has syndrome 0, and the syndrome is linear: only the error pattern counts (R193). -/
theorem eccSyndrome_codeword_xor (d : Nibble) (e : Byte) : eccSyndrome (eccEncNibble d ^^^ e) = eccSyndrome e := by
  revert d e; decide +kernel

/-- A codeword has even parity, so the parity is that of the error pattern (R193). -/
theorem eccParity_codeword_xor (d : Nibble) (e : Byte) : eccParity (eccEncNibble d ^^^ e) = eccParity e := by
  revert d e; decide +kernel

/-- The code is systematic: the high nibble of a codeword is its payload (R191). -/
theorem highNibble_codeword_xor (d : Nibble) (e : Byte) :
    highNibble (eccEncNibble d ^^^ e) = d ^^^ highNibble e := by
  revert d e; decide +kernel

/-- What the decoder makes of a codeword with an error pattern is what it makes of the pattern alone, with the payload
added to the nibble (R193, R199). -/
theorem eccDecByte_codeword_xor (d : Nibble) (e : Byte) :
    eccDecByte (eccEncNibble d ^^^ e) =
      { nibble := d ^^^ (eccDecByte e).nibble, corr := (eccDecByte e).corr, unc := (eccDecByte e).unc } := by
  unfold eccDecByte
  rw [eccParity_codeword_xor, eccSyndrome_codeword_xor, BitVec.xor_assoc, highNibble_codeword_xor,
    highNibble_codeword_xor]
  split
  · rfl
  · split <;> rfl

/-- The decoder on an error pattern alone, by its weight: the flags it raises and what it adds to the nibble (R199). -/
theorem eccDecByte_by_weight (e : Byte) :
    let a := eccDecByte e
    (byteWeight e = 0 → a.nibble = 0#4 ∧ a.corr = false ∧ a.unc = false) ∧
    (byteWeight e = 1 → a.nibble = 0#4 ∧ a.corr = true ∧ a.unc = false) ∧
    (byteWeight e = 2 → a.unc = true ∧ a.corr = false) ∧
    (byteWeight e = 3 → a.nibble ≠ 0#4 ∧ a.corr = true ∧ a.unc = false) ∧
    (byteWeight e = 4 → a.unc = true ∨ (a.nibble ≠ 0#4 ∧ a.corr = false ∧ a.unc = false)) ∧
    (byteWeight e = 5 → a.nibble ≠ 0#4 ∧ a.corr = true ∧ a.unc = false) ∧
    (byteWeight e = 6 → a.unc = true) ∧
    (byteWeight e = 7 → a.nibble = 15#4 ∧ a.corr = true ∧ a.unc = false) ∧
    (byteWeight e = 8 → a.nibble ≠ 0#4 ∧ a.corr = false ∧ a.unc = false) := by
  revert e; decide +kernel

/-- Of the 70 patterns of weight 4, 56 are detected and 14 lead to another codeword (R199). -/
theorem weight_four_counts :
    (List.range 256).countP (fun e => decide (byteWeight (BitVec.ofNat 8 e) = 4) &&
      (eccDecByte (BitVec.ofNat 8 e)).unc) = 56 ∧
    (List.range 256).countP (fun e => decide (byteWeight (BitVec.ofNat 8 e) = 4) &&
      !(eccDecByte (BitVec.ofNat 8 e)).unc) = 14 := by decide +kernel

theorem nibble_xor_eq_self_iff (d x : Nibble) : d ^^^ x = d ↔ x = 0#4 := by
  revert d x; decide

/-- Settles O21: by linearity the answer for a codeword is the answer for the error pattern alone, which depends on its
weight. -/
theorem capabilityOfTheCode : Obligations.CapabilityOfTheCode := by
  refine ⟨fun d e => ?answers, fun d => ?counts⟩
  case answers =>
    have complement : d ^^^ 15#4 = ~~~d := by revert d; decide
    have same : ∀ x : Nibble, x = 0#4 → d ^^^ x = d := fun x => (nibble_xor_eq_self_iff d x).mpr
    have other : ∀ x : Nibble, x ≠ 0#4 → d ^^^ x ≠ d := fun x => mt (nibble_xor_eq_self_iff d x).mp
    obtain ⟨zero, one, two, three, four, five, six, seven, eight⟩ := eccDecByte_by_weight e
    simp only [eccDecByte_codeword_xor]
    exact ⟨fun h => (zero h).imp_left (same _), fun h => (one h).imp_left (same _), two,
      fun h => (three h).imp_left (other _), fun h => (four h).imp_right (And.imp_left (other _)),
      fun h => (five h).imp_left (other _), six, fun h => (seven h).imp_left fun hnibble => by rw [hnibble, complement],
      fun h => (eight h).imp_left (other _)⟩
  case counts =>
    simp only [eccDecByte_codeword_xor]
    exact weight_four_counts

/-! ### ENCODE -/

theorem encodedBlock_even (s : State) (p : Nat) :
    encodedBlock s (2 * p) = eccEncNibble (highNibble (s.byteAt .msg p)) := by
  have position : 2 * p % 2 = 0 ∧ 2 * p / 2 = p := by omega
  rw [encodedBlock, position.2, if_pos position.1]

theorem encodedBlock_odd (s : State) (p : Nat) :
    encodedBlock s (2 * p + 1) = eccEncNibble (lowNibble (s.byteAt .msg p)) := by
  have position : ¬ (2 * p + 1) % 2 = 0 ∧ (2 * p + 1) / 2 = p := by omega
  rw [encodedBlock, position.2, if_neg position.1]

/-- Settles O23: the rule is ecc_encode and two register writes. -/
theorem encodeWritesTheCodewords : Obligations.EncodeWritesTheCodewords := by
  intro size s hstate hcap hsize
  have run := (exec_constructed (i := .encode size) rfl hstate).trans (runEncode_fits hcap hsize)
  refine ⟨_, run, eccEncode_host size s, rfl, fun p hp => ⟨?high, ?low⟩, fun j hj => ?beyond, fun j => ?msg,
    fun j => ?out, fun sp j => eccEncode_halfAt size s sp j⟩
  case high => rw [State.byteAt_setRegs, eccEncode_byteAt, if_pos ⟨rfl, by omega⟩, encodedBlock_even]; rfl
  case low => rw [State.byteAt_setRegs, eccEncode_byteAt, if_pos ⟨rfl, by omega⟩, encodedBlock_odd]; rfl
  case beyond => rw [State.byteAt_setRegs, eccEncode_byteAt, if_neg (by omega)]
  case msg => rw [State.byteAt_setRegs, eccEncode_byteAt, if_neg (by simp)]
  case out => rw [State.byteAt_setRegs, eccEncode_byteAt, if_neg (by simp)]

theorem SameHost.symm {s t : State} (h : SameHost s t) : SameHost t s := by
  obtain ⟨hp, hr, hf⟩ := h
  exact ⟨hp.symm, hr.symm, hf.symm⟩

theorem SameHost.trans {s t u : State} (h : SameHost s t) (g : SameHost t u) : SameHost s u := by
  obtain ⟨hp, hr, hf⟩ := h
  obtain ⟨gp, gr, gf⟩ := g
  exact ⟨gp.trans hp, gr.trans hr, gf.trans hf⟩

/-! ### The correction CORRECT and DECODE share -/

/-- ecc_correct(pairs) and the end after it (R196, R198, R220). -/
def correction (pairs : Nat) (s : State) : State := finishCorrection pairs (eccCorrect pairs s)

section
variable (pairs : Nat) (s : State)

theorem correction_host : SameHost s (correction pairs s) := finishCorrection_host pairs (eccCorrect pairs s)

theorem correction_byteAt (sp : ByteSpace) (j : Nat) :
    (correction pairs s).byteAt sp j = if sp = .out ∧ j < pairs then decodedByte s j else s.byteAt sp j :=
  (State.byteAt_congr (finishCorrection_mem pairs (eccCorrect pairs s)) sp j).trans (eccCorrect_byteAt pairs s sp j)

@[simp] theorem correction_ecc (j : Nat) : (correction pairs s).byteAt .ecc j = s.byteAt .ecc j :=
  (correction_byteAt pairs s .ecc j).trans (if_neg (by simp))

@[simp] theorem correction_msg (j : Nat) : (correction pairs s).byteAt .msg j = s.byteAt .msg j :=
  (correction_byteAt pairs s .msg j).trans (if_neg (by simp))

@[simp] theorem correction_halfAt (sp : HalfSpace) (j : Nat) : (correction pairs s).halfAt sp j = s.halfAt sp j :=
  (State.halfAt_congr (finishCorrection_mem pairs (eccCorrect pairs s)) sp j).trans (eccCorrect_halfAt pairs s sp j)

end

section
variable {pairs : Nat} {s : State}

theorem correction_wf (hpairs : pairs ≤ 64) (hm : s.mem.wf = true) : (correction pairs s).mem.wf = true :=
  (congrArg Memory.wf (finishCorrection_mem pairs (eccCorrect pairs s))).trans (eccCorrect_wf hpairs hm)

/-- The registers where every block is clean or corrected. -/
theorem correction_done (h : anyUncorrectable s (2 * pairs) = false) :
    (correction pairs s).regs =
      { s.regs.withEccFlags (correctedBlocks s (2 * pairs)) false with
        outLen := BitVec.ofNat 32 pairs, result := BitVec.ofNat 32 pairs, state := .done } := by
  rw [correction, finishCorrection_done h, eccCorrect_regs, h]

/-- The registers where a block is uncorrectable. -/
theorem correction_failed (h : anyUncorrectable s (2 * pairs) = true) :
    (correction pairs s).regs =
      { s.regs.withEccFlags (correctedBlocks s (2 * pairs)) true with
        outLen := 0#32, result := 0xFFFFFFFF#32, errc := 1#4, state := .failed } := by
  rw [correction, finishCorrection_failed h, eccCorrect_regs, h]
  rfl

end

/-- CORRECT on a length that passes its checks is the correction of the received blocks. -/
theorem runCorrect_eq_correction {length : Nat} {s : State} (hcap : length ≤ 2 * s.regs.capacity)
    (heven : length % 2 = 0) (hlen : length ≤ 128) :
    runCorrect length s = .next (correction (length / 2) (correctStart length s)) := runCorrect_fits hcap heven hlen

/-- Settles O24: CORRECT is `correction` on the received blocks, with STATE and ECC_LEN set first. -/
theorem correctRecoversOrFails : Obligations.CorrectRecoversOrFails := by
  intro length s hstate hcap heven hlen block count bad
  have run := (exec_constructed (i := .correct length) rfl hstate).trans (runCorrect_eq_correction hcap heven hlen)
  have blocks : 2 * (length / 2) = length := by omega
  refine ⟨_, run, correction_host _ _, ?regs, fun p hp => ?out, fun p hp => ?beyond, correction_msg _ _,
    correction_ecc _ _, correction_halfAt _ _⟩
  case regs =>
    have hbad : anyUncorrectable (correctStart length s) (2 * (length / 2)) = bad := by rw [blocks]; rfl
    have hcount : correctedBlocks (correctStart length s) (2 * (length / 2)) = count := by rw [blocks]; rfl
    cases h : bad with
    | true => rw [correction_failed (hbad.trans h), hcount]; rfl
    | false => rw [correction_done (hbad.trans h), hcount]; rfl
  case out => rw [correction_byteAt, if_pos ⟨rfl, hp⟩]; rfl
  case beyond => rw [correction_byteAt, if_neg (by omega)]; rfl

/-! ### DECODE -/

/-- DECODE on an aligned frame count is the correction of the packed bytes (R220). -/
theorem runDecode_eq_correction {s : State} (hF : s.regs.frames ≤ 1024) :
    runDecode s.regs.frames s = .next (correction (s.regs.frames / 16) (decodeStart s)) := by
  rw [runDecode_fits hF, decodeFrames_eq s hF]
  rfl

theorem detectedBit_eq (s : State) (i : Nat) : detectedBit s i = decide (0 < (s.halfAt .det i).toInt) := by
  rw [Bool.eq_iff_iff, detectedBit, decide_eq_true_iff]
  exact classifyIsStrictlyAboveZero _

theorem bitWord_eq (b : Bool) : bitWord b = if b = true then 1#32 else 0#32 := by cases b <;> rfl

/-- Settles O27: DECODE is `correction` on the packed decisions. -/
theorem decodeRecoversOrFails : Obligations.DecodeRecoversOrFails := by
  intro s hstate hpos hF pairs
  have run := (exec_constructed (i := .decode s.regs.frames) rfl hstate).trans (runDecode_eq_correction hF)
  obtain ⟨⟨fb, hregs, hbit, -⟩, hhost, hhalves, hbytes, hecc, hbeyond, -⟩ := decodeStart_spec s hF
  refine ⟨_, run, hhost.trans (correction_host _ _), ?regs, fun j k hj hk => ?packed, fun j hj => ?tail,
    fun p hp => ?out, fun p hp => ?outTail, fun j => ?msg, fun sp j => ?halves⟩
  case regs =>
    rw [hbit hpos, bitWord_eq, detectedBit_eq] at hregs
    simp only [correction_ecc, decide_eq_true_eq] at hregs ⊢
    have hbad : ((List.range (2 * pairs)).any fun j => (eccDecByte ((decodeStart s).byteAt .ecc j)).unc) =
      anyUncorrectable (decodeStart s) (2 * pairs) := rfl
    have hcount : ((List.range (2 * pairs)).countP fun j => (eccDecByte ((decodeStart s).byteAt .ecc j)).corr) =
      correctedBlocks (decodeStart s) (2 * pairs) := rfl
    rw [hbad, hcount]
    cases h : anyUncorrectable (decodeStart s) (2 * pairs) with
    | true => rw [correction_failed h, hregs]; rfl
    | false => rw [correction_done h, hregs]; rfl
  case packed =>
    have bit := hecc j ⟨7 - k, by omega⟩ hj
    have position : 7 - (7 - k) = k := by omega
    simp only [position, detectedBit_eq] at bit
    rw [correction_ecc, bit]
    rfl
  case tail => rw [correction_ecc, hbeyond j hj]
  case out => rw [correction_byteAt, if_pos ⟨rfl, hp⟩, correction_ecc, correction_ecc]; rfl
  case outTail => rw [correction_byteAt, if_neg (by omega), hbytes _ _ (by decide)]
  case msg => rw [correction_msg, hbytes _ _ (by decide)]
  case halves => rw [correction_halfAt, hhalves]

end Sys2Proof.Machine
end

section
/-! PROOFS. GEN_SPECTRUM, write_frame and amplify_signal on one frame, and GEN_PCM complete (spec 41_spectrum R140 to
R144; 42_modulator R160 to R168). -/

namespace Sys2Proof.Machine

/-! ### GEN_SPECTRUM -/

/-- The state after GEN_SPECTRUM from Idle (R140, R141). -/
def spectrumWritten (s : State) : State :=
  (generateSpectrum s).setRegs
    { s.regs with specValid := true, state := .spectrumReady, result := s.regs.payloadFrames }

section
variable {s : State}

/-- The geometry's part of the registers outlasts generate_spectrum (R141). -/
theorem generateSpectrum_geometry (hN : s.regs.samples ≤ 1024) :
    (generateSpectrum s).regs.frames = s.regs.frames ∧ (generateSpectrum s).regs.samples = s.regs.samples ∧
      (generateSpectrum s).regs.baseBin = s.regs.baseBin := by
  rw [generateSpectrum_regs s hN]
  exact ⟨rfl, rfl, rfl⟩

/-- The coefficients of row i, by the geometry before the command (R141, R142). -/
theorem generateSpectrum_row (hN : s.regs.samples ≤ 1024) {i b : Nat} (hi : i < s.regs.frames)
    (hb : b < s.regs.samples / 2) :
    (generateSpectrum s).halfAt .specLo (specIndex i b) =
      (if b = toneLo s.regs.baseBin i then 0x8000#16 else 0#16) ∧
    (generateSpectrum s).halfAt .specHi (specIndex i b) =
      (if b = toneHi s.regs.baseBin i then 0x8000#16 else 0#16) := by
  obtain ⟨hF', hN', hk'⟩ := generateSpectrum_geometry hN
  have row := generateSpectrum_tables s hN i b (hF' ▸ hi) (hN' ▸ hb)
  rwa [hk'] at row

/-- What generate_spectrum keeps: every element outside the rows and columns of the geometry (R141). -/
theorem spectrumElement_outside {rows : Nat} {j : Nat} (h : rows ≤ j / 512 ∨ s.regs.samples / 2 ≤ j % 512)
    (sp : HalfSpace) : spectrumElement s rows sp j = s.halfAt sp j :=
  if_neg (by omega)

/-- Only the two tables are written (R141). -/
theorem spectrumElement_other {sp : HalfSpace} (hlo : sp ≠ .specLo) (hhi : sp ≠ .specHi) (rows j : Nat) :
    spectrumElement s rows sp j = s.halfAt sp j := by
  unfold spectrumElement
  split
  · cases sp with
    | specLo => exact absurd rfl hlo
    | specHi => exact absurd rfl hhi
    | det | cur | outf | pcm => rfl
  · rfl

/-- Inside the rows and columns of the geometry, a table's new element does not depend on the memories (R142, R144). -/
theorem spectrumElement_inside {rows j : Nat} (h : j / 512 < rows ∧ j % 512 < s.regs.samples / 2) :
    spectrumElement s rows .specLo j = (if j % 512 = toneLo s.regs.baseBin (j / 512) then 0x8000#16 else 0#16) ∧
    spectrumElement s rows .specHi j = (if j % 512 = toneHi s.regs.baseBin (j / 512) then 0x8000#16 else 0#16) :=
  ⟨if_pos h, if_pos h⟩

/-- GEN_SPECTRUM in Idle, on a geometry whose elements exist (R106, R140). -/
theorem exec_genSpectrum (imm : Nat) (hidle : s.regs.state = .idle) (hfit : s.regs.geometryFits = true) :
    exec (.genSpectrum imm) s = .next (spectrumWritten s) := by
  refine (exec_legal (i := .genSpectrum imm) (decide_eq_true hidle)).trans ((runGenSpectrum_fits hfit).trans ?_)
  rw [generateSpectrum_regs s (s.regs.geometryFits_iff.mp hfit).2, spectrumWritten]

end

/-- Settles O16: the row loop, element by element, and three register writes. -/
theorem genSpectrumFillsTheTables : Obligations.GenSpectrumFillsTheTables := by
  intro imm s hidle hF hN
  refine ⟨_, exec_genSpectrum imm hidle (s.regs.geometryFits_iff.mpr ⟨hF, hN⟩), generateSpectrum_host s hN, rfl,
    fun i b hi hb => generateSpectrum_row hN hi hb, fun j hj => ⟨?lo, ?hi⟩, fun sp hlo hhi j => ?other,
    fun sp j => generateSpectrum_byteAt s hN sp j⟩
  case lo => exact (generateSpectrum_halfAt s hN .specLo j).trans (spectrumElement_outside hj _)
  case hi => exact (generateSpectrum_halfAt s hN .specHi j).trans (spectrumElement_outside hj _)
  case other => exact (generateSpectrum_halfAt s hN sp j).trans (spectrumElement_other hlo hhi _ j)

/-- Settles O17: the tables hold the geometry's spectra whatever stood in them, so equal geometries give equal tables,
and a second pass finds what it writes. -/
theorem spectraAreDeterministicAndIdempotent : Obligations.SpectraAreDeterministicAndIdempotent := by
  refine ⟨fun s u hframes hsamples hbase hN i b hi hb => ?deterministic, fun s hN => ⟨?regs, ?bytes, ?halves⟩⟩
  case deterministic =>
    have hNu : u.regs.samples ≤ 1024 := by rwa [Regs.samples, ← hsamples]
    obtain ⟨sF, sN, sk⟩ := generateSpectrum_geometry hN
    obtain ⟨uF, uN, uk⟩ := generateSpectrum_geometry hNu
    refine (generateSpectrum_tables s hN).agree (generateSpectrum_tables u hNu) ?_ ?_ ?_ (sF ▸ hi) (sN ▸ hb)
    · rw [sF, uF, Regs.frames, Regs.frames, hframes]
    · rw [sN, uN, Regs.samples, Regs.samples, hsamples]
    · rw [sk, uk, Regs.baseBin, Regs.baseBin, hbase]
  all_goals
    obtain ⟨hF', hN', hk'⟩ := generateSpectrum_geometry hN
    have hNg : (generateSpectrum s).regs.samples ≤ 1024 := by rwa [hN']
  case regs => rw [generateSpectrum_regs _ hNg, generateSpectrum_regs s hN]
  case bytes => exact fun sp j => generateSpectrum_byteAt _ hNg sp j
  case halves =>
    intro sp j
    rw [generateSpectrum_halfAt _ hNg, hF']
    by_cases outside : s.regs.frames ≤ j / 512 ∨ s.regs.samples / 2 ≤ j % 512
    · exact spectrumElement_outside (by rwa [hN']) sp
    · obtain ⟨lo, hi⟩ := spectrumElement_inside (s := s) (rows := s.regs.frames) (j := j) (by omega)
      obtain ⟨lo', hi'⟩ := spectrumElement_inside (s := generateSpectrum s) (rows := s.regs.frames) (j := j)
        (by rw [hN']; omega)
      rw [hk'] at lo' hi'
      by_cases hlo : sp = .specLo
      · rw [hlo, lo', generateSpectrum_halfAt s hN, lo]
      · by_cases hhi : sp = .specHi
        · rw [hhi, hi', generateSpectrum_halfAt s hN, hi]
        · exact spectrumElement_other hlo hhi _ j

/-! ### amplify_signal and write_frame on one frame -/

/-- Settles O29: the two floors of `amplifySample_toInt`, and its bounds on either side of 0. -/
theorem amplifyNeverGrowsASample : Obligations.AmplifyNeverGrowsASample := by
  intro gain weight x hg hw
  obtain ⟨value, nonneg, nonpos⟩ := amplifySample_toInt hg hw x
  refine ⟨value, ?_⟩
  rcases le_total 0 x.toInt with pos | neg
  · have bounds := nonneg pos
    omega
  · have bounds := nonpos neg
    omega

theorem sat16_eq (v : Int) : sat16 v = max (-32768) (min 32767 v) := by
  unfold sat16
  omega

theorem toInt_halfOfInt_sat16 (v : Int) : (halfOfInt (sat16 v)).toInt = sat16 v :=
  toInt_halfOfInt (sat16_range v).1 (sat16_range v).2

/-- The transform's loop over consecutive bins is the sum of its terms (R162). -/
theorem toneSum_eq_sum (samples n : Nat) (c : Nat → Half) (len base : Nat) :
    toneSum samples n base ((List.range' base len).map c) =
      ((List.range' base len).map fun k =>
        ((c k).toNat : Int) * sin1024 (((k * n) % samples) * (1024 / samples))).sum := by
  induction len generalizing base with
  | zero => rfl
  | succ len ih =>
    rw [List.range'_succ, List.map_cons, List.map_cons, List.sum_cons, toneSum, ih]
    rfl

/-- CUR after write_frame; every other element is as before (R162). -/
theorem writeFrame_halfAt (frame : Nat) (s : State) (sp : HalfSpace) (j : Nat) :
    (writeFrame frame s).halfAt sp j =
      if sp = .cur ∧ j < s.regs.samples then frameSample (frameCoefficients s frame) s.regs.samples j
      else s.halfAt sp j := by
  simp [writeFrame, State.halfAt_storeHalves_map]

/-- Settles O31: one stored sample, with the transform's loop as a sum and sat16 as a clamp. -/
theorem writeFrameIsTheInverseSineTransform : Obligations.WriteFrameIsTheInverseSineTransform := by
  intro s frame n hn table acc
  have loop : toneSum s.regs.samples n 0 (frameCoefficients s frame) = acc := by
    unfold frameCoefficients
    rw [List.range_eq_range', toneSum_eq_sum, ← List.range_eq_range']
    rfl
  rw [writeFrame_halfAt, if_pos ⟨rfl, hn⟩, frameSample, loop, toInt_halfOfInt_sat16, sat16_eq]
  rfl

/-- The table FRAME_BIT selects (R162). -/
theorem frameCoefficients_eq {s : State} {bit : Bool} (h : s.regs.frameBit = bitWord bit) (frame : Nat) :
    frameCoefficients s frame = coefficientsFor s bit frame := by
  unfold frameCoefficients coefficientsFor
  rw [h]
  cases bit <;> rfl

theorem toInt_halfOfInt_sin1024 (m : Nat) : (halfOfInt (sin1024 m)).toInt = sin1024 m := by
  have range := sin1024_range m
  exact toInt_halfOfInt (by omega) (by omega)

/-- Settles O30: on tables that hold, the coefficients are the row of one bin, on which the transform is a lookup. -/
theorem writeFrameOfAToneIsARomLookup : Obligations.WriteFrameOfAToneIsARomLookup := by
  intro s frame bit hcfg htables hframe hbit bin
  have row : frameCoefficients s frame = specRow s.regs.samples bin :=
    (frameCoefficients_eq (hbit.trans (bitWord_eq bit).symm) frame).trans (coefficientsFor_tables htables bit hframe)
  refine ⟨fun n hn => ?lookup, fun n hn => ?beyond, rfl, ⟨rfl, rfl, rfl⟩, fun sp j => ?bytes, fun sp hsp j => ?other⟩
  case lookup =>
    rw [writeFrame_halfAt, if_pos ⟨rfl, hn⟩, row, frameSample_specRow (soundedBin_lt hcfg bit frame),
      toInt_halfOfInt_sin1024]
    rfl
  case beyond => rw [writeFrame_halfAt, if_neg (by omega)]
  case bytes => exact State.byteAt_storeHalves _ _ _ _ _ _
  case other => rw [writeFrame_halfAt, if_neg (fun h => hsp h.1)]

/-! ### GEN_PCM -/

section
variable {size : Nat} {s : State}

/-- FRAME_BIT after GEN_PCM: the bit of the last frame (R160, R161). -/
theorem generatePcm_regs (hfit : s.regs.geometryFits = true) (hsize : size ≤ 64) (hpos : 0 < s.regs.frames) :
    (generatePcm size s).regs = { s.regs with
      eccLen := BitVec.ofNat 32 (2 * size)
      specValid := if s.regs.state = .idle then true else s.regs.specValid
      outfLen := BitVec.ofNat 32 (s.regs.frames * s.regs.samples)
      pcmLen := BitVec.ofNat 32 (s.regs.frames * s.regs.samples)
      frameIdx := s.regs.payloadFrames
      frameBit := bitWord (sentBit s size (s.regs.frames - 1))
      result := BitVec.ofNat 32 (s.regs.frames * s.regs.samples)
      state := .finalized } := by
  obtain ⟨fb, hregs, hbit, -⟩ := (generatePcm_spec size hfit).regs
  rw [hregs, hbit hpos, frameBitOf_pcmStart hfit hsize]

theorem generatePcm_byteAt (hfit : s.regs.geometryFits = true) (sp : ByteSpace) (j : Nat) :
    (generatePcm size s).byteAt sp j = if sp = .ecc ∧ j < 2 * size then encodedBlock s j else s.byteAt sp j :=
  ((generatePcm_spec size hfit).bytes sp j).trans (pcmStart_byteAt hfit sp j)

/-- DET and what the tables hold outside the geometry outlast the command (R141, R160). -/
theorem generatePcm_halfAt_kept (hfit : s.regs.geometryFits = true) {sp : HalfSpace} {j : Nat}
    (h : sp = .det ∨ ((sp = .specLo ∨ sp = .specHi) ∧ (s.regs.frames ≤ j / 512 ∨ s.regs.samples / 2 ≤ j % 512))) :
    (generatePcm size s).halfAt sp j = s.halfAt sp j := by
  have frame : spectrumElement s s.regs.frames sp j = s.halfAt sp j := by
    obtain rfl | ⟨-, outside⟩ := h
    · exact spectrumElement_other (by decide) (by decide) _ j
    · exact spectrumElement_outside outside sp
  have apart : sp ≠ .cur ∧ sp ≠ .outf ∧ sp ≠ .pcm := by
    obtain rfl | ⟨rfl | rfl, -⟩ := h <;> decide
  rw [(generatePcm_spec size hfit).halves _ _ apart.1 apart.2.1 apart.2.2, pcmStart_halfAt hfit, frame, ite_self]

end

/-- Sample n of frame i stands at i × N + n of OUTF and PCM (R165, R166). -/
theorem samplePosition {F N i n : Nat} (hi : i < F) (hn : n < N) :
    i * N + n < F * N ∧ (i * N + n) / N = i ∧ (i * N + n) % N = n := by
  have within : (i + 1) * N ≤ F * N := Nat.mul_le_mul_right N hi
  rw [Nat.add_mul, Nat.one_mul] at within
  refine ⟨by omega, ?_, ?_⟩
  · rw [Nat.mul_comm, Nat.mul_add_div (by omega), Nat.div_eq_of_lt hn, Nat.add_zero]
  · rw [Nat.mul_comm, Nat.mul_add_mod, Nat.mod_eq_of_lt hn]

/-- Settles O32: everything `generatePcm_spec` says, with the samples, the blocks and the last bit in closed form. -/
theorem genPcmSynthesisesThePayload : Obligations.GenPcmSynthesisesThePayload := by
  intro size s ready hsize F N
  have legal := s.regs.legal_of_cfgOk ready.geometry.1
  have hpos : 0 < s.regs.frames := by omega
  have hfit := ready.fits
  have after := generatePcm_spec size hfit
  refine ⟨_, ready.exec_genPcm hsize, after.host, ?regs, fun p hp => ⟨?high, ?low⟩, fun j hj => ?eccTail,
    fun j => ?msg, fun j => ?out, fun j => generatePcm_halfAt_kept hfit (.inl rfl), ready.generatePcm_tablesHold,
    fun j hj => ⟨generatePcm_halfAt_kept hfit (.inr ⟨.inl rfl, hj⟩),
      generatePcm_halfAt_kept hfit (.inr ⟨.inr rfl, hj⟩)⟩,
    fun i n hi hn => ?samples, fun j hj => ?copies, fun j hj => ⟨?outfTail, ?pcmTail⟩, fun n hn => ?last,
    fun n hn => ?curTail⟩
  case regs => rw [generatePcm_regs hfit (ready.size_le hsize) hpos, bitWord_eq]
  case high => rw [generatePcm_ecc hfit (by omega), encodedBlock_even]
  case low => rw [generatePcm_ecc hfit (by omega), encodedBlock_odd]
  case eccTail => rw [generatePcm_byteAt hfit, if_neg (by omega)]
  case msg => rw [generatePcm_byteAt hfit, if_neg (by simp)]
  case out => rw [generatePcm_byteAt hfit, if_neg (by simp)]
  case samples =>
    obtain ⟨within, frame, sample⟩ := samplePosition hi hn
    rw [ready.generatePcm_sample hsize (.inr rfl) within, frame, sample]
  case copies => rw [after.output _ _ (.inl rfl), after.output _ _ (.inr rfl), if_pos hj, if_pos hj]
  case outfTail => rw [after.output _ _ (.inl rfl), if_neg (Nat.not_lt.mpr hj)]
  case pcmTail => rw [after.output _ _ (.inr rfl), if_neg (Nat.not_lt.mpr hj)]
  case last =>
    obtain ⟨within, frame, sample⟩ := samplePosition (F := s.regs.frames) (i := s.regs.frames - 1) (by omega) hn
    rw [after.cur, if_pos ⟨hpos, hn⟩, after.output _ _ (.inr rfl), if_pos within, frame, sample]
  case curTail => rw [after.cur, if_neg (by omega)]

/-! ### GEN_SPECTRUM before GEN_PCM -/

/-- An output sample is a function of four registers, of ECC and of the two tables (R161 to R163). -/
theorem outputSample_congr {s t : State} (hgain : t.regs.gain = s.regs.gain) (hN : t.regs.samples = s.regs.samples)
    (hlen : t.regs.eccLen = s.regs.eccLen) (hecc : ∀ j, t.byteAt .ecc j = s.byteAt .ecc j)
    (hlo : SameHalves .specLo s t) (hhi : SameHalves .specHi s t) (i n : Nat) :
    outputSample t i n = outputSample s i n := by
  have row : ∀ bit, coefficientsFor t bit i = coefficientsFor s bit i := by
    intro bit
    unfold coefficientsFor
    rw [hN]
    refine List.map_congr_left fun k _ => ?_
    cases bit
    · exact hlo _
    · exact hhi _
  rw [outputSample, outputSample, hgain, hN, frameBitOf_congr hlen hecc, row]

section
variable {size : Nat} {s : State}

/-- A constructed core in Idle is ready, before GEN_SPECTRUM and after it. -/
theorem ready_spectrumWritten (hgeometry : s.regs.Constructed) : Ready (spectrumWritten s) where
  geometry := hgeometry
  state := .inr rfl
  tables := by
    intro _ i b hi hb
    exact generateSpectrum_row (s.regs.geometryFits_iff.mp (Regs.fits_of_cfgOk hgeometry.1)).2 hi hb

theorem spectrumWritten_host (hN : s.regs.samples ≤ 1024) : SameHost s (spectrumWritten s) :=
  generateSpectrum_host s hN

theorem spectrumWritten_byteAt (hN : s.regs.samples ≤ 1024) (sp : ByteSpace) (j : Nat) :
    (spectrumWritten s).byteAt sp j = s.byteAt sp j := generateSpectrum_byteAt s hN sp j

theorem spectrumWritten_halfAt (hN : s.regs.samples ≤ 1024) (sp : HalfSpace) (j : Nat) :
    (spectrumWritten s).halfAt sp j = spectrumElement s s.regs.frames sp j := generateSpectrum_halfAt s hN sp j

/-- The frame loop finds the same memories, whether GEN_PCM writes the tables or finds them written (R144, R160). -/
theorem pcmStart_spectrumWritten (hidle : s.regs.state = .idle) (hfit : s.regs.geometryFits = true) :
    (∀ sp j, (pcmStart size (spectrumWritten s)).byteAt sp j = (pcmStart size s).byteAt sp j) ∧
    ∀ sp j, (pcmStart size (spectrumWritten s)).halfAt sp j = (pcmStart size s).halfAt sp j := by
  have hN := (s.regs.geometryFits_iff.mp hfit).2
  have hfit' : (spectrumWritten s).regs.geometryFits = true := hfit
  refine ⟨fun sp j => ?_, fun sp j => ?_⟩
  · have block : encodedBlock (spectrumWritten s) j = encodedBlock s j := by
      simp only [encodedBlock, spectrumWritten_byteAt hN]
    rw [pcmStart_byteAt hfit', pcmStart_byteAt hfit, block, spectrumWritten_byteAt hN]
  · have busy : (spectrumWritten s).regs.state ≠ .idle := fun h => by cases h
    rw [pcmStart_halfAt hfit', pcmStart_halfAt hfit, if_neg busy, if_pos hidle, spectrumWritten_halfAt hN]

/-- Every output sample is the same on both routes. -/
theorem outputSample_spectrumWritten (hidle : s.regs.state = .idle) (hfit : s.regs.geometryFits = true) (i n : Nat) :
    outputSample (pcmStart size (spectrumWritten s)) i n = outputSample (pcmStart size s) i n := by
  obtain ⟨bytes, halves⟩ := pcmStart_spectrumWritten (size := size) hidle hfit
  have regs := pcmStart_regs (size := size) hfit
  have regs' := pcmStart_regs (size := size) (s := spectrumWritten s) hfit
  refine outputSample_congr ?_ ?_ ?_ (bytes .ecc) (halves .specLo) (halves .specHi) i n
  · rw [regs, regs']; rfl
  · rw [regs, regs']; rfl
  · rw [regs, regs']

/-- Both routes end with the same elements in all nine memories. -/
theorem generatePcm_spectrumWritten_sameMemory (hidle : s.regs.state = .idle) (hfit : s.regs.geometryFits = true) :
    SameMemory (generatePcm size s) (generatePcm size (spectrumWritten s)) := by
  have hN := (s.regs.geometryFits_iff.mp hfit).2
  obtain ⟨bytes, halves⟩ := pcmStart_spectrumWritten (size := size) hidle hfit
  have sample := outputSample_spectrumWritten (size := size) hidle hfit
  have direct := generatePcm_spec size hfit
  have after := generatePcm_spec size (s := spectrumWritten s) hfit
  have frames : (spectrumWritten s).regs.frames = s.regs.frames := rfl
  have samples : (spectrumWritten s).regs.samples = s.regs.samples := rfl
  have kept : ∀ sp j, sp ≠ .specLo → sp ≠ .specHi → (spectrumWritten s).halfAt sp j = s.halfAt sp j :=
    fun sp j hlo hhi => (spectrumWritten_halfAt hN sp j).trans (spectrumElement_other hlo hhi _ j)
  refine ⟨fun sp j => by rw [after.bytes, direct.bytes, bytes], fun sp j => ?_⟩
  by_cases cur : sp = .cur
  · rw [cur, after.cur, direct.cur, frames, samples, sample, kept _ _ (by decide) (by decide)]
  · by_cases output : sp = .outf ∨ sp = .pcm
    · rw [after.output _ _ output, direct.output _ _ output, frames, samples, sample,
        kept _ _ (by rintro rfl; simp at output) (by rintro rfl; simp at output)]
    · obtain ⟨outf, pcm⟩ := not_or.mp output
      rw [after.halves _ _ cur outf pcm, direct.halves _ _ cur outf pcm, halves]

end

/-- Settles O34: the tables GEN_SPECTRUM writes are those GEN_PCM would write, so both frame loops start alike. -/
theorem genSpectrumFirstMakesNoDifference : Obligations.GenSpectrumFirstMakesNoDifference := by
  intro size imm s hgeometry hidle hsize
  have ready : Ready s := ⟨hgeometry, .inl hidle, fun h => by rw [hidle] at h; cases h⟩
  have ready' := ready_spectrumWritten hgeometry
  have hfit := ready.fits
  have legal := s.regs.legal_of_cfgOk hgeometry.1
  have hN : s.regs.samples ≤ 1024 := by omega
  refine ⟨_, _, _, ready.exec_genPcm hsize, exec_genSpectrum imm hidle hfit, ready'.exec_genPcm hsize, ?regs,
    generatePcm_spectrumWritten_sameMemory hidle hfit, ?host⟩
  case regs =>
    have hsize64 := ready.size_le hsize
    have bit := sentBit_congr (size := size) (s := spectrumWritten s) (u := s)
      (fun p _ => spectrumWritten_byteAt hN .msg p) (s.regs.frames - 1)
    have frames : (spectrumWritten s).regs.frames = s.regs.frames := rfl
    rw [generatePcm_regs ready'.fits hsize64 (by omega), generatePcm_regs hfit hsize64 (by omega), frames, bit,
      if_pos hidle]
    rfl
  case host =>
    have direct := (generatePcm_spec size hfit).host
    exact direct.symm.trans ((spectrumWritten_host hN).trans (generatePcm_spec size ready'.fits).host)

end Sys2Proof.Machine
end

section
/-! PROOFS. The round trip over two cores: what the receiver packs is the sender's codewords with the wrong frames as
inverted bits, and the code's answer depends on their number (spec 43_ecc R199; 44_decoder R222, R223, R225). -/

namespace Sys2Proof.Machine

/-! ### Blocks by the number of inverted bits -/

theorem byteWeight_eq_zero_iff (e : Byte) : byteWeight e = 0 ↔ e = 0#8 := by
  revert e; decide +kernel

/-- At most one inverted bit is corrected, and `corr` says whether there was one (R199). -/
theorem eccDecByte_of_weight_le_one (d : Nibble) {e : Byte} (h : byteWeight e ≤ 1) :
    eccDecByte (eccEncNibble d ^^^ e) = { nibble := d, corr := decide (byteWeight e = 1), unc := false } := by
  obtain ⟨clean, single, -⟩ := eccDecByte_by_weight e
  rw [eccDecByte_codeword_xor]
  obtain hzero | hone : byteWeight e = 0 ∨ byteWeight e = 1 := by omega
  · obtain ⟨hnibble, hcorr, hunc⟩ := clean hzero
    rw [hnibble, hcorr, hunc, BitVec.xor_zero, hzero]
    rfl
  · obtain ⟨hnibble, hcorr, hunc⟩ := single hone
    rw [hnibble, hcorr, hunc, BitVec.xor_zero, hone]
    rfl

/-- Two inverted bits are detected (R199). -/
theorem eccDecByte_of_weight_two (d : Nibble) {e : Byte} (h : byteWeight e = 2) :
    (eccDecByte (eccEncNibble d ^^^ e)).unc = true := by
  obtain ⟨-, -, double, -⟩ := eccDecByte_by_weight e
  rw [eccDecByte_codeword_xor]
  exact (double h).1

/-- Counting the ones of a byte from the most significant bit down, as frames carry them (R74). -/
theorem byteWeight_eq_countP_descending (c : Byte) :
    byteWeight c = (List.range 8).countP (fun k => c.getLsbD (7 - k)) := by
  have descending : (List.range 8).reverse = (List.range 8).map (7 - ·) := rfl
  rw [byteWeight, ← List.countP_reverse, descending, List.countP_map]
  rfl

/-! ### What the sender's frames carry -/

/-- The nibble of block j when the payload is followed by padding: 0 beyond the payload (R161, R195). -/
def paddedNibble (s : State) (size j : Nat) : Nibble :=
  if j < 2 * size then (if j % 2 = 0 then highNibble (s.byteAt .msg (j / 2)) else lowNibble (s.byteAt .msg (j / 2)))
  else 0#4

section
variable {size : Nat} {s : State}

theorem eccEncNibble_paddedNibble {j : Nat} (hj : j < 2 * size) :
    eccEncNibble (paddedNibble s size j) = encodedBlock s j := by
  rw [paddedNibble, if_pos hj, encodedBlock]

theorem eccEncNibble_paddedNibble_beyond {j : Nat} (hj : 2 * size ≤ j) :
    eccEncNibble (paddedNibble s size j) = 0x00#8 := by
  rw [paddedNibble, if_neg (by omega)]
  rfl

/-- The two nibbles of byte p, inside the payload and beyond it. -/
theorem paddedNibble_append (p : Nat) :
    paddedNibble s size (2 * p) ++ paddedNibble s size (2 * p + 1) =
      if p < size then s.byteAt .msg p else (0x00#8 : Byte) := by
  have high : 2 * p % 2 = 0 ∧ 2 * p / 2 = p := by omega
  have low : ¬ (2 * p + 1) % 2 = 0 ∧ (2 * p + 1) / 2 = p := by omega
  unfold paddedNibble
  by_cases hp : p < size
  · rw [if_pos hp, if_pos (by omega), if_pos high.1, if_pos (by omega), if_neg low.1, high.2, low.2]
    exact nibbles_append _
  · rw [if_neg hp, if_neg (by omega), if_neg (by omega)]
    rfl

/-- Eight frames carry one block, padding included (R74, R161). -/
theorem sentBit_eq_getLsbD (j : Nat) {k : Nat} (hk : k < 8) :
    sentBit s size (8 * j + k) = (eccEncNibble (paddedNibble s size j)).getLsbD (7 - k) := by
  have group : (8 * j + k) / 8 = j := by omega
  have position : (8 * j + k) % 8 = k := by omega
  have byte : (8 * j + k) / 16 = j / 2 := by omega
  unfold sentBit
  by_cases payload : j < 2 * size
  · rw [if_pos (by omega), eccEncNibble_paddedNibble payload, encodedBlock, group, position, byte]
  · rw [if_neg (by omega), eccEncNibble_paddedNibble_beyond (by omega), BitVec.getLsbD_zero]

/-- The bits the sender's ECC gives its frames, after the command as during it (R161). -/
theorem frameBitOf_generatePcm (hfit : s.regs.geometryFits = true) (hsize : size ≤ 64) (i : Nat) :
    frameBitOf (generatePcm size s) i = sentBit s size i := by
  have after := generatePcm_spec size hfit
  obtain ⟨fb, hregs, -⟩ := after.regs
  rw [← frameBitOf_pcmStart hfit hsize]
  refine frameBitOf_congr ?_ (after.bytes .ecc) i
  rw [hregs, pcmStart_regs hfit]

end

/-! ### What the receiver makes of them -/

/-- The wrong frames of group j (R225). -/
def wrongFrames (wrong : Nat → Bool) (j : Nat) : Nat := (List.range 8).countP (fun k => wrong (8 * j + k))

/-- The receiver's ECC before its correction: the first `blocks` blocks are codewords, each with as many bits inverted
as its group has wrong frames (R225). -/
def PackedFrom (nibble : Nat → Nibble) (wrong : Nat → Bool) (blocks : Nat) (t : State) : Prop :=
  ∀ j, j < blocks → ∃ e, t.byteAt .ecc j = eccEncNibble (nibble j) ^^^ e ∧ byteWeight e = wrongFrames wrong j

/-- The receiver packs the sender's codewords where its decisions are the sender's bits but for the wrong frames. -/
theorem packedFrom_decodeStart {size : Nat} {s r : State} {wrong : Nat → Bool} (hF : r.regs.frames ≤ 1024)
    (hdet : ∀ i, i < r.regs.frames → detectedBit r i = (sentBit s size i ^^ wrong i)) :
    PackedFrom (paddedNibble s size) wrong (2 * (r.regs.frames / 16)) (decodeStart r) := by
  intro j hj
  refine ⟨eccEncNibble (paddedNibble s size j) ^^^ (decodeStart r).byteAt .ecc j, ?_, ?_⟩
  · rw [← BitVec.xor_assoc, BitVec.xor_self, BitVec.zero_xor]
  · rw [byteWeight_eq_countP_descending]
    refine List.countP_congr fun k hk => ?_
    have hk : k < 8 := List.mem_range.mp hk
    have bit := (decodeStart_spec r hF).ecc j ⟨7 - k, by omega⟩ hj
    have position : 7 - (7 - k) = k := by omega
    simp only [position] at bit
    rw [BitVec.getLsbD_xor, bit, hdet _ (by omega), sentBit_eq_getLsbD j hk, ← Bool.xor_assoc, Bool.xor_self,
      Bool.false_xor]

section
variable {nibble : Nat → Nibble} {wrong : Nat → Bool} {pairs : Nat} {t : State}
  (h : PackedFrom nibble wrong (2 * pairs) t)
include h

/-- Where no group has more than one wrong frame, every block gives back its nibble. -/
theorem PackedFrom.decodedBlock {j : Nat} (hj : j < 2 * pairs) (hfew : wrongFrames wrong j ≤ 1) :
    decodedBlock t j = { nibble := nibble j, corr := decide (wrongFrames wrong j = 1), unc := false } := by
  obtain ⟨e, hblock, hweight⟩ := h j hj
  rw [Machine.decodedBlock, hblock, eccDecByte_of_weight_le_one _ (by omega), hweight]

/-- A group without a wrong frame is received as it was sent. -/
theorem PackedFrom.ecc_of_clean {j : Nat} (hj : j < 2 * pairs) (hclean : wrongFrames wrong j = 0) :
    t.byteAt .ecc j = eccEncNibble (nibble j) := by
  obtain ⟨e, hblock, hweight⟩ := h j hj
  rw [hblock, (byteWeight_eq_zero_iff e).mp (hweight.trans hclean), BitVec.xor_zero]

/-- With at most one wrong frame in each group the correction ends Done with the payload (R225). -/
theorem PackedFrom.correction_done (hfew : ∀ j, j < 2 * pairs → wrongFrames wrong j ≤ 1) :
    (correction pairs t).regs = { t.regs.withEccFlags (correctedBlocks t (2 * pairs)) false with
      outLen := BitVec.ofNat 32 pairs, result := BitVec.ofNat 32 pairs, state := .done } ∧
    ∀ p, p < pairs → (correction pairs t).byteAt .out p = nibble (2 * p) ++ nibble (2 * p + 1) := by
  refine ⟨Machine.correction_done ?_, fun p hp => ?_⟩
  · exact (anyUncorrectable_eq_false t _).mpr fun j hj => by rw [h.decodedBlock hj (hfew j hj)]
  · rw [correction_byteAt, if_pos ⟨rfl, hp⟩, decodedByte, h.decodedBlock (by omega) (hfew _ (by omega)),
      h.decodedBlock (by omega) (hfew _ (by omega))]

/-- The corrected blocks are the groups with one wrong frame (R225). -/
theorem PackedFrom.correctedBlocks_pos_iff (hfew : ∀ j, j < 2 * pairs → wrongFrames wrong j ≤ 1) :
    0 < correctedBlocks t (2 * pairs) ↔ ∃ j, j < 2 * pairs ∧ wrongFrames wrong j = 1 := by
  rw [correctedBlocks, List.countP_pos_iff]
  refine exists_congr fun j => ?_
  rw [List.mem_range]
  refine and_congr_right fun hj => ?_
  rw [h.decodedBlock hj (hfew j hj), decide_eq_true_iff]

/-- Two wrong frames in one group are detected (R225). -/
theorem PackedFrom.correction_failed (hdouble : ∃ j, j < 2 * pairs ∧ wrongFrames wrong j = 2) :
    (correction pairs t).regs = { t.regs.withEccFlags (correctedBlocks t (2 * pairs)) true with
      outLen := 0#32, result := 0xFFFFFFFF#32, errc := 1#4, state := .failed } := by
  obtain ⟨j, hj, htwo⟩ := hdouble
  obtain ⟨e, hblock, hweight⟩ := h j hj
  refine Machine.correction_failed ((anyUncorrectable_iff t _).mpr ⟨j, hj, ?_⟩)
  rw [Machine.decodedBlock, hblock]
  exact eccDecByte_of_weight_two _ (hweight.trans htwo)

end

/-- A ready core passes the checks of DECODE with its own frame count (R105, R220). -/
theorem Ready.exec_decode {s : State} (h : Ready s) :
    exec (.decode s.regs.frames) s = .next (correction (s.regs.frames / 16) (decodeStart s)) :=
  (exec_constructed (i := .decode s.regs.frames) rfl h.state).trans
    (runDecode_eq_correction (s.regs.geometryFits_iff.mp h.fits).1)

/-- The capacity of a ready core is F / 16 (R27, R121). -/
theorem Ready.maxPayload_eq {s : State} (h : Ready s) : s.regs.maxPayload.toNat = s.regs.frames / 16 := by
  have legal := s.regs.legal_of_cfgOk h.geometry.1
  rw [h.geometry.2, BitVec.toNat_ofNat]
  exact Nat.mod_eq_of_lt (by omega)

/-- Settles O36: the receiver's blocks are `PackedFrom` the sender's nibbles, padded with 0. -/
theorem roundTripOverTwoInstances : Obligations.RoundTripOverTwoInstances := by
  intro size s r wrong sender receiver hframes hsize F M wrongIn
  have hF : r.regs.frames = F := congrArg BitVec.toNat hframes
  have hfits := (r.regs.geometryFits_iff.mp receiver.fits).1
  have hsize64 := sender.size_le hsize
  have hM : size ≤ M := by rwa [sender.maxPayload_eq] at hsize
  have run := receiver.exec_decode
  rw [hF] at run
  refine ⟨_, correction M (decodeStart r), sender.exec_genPcm hsize, fun hdet => ?_⟩
  have packed : PackedFrom (paddedNibble s size) wrong (2 * M) (decodeStart r) := by
    have detected : ∀ i, i < r.regs.frames → detectedBit r i = (sentBit s size i ^^ wrong i) := by
      intro i hi
      rw [Bool.eq_iff_iff, detectedBit_eq, decide_eq_true_iff, hdet i (hF ▸ hi),
        frameBitOf_generatePcm sender.fits hsize64]
    have blocks := packedFrom_decodeStart hfits detected
    rwa [hF] at blocks
  have few : (∀ j, j < 2 * M → wrongIn j ≤ 1) →
      (correction M (decodeStart r)).regs.state = .done ∧
      (correction M (decodeStart r)).regs.result = BitVec.ofNat 32 M ∧
      (∀ p, p < size → (correction M (decodeStart r)).byteAt .out p = s.byteAt .msg p) ∧
      (∀ p, size ≤ p → p < M → (correction M (decodeStart r)).byteAt .out p = 0x00#8) ∧
      ((correction M (decodeStart r)).regs.corrected = true ↔ ∃ j, j < 2 * M ∧ wrongIn j = 1) := by
    intro hfew
    obtain ⟨hregs, hout⟩ := packed.correction_done hfew
    refine ⟨by rw [hregs], by rw [hregs], fun p hp => ?payload, fun p hp hpM => ?padding, ?corrected⟩
    case payload => rw [hout p (by omega), paddedNibble_append, if_pos hp]
    case padding => rw [hout p hpM, paddedNibble_append, if_neg (by omega)]
    case corrected =>
      rw [hregs]
      exact decide_eq_true_iff.trans (packed.correctedBlocks_pos_iff hfew)
  refine ⟨run, fun hnone => ?none, few, fun hdouble => ?double⟩
  case none =>
    have hfew : ∀ j, j < 2 * M → wrongIn j ≤ 1 := fun j hj => by rw [hnone j hj]; omega
    have hcount : correctedBlocks (decodeStart r) (2 * M) = 0 := by
      refine Nat.eq_zero_of_not_pos fun hpos => ?_
      obtain ⟨j, hj, hone⟩ := (packed.correctedBlocks_pos_iff hfew).mp hpos
      have hzero : wrongFrames wrong j = 0 := hnone j hj
      omega
    obtain ⟨hstate, hresult, hpayload, hpadding, -⟩ := few hfew
    obtain ⟨hregs, -⟩ := packed.correction_done hfew
    rw [hcount] at hregs
    refine ⟨hstate, hresult, hpayload, hpadding, by rw [hregs]; rfl, by rw [hregs]; rfl, by rw [hregs]; rfl,
      fun j hj => ?ecc, fun j hj hjM => ?eccPadding⟩
    case ecc =>
      rw [correction_ecc, packed.ecc_of_clean (by omega) (hnone j (by omega)), eccEncNibble_paddedNibble hj,
        generatePcm_ecc sender.fits hj]
    case eccPadding =>
      rw [correction_ecc, packed.ecc_of_clean hjM (hnone j hjM), eccEncNibble_paddedNibble_beyond hj]
  case double =>
    rw [packed.correction_failed hdouble]
    exact ⟨rfl, rfl⟩

end Sys2Proof.Machine
end

section
/-! PROOFS. How a command's rule can end, said once for all eight, and what follows of it: the canonical form, the
memories each command writes, and the registers that only a reset undoes (spec 10_state R26, R27, R35 to R42; 20_memory
R79; 70_reset_and_hazards R270). -/

namespace Sys2Proof.Machine

/-! ### The two ends of a rule -/

/-- The Fail codes of a command's operand checks (R241). -/
def operandFailures : Instr → List FailCode
  | .nop _ | .reset _ | .genSpectrum _ => []
  | .configure _ => [.invalidConfiguration]
  | .encode _ | .genPcm _ => [.payloadTooLarge]
  | .correct _ => [.payloadTooLarge, .malformedEccBlock]
  | .decode _ => [.frameAlignmentMismatch]

/-- What a command leaves once its operand checks have passed; `commandRule_cases` ties it to the rules. -/
def Completes (i : Instr) (s t : State) : Prop :=
  match i with
  | .nop _ => t = s
  | .reset _ => t = s.resetRegisters
  | .configure _ => s.regs.cfgOk = true ∧
      t = s.setRegs { s.regs with maxPayload := BitVec.ofNat 32 (s.regs.frames / 16), result := 0#32, state := .idle }
  | .encode size => size ≤ 64 ∧
      t = (eccEncode size s).setRegs { s.regs with
        eccLen := BitVec.ofNat 32 (2 * size), result := BitVec.ofNat 32 (2 * size), state := .finalized }
  | .correct length => length % 2 = 0 ∧ length ≤ 128 ∧ t = correction (length / 2) (correctStart length s)
  | .genSpectrum _ => s.regs.geometryFits = true ∧ t = spectrumWritten s
  | .genPcm size => size ≤ 64 ∧ s.regs.geometryFits = true ∧ t = generatePcm size s
  | .decode _ => s.regs.frames ≤ 1024 ∧ t = correction (s.regs.frames / 16) (decodeStart s)

section
variable {i : Instr} {s t : State}

/-- A rule fails at an operand check, with nothing written before, or completes. -/
theorem commandRule_cases (h : commandRule i s = .next t) :
    (∃ f ∈ operandFailures i, t = s.fail f) ∨ Completes i s t := by
  cases i with
  | nop imm => cases h; exact .inr rfl
  | reset imm => cases h; exact .inr rfl
  | configure imm =>
    cases h
    by_cases legal : s.regs.cfgOk = true
    · exact .inr ⟨legal, runConfigure_legal legal⟩
    · exact .inl ⟨_, List.mem_singleton_self _, runConfigure_illegal legal⟩
  | encode size =>
    obtain ⟨-, rfl⟩ | ⟨-, hsize, rfl⟩ := runEncode_cases h
    · exact .inl ⟨_, List.mem_singleton_self _, rfl⟩
    · exact .inr ⟨hsize, rfl⟩
  | correct length =>
    obtain ⟨-, rfl⟩ | ⟨-, -, rfl⟩ | ⟨-, heven, hlen, rfl⟩ := runCorrect_cases h
    · exact .inl ⟨.payloadTooLarge, by simp [operandFailures], rfl⟩
    · exact .inl ⟨.malformedEccBlock, by simp [operandFailures], rfl⟩
    · exact .inr ⟨heven, hlen, rfl⟩
  | genSpectrum imm =>
    obtain ⟨hfit, rfl⟩ := runGenSpectrum_cases h
    refine .inr ⟨hfit, ?_⟩
    rw [generateSpectrum_regs s (s.regs.geometryFits_iff.mp hfit).2]
    rfl
  | genPcm size =>
    obtain ⟨-, rfl⟩ | ⟨-, hsize, hfit, rfl⟩ := runGenPcm_cases h
    · exact .inl ⟨_, List.mem_singleton_self _, rfl⟩
    · exact .inr ⟨hsize, hfit, rfl⟩
  | decode total =>
    obtain ⟨-, rfl⟩ | ⟨-, hF, rfl⟩ := runDecode_cases h
    · exact .inl ⟨_, List.mem_singleton_self _, rfl⟩
    · exact .inr ⟨hF, decodeFrames_eq s hF⟩

/-- A command is rejected, fails at an operand check, or completes (R105, R245). -/
theorem exec_cases (h : exec i s = .next t) :
    (legalIn i s.regs.state = false ∧ t = s.reject .illegalSequence) ∨
    (legalIn i s.regs.state = true ∧ ∃ f ∈ operandFailures i, t = s.fail f) ∨
    (legalIn i s.regs.state = true ∧ Completes i s t) := by
  rw [exec_eq_sequenced] at h
  obtain ⟨legal, hrule⟩ | hrejected := State.sequenced_cases h
  · obtain hfailed | hcompleted := commandRule_cases hrule
    · exact .inr (.inl ⟨legal, hfailed⟩)
    · exact .inr (.inr ⟨legal, hcompleted⟩)
  · exact .inl hrejected

/-! ### The canonical form -/

theorem Completes.wf (h : Completes i s t) (hm : s.mem.wf = true) : t.mem.wf = true := by
  cases i with
  | nop imm => obtain rfl := h; exact hm
  | reset imm => obtain rfl := h; exact hm
  | configure imm => obtain ⟨-, rfl⟩ := h; exact hm
  | encode size => obtain ⟨hsize, rfl⟩ := h; exact eccEncode_wf hsize hm
  | correct length => obtain ⟨-, hlen, rfl⟩ := h; exact correction_wf (by omega) hm
  | genSpectrum imm => obtain ⟨hfit, rfl⟩ := h; exact generateSpectrum_wf s hfit hm
  | genPcm size => obtain ⟨hsize, hfit, rfl⟩ := h; exact (generatePcm_spec size hfit).wf hsize hm
  | decode total => obtain ⟨hF, rfl⟩ := h; exact correction_wf (by omega) ((decodeStart_spec s hF).wf hm)

theorem exec_wf (h : exec i s = .next t) (hm : s.mem.wf = true) : t.mem.wf = true := by
  obtain ⟨-, rfl⟩ | ⟨-, f, -, rfl⟩ | ⟨-, hcompleted⟩ := exec_cases h
  · exact hm
  · exact hm
  · exact hcompleted.wf hm

theorem abandon_wf (h : abandon i s = .next t) (hm : s.mem.wf = true) : t.mem.wf = true := by
  obtain ⟨hfit, rfl⟩ := abandon_cases h
  obtain ⟨-, -, -, -, -, -, keeps⟩ := scramble_all s.freeCount (writeSet i s.regs) s
  exact keeps hfit hm

end

theorem issue_wf {c : Word} {s t : State} (h : issue c s = .next t) (hm : s.mem.wf = true) : t.mem.wf = true := by
  obtain ⟨i, -, hexec⟩ | ⟨op, -, rfl⟩ := issue_cases h
  · exact exec_wf hexec hm
  · exact hm

theorem handleEvent_wf {e : HostEvent} {s t : State} (h : handleEvent e s = .next t) (hm : s.mem.wf = true) :
    t.mem.wf = true := by
  obtain ⟨a, -, rfl⟩ | ⟨c, -, hissue⟩ | ⟨a, w, u, -, -, hstore, rfl⟩ | ⟨a, w, -, -, -, rfl⟩ | ⟨-, rfl⟩ |
    ⟨c, i, -, -, habandon⟩ := handleEvent_cases h
  · exact hm
  · exact issue_wf hissue hm
  · have stored : u.mem.wf = true := hostStore_wf hstore hm
    exact stored
  · exact hm
  · exact hm
  · exact abandon_wf habandon hm

/-- Settles O45: each thing an event can come to keeps the form. -/
theorem stepKeepsTheMemoriesCanonical : Obligations.StepKeepsTheMemoriesCanonical := by
  intro s t hm h
  obtain ⟨-, rfl⟩ | ⟨e, rest, -, hevent⟩ := step_cases h
  · exact hm
  · exact handleEvent_wf hevent hm

/-! ### Which memories a command writes -/

theorem eccEncode_byteAt_other (size : Nat) (s : State) {sp : ByteSpace} (h : sp ≠ .ecc) (j : Nat) :
    (eccEncode size s).byteAt sp j = s.byteAt sp j :=
  (eccEncode_byteAt size s sp j).trans (if_neg fun hecc => h hecc.1)

/-- The frame of a command, memory by memory (R35 to R42). -/
def WritesOnly (i : Instr) (s t : State) : Prop :=
  match i with
  | .nop _ | .configure _ | .reset _ => t.mem = s.mem
  | .encode _ => SameBytes .out s t ∧ ∀ sp, SameHalves sp s t
  | .correct _ => SameBytes .ecc s t ∧ ∀ sp, SameHalves sp s t
  | .genSpectrum _ => SameBytes .ecc s t ∧ SameBytes .out s t ∧
      SameHalves .cur s t ∧ SameHalves .outf s t ∧ SameHalves .pcm s t
  | .decode _ => ∀ sp, SameHalves sp s t
  | .genPcm _ => SameBytes .out s t

section
variable {i : Instr} {s t : State}

theorem writesOnly_of_mem_eq (h : t.mem = s.mem) : WritesOnly i s t := by
  obtain ⟨bytes, halves⟩ := sameMemory_of_mem_eq h
  cases i with
  | nop | configure | reset => exact h
  | encode size => exact ⟨bytes .out, halves⟩
  | correct length => exact ⟨bytes .ecc, halves⟩
  | genSpectrum imm => exact ⟨bytes .ecc, bytes .out, halves .cur, halves .outf, halves .pcm⟩
  | genPcm size => exact bytes .out
  | decode total => exact halves

/-- No command writes the host's side, MSG or DET (R35, R37). -/
theorem Completes.host_msg_det (h : Completes i s t) :
    SameHost s t ∧ SameBytes .msg s t ∧ SameHalves .det s t := by
  cases i with
  | nop imm => obtain rfl := h; exact ⟨⟨rfl, rfl, rfl⟩, fun _ => rfl, fun _ => rfl⟩
  | reset imm => obtain rfl := h; exact ⟨⟨rfl, rfl, rfl⟩, fun _ => rfl, fun _ => rfl⟩
  | configure imm => obtain ⟨-, rfl⟩ := h; exact ⟨⟨rfl, rfl, rfl⟩, fun _ => rfl, fun _ => rfl⟩
  | encode size =>
    obtain ⟨-, rfl⟩ := h
    exact ⟨eccEncode_host size s, fun j => eccEncode_byteAt_other size s (by decide) j,
      fun j => eccEncode_halfAt size s _ j⟩
  | correct length =>
    obtain ⟨-, -, rfl⟩ := h
    exact ⟨correction_host _ _, correction_msg _ _, correction_halfAt _ _ _⟩
  | genSpectrum imm =>
    obtain ⟨hfit, rfl⟩ := h
    have hN := (s.regs.geometryFits_iff.mp hfit).2
    exact ⟨spectrumWritten_host hN, spectrumWritten_byteAt hN .msg,
      fun j => (spectrumWritten_halfAt hN .det j).trans (spectrumElement_other (by decide) (by decide) _ j)⟩
  | genPcm size =>
    obtain ⟨-, hfit, rfl⟩ := h
    exact ⟨(generatePcm_spec size hfit).host, fun j => (generatePcm_byteAt hfit .msg j).trans (if_neg (by simp)),
      fun j => generatePcm_halfAt_kept hfit (.inl rfl)⟩
  | decode total =>
    obtain ⟨hF, rfl⟩ := h
    have packed := decodeStart_spec s hF
    exact ⟨packed.host.trans (correction_host _ _),
      fun j => (correction_msg _ _ j).trans (packed.bytes _ j (by decide)),
      fun j => (correction_halfAt _ _ _ j).trans (packed.halves _ j)⟩

theorem Completes.writesOnly (h : Completes i s t) : WritesOnly i s t := by
  cases i with
  | nop imm => obtain rfl := h; exact rfl
  | reset imm => obtain rfl := h; exact rfl
  | configure imm => obtain ⟨-, rfl⟩ := h; exact rfl
  | encode size =>
    obtain ⟨-, rfl⟩ := h
    exact ⟨fun j => eccEncode_byteAt_other size s (by decide) j, fun sp j => eccEncode_halfAt size s sp j⟩
  | correct length => obtain ⟨-, -, rfl⟩ := h; exact ⟨correction_ecc _ _, correction_halfAt _ _⟩
  | genSpectrum imm =>
    obtain ⟨hfit, rfl⟩ := h
    have hN := (s.regs.geometryFits_iff.mp hfit).2
    have kept : ∀ sp, sp ≠ .specLo → sp ≠ .specHi → SameHalves sp s (spectrumWritten s) :=
      fun sp hlo hhi j => (spectrumWritten_halfAt hN sp j).trans (spectrumElement_other hlo hhi _ j)
    exact ⟨spectrumWritten_byteAt hN .ecc, spectrumWritten_byteAt hN .out, kept _ (by decide) (by decide),
      kept _ (by decide) (by decide), kept _ (by decide) (by decide)⟩
  | genPcm size =>
    obtain ⟨-, hfit, rfl⟩ := h
    exact fun j => (generatePcm_byteAt hfit .out j).trans (if_neg (by simp))
  | decode total =>
    obtain ⟨hF, rfl⟩ := h
    exact fun sp j => (correction_halfAt _ _ sp j).trans ((decodeStart_spec s hF).halves sp j)

end

/-- Settles O53: a Reject and a Fail write registers only, and a command that completes has its frame. -/
theorem commandsWriteOnlyTheirMemories : Obligations.CommandsWriteOnlyTheirMemories := by
  intro i s t h
  have frame : SameHost s t ∧ SameBytes .msg s t ∧ SameHalves .det s t ∧ WritesOnly i s t := by
    obtain ⟨-, rfl⟩ | ⟨-, f, -, rfl⟩ | ⟨-, hcompleted⟩ := exec_cases h
    · exact ⟨⟨rfl, rfl, rfl⟩, fun _ => rfl, fun _ => rfl, writesOnly_of_mem_eq rfl⟩
    · exact ⟨⟨rfl, rfl, rfl⟩, fun _ => rfl, fun _ => rfl, writesOnly_of_mem_eq rfl⟩
    · obtain ⟨host, msg, det⟩ := hcompleted.host_msg_det
      exact ⟨host, msg, det, hcompleted.writesOnly⟩
  cases i <;> exact frame

/-! ### The configuration -/

/-- The five configuration registers and the capacity they give (R26, R27). -/
structure SameConfiguration (r q : Regs) : Prop where
  payloadFrames : q.payloadFrames = r.payloadFrames
  payloadFrameSize : q.payloadFrameSize = r.payloadFrameSize
  samplesPerFrame : q.samplesPerFrame = r.samplesPerFrame
  frequencyStart : q.frequencyStart = r.frequencyStart
  outputGain : q.outputGain = r.outputGain
  maxPayload : q.maxPayload = r.maxPayload

theorem SameConfiguration.trans {r q p : Regs} (h : SameConfiguration r q) (g : SameConfiguration q p) :
    SameConfiguration r p where
  payloadFrames := g.payloadFrames.trans h.payloadFrames
  payloadFrameSize := g.payloadFrameSize.trans h.payloadFrameSize
  samplesPerFrame := g.samplesPerFrame.trans h.samplesPerFrame
  frequencyStart := g.frequencyStart.trans h.frequencyStart
  outputGain := g.outputGain.trans h.outputGain
  maxPayload := g.maxPayload.trans h.maxPayload

section
variable {i : Instr} {s t : State}

theorem correction_sameConfiguration (pairs : Nat) (s : State) :
    SameConfiguration s.regs (correction pairs s).regs := by
  cases h : anyUncorrectable s (2 * pairs) with
  | true => rw [correction_failed h]; exact ⟨rfl, rfl, rfl, rfl, rfl, rfl⟩
  | false => rw [correction_done h]; exact ⟨rfl, rfl, rfl, rfl, rfl, rfl⟩

/-- Only CONFIGURE sets the capacity, and only RESET clears the configuration (R26, R27). -/
theorem Completes.sameConfiguration (h : Completes i s t) (hi : ∀ imm, i ≠ .configure imm ∧ i ≠ .reset imm) :
    SameConfiguration s.regs t.regs := by
  cases i with
  | nop imm => obtain rfl := h; exact ⟨rfl, rfl, rfl, rfl, rfl, rfl⟩
  | reset imm => exact absurd rfl (hi imm).2
  | configure imm => exact absurd rfl (hi imm).1
  | encode size => obtain ⟨-, rfl⟩ := h; exact ⟨rfl, rfl, rfl, rfl, rfl, rfl⟩
  | correct length =>
    obtain ⟨-, -, rfl⟩ := h
    refine SameConfiguration.trans ?_ (correction_sameConfiguration _ (correctStart length s))
    exact ⟨rfl, rfl, rfl, rfl, rfl, rfl⟩
  | genSpectrum imm => obtain ⟨-, rfl⟩ := h; exact ⟨rfl, rfl, rfl, rfl, rfl, rfl⟩
  | genPcm size =>
    obtain ⟨-, hfit, rfl⟩ := h
    obtain ⟨fb, hregs, -⟩ := (generatePcm_spec size hfit).regs
    rw [hregs]
    exact ⟨rfl, rfl, rfl, rfl, rfl, rfl⟩
  | decode total =>
    obtain ⟨hF, rfl⟩ := h
    obtain ⟨fb, hregs, -⟩ := (decodeStart_spec s hF).regs
    refine SameConfiguration.trans ?_ (correction_sameConfiguration _ (decodeStart s))
    rw [hregs]
    exact ⟨rfl, rfl, rfl, rfl, rfl, rfl⟩

/-- Outside Unconfigured a command other than RESET keeps the configuration, and STATE does not return there. -/
theorem exec_keeps_configuration (h : exec i s = .next t) (hreset : ∀ imm, i ≠ .reset imm)
    (hstate : s.regs.state ≠ .unconfigured) : t.regs.state ≠ .unconfigured ∧ SameConfiguration s.regs t.regs := by
  by_cases legal : legalIn i s.regs.state = true
  · rw [exec_legal legal] at h
    have hconfigure : ∀ imm, i ≠ .configure imm := by
      rintro imm rfl
      exact hstate (of_decide_eq_true legal)
    constructor
    · by_cases hnop : ∃ imm, i = .nop imm
      · obtain ⟨imm, rfl⟩ := hnop
        cases h
        exact hstate
      · have ends := (commandRule_endsIn (fun imm => ⟨fun e => hnop ⟨imm, e⟩, hreset imm⟩) h).state
        intro unconfigured
        rw [unconfigured] at ends
        cases i <;> simp [endStates] at ends
    · obtain ⟨f, -, rfl⟩ | hcompleted := commandRule_cases h
      · exact ⟨rfl, rfl, rfl, rfl, rfl, rfl⟩
      · exact hcompleted.sameConfiguration fun imm => ⟨hconfigure imm, hreset imm⟩
  · rw [exec_illegal (Bool.eq_false_iff.mpr legal)] at h
    cases h
    exact ⟨hstate, rfl, rfl, rfl, rfl, rfl, rfl⟩

/-- No command but RESET clears CMDERR (R24). -/
theorem exec_keeps_cmdErr (h : exec i s = .next t) (hreset : ∀ imm, i ≠ .reset imm) (hcmd : s.regs.cmdErr = true) :
    t.regs.cmdErr = true := by
  by_cases legal : legalIn i s.regs.state = true
  · rw [exec_legal legal] at h
    by_cases hnop : ∃ imm, i = .nop imm
    · obtain ⟨imm, rfl⟩ := hnop
      cases h
      exact hcmd
    · rw [(commandRule_endsIn (fun imm => ⟨fun e => hnop ⟨imm, e⟩, hreset imm⟩) h).cmdErr, hcmd]
  · rw [exec_illegal (Bool.eq_false_iff.mpr legal)] at h
    cases h
    rfl

end

/-- A store to a register touches the configuration only in Unconfigured, and STATE and CMDERR never (R79). -/
theorem hostStore_keeps {s t : State} {a : Addr} {w : Word} (h : hostStore s a w = some t) :
    t.regs.cmdErr = s.regs.cmdErr ∧
      (s.regs.state ≠ .unconfigured → t.regs.state ≠ .unconfigured ∧ SameConfiguration s.regs t.regs) := by
  obtain ⟨i, r, -, hregister, rfl⟩ | ⟨sp, i, -, -, -, rfl⟩ | ⟨sp, i, -, -, -, rfl⟩ := hostStore_cases h
  · obtain ⟨hstate, hindex⟩ := storeRegister_cases hregister
    refine ⟨?_, fun locked => absurd hstate locked⟩
    obtain ⟨-, rfl⟩ | ⟨-, rfl⟩ | ⟨-, rfl⟩ | ⟨-, rfl⟩ | ⟨-, rfl⟩ := hindex <;> rfl
  · exact ⟨rfl, fun hstate => ⟨hstate, rfl, rfl, rfl, rfl, rfl, rfl⟩⟩
  · exact ⟨rfl, fun hstate => ⟨hstate, rfl, rfl, rfl, rfl, rfl, rfl⟩⟩

theorem abandon_regs {i : Instr} {s t : State} (h : abandon i s = .next t) : t.regs = Regs.reset := by
  obtain ⟨-, rfl⟩ := abandon_cases h
  rfl

/-- Outside a reset, what a step keeps of CMDERR, STATE and the configuration (R24, R26, R27, R79). -/
def Locked (s t : State) : Prop :=
  (s.regs.cmdErr = true → t.regs.cmdErr = true) ∧
    (s.regs.state ≠ .unconfigured → t.regs.state ≠ .unconfigured ∧ SameConfiguration s.regs t.regs)

theorem locked_of_regs_eq {s t : State} (h : t.regs = s.regs) : Locked s t := by
  unfold Locked
  rw [h]
  exact ⟨id, fun hstate => ⟨hstate, rfl, rfl, rfl, rfl, rfl, rfl⟩⟩

/-- A command word other than RESET's keeps the lock; RESET's does what its OP says (R123, R270). -/
theorem issue_locked_or_reset {c : Word} {s t : State} (h : issue c s = .next t) :
    Locked s t ∨ (t.regs = Regs.reset ∧ c &&& 0x000000FF#32 = 0x00000007#32) := by
  obtain ⟨i, hdecode, hexec⟩ | ⟨op, -, rfl⟩ := issue_cases h
  · by_cases hreset : ∃ imm, i = .reset imm
    · obtain ⟨imm, rfl⟩ := hreset
      have himm : (c >>> 8).toNat = imm := (immField_eq_shiftRight c).symm.trans (decode_ok_iff.mp hdecode).2
      rw [exec_legal (i := .reset imm) rfl] at hexec
      cases hexec
      exact .inr ⟨rfl, (decode_ok_iff_match (i := .reset imm) himm).mp hdecode⟩
    · have other : ∀ imm, i ≠ .reset imm := fun imm e => hreset ⟨imm, e⟩
      exact .inl ⟨exec_keeps_cmdErr hexec other, exec_keeps_configuration hexec other⟩
  · exact .inl ⟨fun _ => rfl, fun hstate => ⟨hstate, rfl, rfl, rfl, rfl, rfl, rfl⟩⟩

theorem step_locked_or_reset {s t : State} (h : step s = .next t) :
    (t.regs = Regs.reset ∧ ∃ rest, s.pending = .rst :: rest ∨ (∃ a w, s.pending = .rstDuring a w :: rest) ∨
      ∃ c, c &&& 0x000000FF#32 = 0x00000007#32 ∧ s.pending = .write cmdAddr c :: rest) ∨ Locked s t := by
  obtain ⟨-, rfl⟩ | ⟨e, rest, hpending, hevent⟩ := step_cases h
  · exact .inr (locked_of_regs_eq rfl)
  obtain ⟨a, -, rfl⟩ | ⟨c, rfl, hissue⟩ | ⟨a, w, u, -, -, hstore, rfl⟩ | ⟨a, w, -, -, -, rfl⟩ | ⟨hrst, rfl⟩ |
    ⟨c, i, rfl, -, habandon⟩ := handleEvent_cases hevent
  · exact .inr (locked_of_regs_eq rfl)
  · obtain locked | ⟨hregs, hword⟩ := issue_locked_or_reset hissue
    · exact .inr locked
    · exact .inl ⟨hregs, rest, .inr (.inr ⟨c, hword, hpending⟩)⟩
  · obtain ⟨hcmd, hconfig⟩ := hostStore_keeps hstore
    exact .inr ⟨fun h => hcmd.trans h, hconfig⟩
  · exact .inr (locked_of_regs_eq rfl)
  · refine .inl ⟨rfl, rest, ?_⟩
    obtain rfl | ⟨a, w, rfl⟩ := hrst
    · exact .inl hpending
    · exact .inr (.inl ⟨a, w, hpending⟩)
  · exact .inl ⟨abandon_regs habandon, rest, .inr (.inl ⟨_, c, hpending⟩)⟩

/-- Settles O54: a step is one of the three reset events, or it keeps the lock. -/
theorem onlyAResetUndoesTheConfiguration : Obligations.OnlyAResetUndoesTheConfiguration := by
  intro s t h
  obtain hreset | ⟨hcmd, hconfig⟩ := step_locked_or_reset h
  · exact .inl hreset
  · refine .inr ⟨hcmd, fun hstate => ?_⟩
    obtain ⟨hstate', h1, h2, h3, h4, h5, h6⟩ := hconfig hstate
    exact ⟨hstate', h1, h2, h3, h4, h5, h6⟩

end Sys2Proof.Machine
end

section
/-! PROOFS. The invariant: what meets it, that every command and every event keeps it, and that under it every
transaction completes (spec 10_state section 2; 40_control R124; 70_reset_and_hazards R271, R273, R284). -/

namespace Sys2Proof.Machine

/-! ### Words as numbers -/

theorem toNat_ofNat_of_le {n : Nat} (h : n ≤ 1048576) : (BitVec.ofNat 32 n).toNat = n := by
  rw [BitVec.toNat_ofNat]
  exact Nat.mod_eq_of_lt (by omega)

theorem toInt_nonneg_of_toNat_le {w : Word} (h : w.toNat ≤ 1048576) : 0 ≤ w.toInt := by
  rw [BitVec.toInt_eq_toNat_of_lt (by omega)]
  exact Int.natCast_nonneg _

theorem FailCode.toInt_result (f : FailCode) : f.result.toInt = -(f.errc.toNat : Int) := by cases f <;> decide

theorem FailCode.errc_range (f : FailCode) : 1 ≤ f.errc.toNat ∧ f.errc.toNat ≤ 5 := by cases f <;> decide

/-! ### What the parts of the invariant depend on -/

theorem SameConfiguration.constructed {r q : Regs} (h : SameConfiguration r q) (hr : r.Constructed) :
    q.Constructed := by
  obtain ⟨h1, h2, h3, h4, h5, h6⟩ := h
  rw [Regs.Constructed, Regs.cfgOk, Regs.frames, Regs.samples, Regs.baseBin, Regs.gain, h1, h2, h3, h4, h5, h6]
  exact hr

/-- Tables that hold go on holding while neither they nor the geometry change. -/
theorem TablesHold.of_same {s t : State} (h : TablesHold s) (config : SameConfiguration s.regs t.regs)
    (lo : SameHalves .specLo s t) (hi : SameHalves .specHi s t) : TablesHold t := by
  obtain ⟨hframes, -, hsamples, hbase, -, -⟩ := config
  intro i b
  rw [Regs.frames, Regs.samples, Regs.baseBin, hframes, hsamples, hbase, lo, hi]
  exact h i b

/-- Of the memories the invariant speaks of their form and of the two tables. -/
theorem State.Inv.of_same_tables {s t : State} (h : s.Inv) (hregs : t.regs = s.regs) (hwf : t.mem.wf = true)
    (lo : SameHalves .specLo s t) (hi : SameHalves .specHi s t) : t.Inv := by
  have tables : TablesHold s → TablesHold t := fun ht =>
    ht.of_same (by rw [hregs]; exact ⟨rfl, rfl, rfl, rfl, rfl, rfl⟩) lo hi
  obtain ⟨-, h2, h3, ⟨h4, h4'⟩, h5, h6, h7, h8, h9⟩ := h
  constructor
  case canonical => exact hwf
  case spectra => exact ⟨fun hv => (hregs ▸ h4 (hregs ▸ hv)).imp id tables, fun hs => hregs ▸ h4' (hregs ▸ hs)⟩
  case stable => rw [StateIsStable, hregs]; exact h2
  case geometry => rw [GeometryHolds, hregs]; exact h3
  case errorCode => rw [ErrorCodeHolds, hregs]; exact h5
  case result => rw [ResultHolds, hregs]; exact h6
  case lengths => rw [LengthsHold, hregs]; exact h7
  case bounds => rw [BoundsHold, hregs]; exact h8
  case corrected => rw [CorrectedHolds, hregs]; exact h9

/-- Registers and memories are all the invariant speaks of. -/
theorem State.Inv.congr {s t : State} (h : s.Inv) (hregs : t.regs = s.regs) (hmem : t.mem = s.mem) : t.Inv :=
  h.of_same_tables hregs (by rw [hmem]; exact h.canonical) (fun _ => State.halfAt_congr hmem _ _)
    (fun _ => State.halfAt_congr hmem _ _)

/-- After a reset the invariant asks for canonical memories alone (R271). -/
theorem inv_of_reset {t : State} (hregs : t.regs = Regs.reset) (hm : t.mem.wf = true) : t.Inv := by
  constructor
  case canonical => exact hm
  all_goals
    simp only [StateIsStable, GeometryHolds, SpectraHold, ErrorCodeHolds, ResultHolds, LengthsHold, BoundsHold,
      CorrectedHolds, hregs]
    simp [Regs.reset, CoreState.stable, CoreState.alive]

/-- Settles O47: power-on memories are canonical. -/
theorem resetMeetsTheInvariant : Obligations.ResetMeetsTheInvariant := inv_of_reset rfl Memory.powerOn_wf

section
variable {s t : State}

theorem resultHolds_of_nonneg (hstate : t.regs.state ≠ .failed) (h : 0 ≤ t.regs.result.toInt) : ResultHolds t :=
  ⟨⟨fun e => absurd e hstate, fun neg => absurd h (by omega)⟩, fun e => absurd e hstate⟩

theorem resultHolds_of_fail {f : FailCode} (hstate : t.regs.state = .failed) (h : t.regs.result = f.result) :
    ResultHolds t := by
  have value := f.toInt_result
  have range := f.errc_range
  rw [ResultHolds, h]
  exact ⟨⟨fun _ => by omega, fun _ => hstate⟩, fun _ => by omega⟩

/-! ### Rejects and Fails -/

theorem RejectCode.errc_le (j : RejectCode) : j.errc.toNat ≤ 7 := by cases j <;> decide

/-- A Reject writes CMDERR and a code (R243). -/
theorem State.Inv.reject (h : s.Inv) (j : RejectCode) : (s.reject j).Inv where
  canonical := h.canonical
  stable := h.stable
  geometry := h.geometry
  spectra := h.spectra
  errorCode := j.errc_le
  result := h.result
  lengths := h.lengths
  bounds := h.bounds
  corrected := h.corrected

/-- A Fail before anything is written, where no result stands to be lost (R242). -/
theorem State.Inv.fail (h : s.Inv) (f : FailCode) (hdone : s.regs.state ≠ .done) (hfinal : s.regs.state ≠ .finalized) :
    (s.fail f).Inv where
  canonical := h.canonical
  stable := rfl
  geometry := ⟨(fun e => by cases e), fun e => by cases e⟩
  spectra := ⟨h.spectra.1, fun e => by cases e⟩
  errorCode := f.errc_range.2.trans (by decide)
  result := resultHolds_of_fail rfl rfl
  lengths := ⟨fun _ => h.lengths.1 hdone, fun _ => h.lengths.2.1 hfinal, fun e => by cases e⟩
  bounds := h.bounds
  corrected := h.corrected

/-! ### The commands of a constructed core -/

/-- A core on which a command of R106's last four rows, or GEN_SPECTRUM, may run. -/
theorem State.Inv.ready (h : s.Inv) (hstate : s.regs.state = .idle ∨ s.regs.state = .spectrumReady) : Ready s where
  geometry := h.geometry.1 (by obtain e | e := hstate <;> rw [e] <;> rfl)
  state := hstate
  tables := fun e => (h.spectra.1 (h.spectra.2 e)).2

/-- CONFIGURE on a legal geometry (R121). -/
theorem inv_runConfigure (h : s.Inv) (hstate : s.regs.state = .unconfigured) (hcfg : s.regs.cfgOk = true) :
    (s.setRegs { s.regs with
      maxPayload := BitVec.ofNat 32 (s.regs.frames / 16), result := 0#32, state := .idle }).Inv := by
  obtain ⟨-, hvalid, -⟩ := h.geometry.2 hstate
  obtain ⟨hout, hpcm, -⟩ := h.lengths
  constructor
  case canonical => exact h.canonical
  case stable => rfl
  case geometry => exact ⟨fun _ => ⟨hcfg, rfl⟩, fun e => by cases e⟩
  case spectra =>
    refine ⟨fun e => ?_, fun e => by cases e⟩
    rw [State.setRegs_regs, hvalid] at e
    cases e
  case errorCode => exact h.errorCode
  case result => exact resultHolds_of_nonneg (by simp) (by simp)
  case lengths =>
    exact ⟨fun _ => hout (by rw [hstate]; decide), fun _ => hpcm (by rw [hstate]; decide), fun e => by cases e⟩
  case bounds => exact h.bounds
  case corrected => exact h.corrected

/-- ENCODE within the capacity (R197). -/
theorem inv_encoded {size : Nat} (h : s.Inv) (hstate : s.regs.state = .idle ∨ s.regs.state = .spectrumReady)
    (hsize : size ≤ 64) :
    ((eccEncode size s).setRegs { s.regs with
      eccLen := BitVec.ofNat 32 (2 * size), result := BitVec.ofNat 32 (2 * size), state := .finalized }).Inv := by
  have ready := h.ready hstate
  have value : (BitVec.ofNat 32 (2 * size)).toNat = 2 * size := toNat_ofNat_of_le (by omega)
  obtain ⟨hout, -, -⟩ := h.lengths
  obtain ⟨-, bounds⟩ := h.bounds
  constructor
  case canonical => exact eccEncode_wf hsize h.canonical
  case stable => rfl
  case geometry => exact ⟨fun _ => ready.geometry, fun e => by cases e⟩
  case spectra =>
    refine ⟨fun e => ⟨ready.geometry, ?_⟩, fun e => by cases e⟩
    exact (h.spectra.1 e).2.of_same ⟨rfl, rfl, rfl, rfl, rfl, rfl⟩ (eccEncode_halfAt size s _)
      (eccEncode_halfAt size s _)
  case errorCode => exact h.errorCode
  case result => exact resultHolds_of_nonneg (by simp) (toInt_nonneg_of_toNat_le (value.trans_le (by omega)))
  case lengths =>
    exact ⟨fun _ => hout (by obtain e | e := hstate <;> rw [e] <;> decide), fun e => absurd rfl e, fun e => by cases e⟩
  case bounds => exact ⟨value.trans_le (by simp only [Config.maxEcc]; omega), bounds⟩
  case corrected => exact h.corrected

/-- GEN_SPECTRUM (R140, R141). -/
theorem inv_spectrumWritten (h : s.Inv) (hidle : s.regs.state = .idle) : (spectrumWritten s).Inv := by
  have ready := h.ready (.inl hidle)
  have legal := s.regs.legal_of_cfgOk ready.geometry.1
  obtain ⟨hout, hpcm, -⟩ := h.lengths
  constructor
  case canonical => exact generateSpectrum_wf s ready.fits h.canonical
  case stable => rfl
  case geometry => exact ⟨fun _ => ready.geometry, fun e => by cases e⟩
  case spectra => exact ⟨fun _ => ⟨ready.geometry, (ready_spectrumWritten ready.geometry).tables rfl⟩, fun _ => rfl⟩
  case errorCode => exact h.errorCode
  case result =>
    have small : s.regs.payloadFrames.toNat ≤ 1048576 := legal.2.1.trans (by decide)
    exact resultHolds_of_nonneg (fun e => by cases e) (toInt_nonneg_of_toNat_le small)
  case lengths =>
    exact ⟨fun _ => hout (by rw [hidle]; decide), fun _ => hpcm (by rw [hidle]; decide), fun e => by cases e⟩
  case bounds => exact h.bounds
  case corrected => exact h.corrected

/-- The samples of a legal geometry fit the output memories (R41, R122). -/
theorem Ready.frames_mul_samples_le (h : Ready s) : s.regs.frames * s.regs.samples ≤ 1048576 := by
  obtain ⟨hF, hN⟩ := s.regs.geometryFits_iff.mp h.fits
  exact (Nat.mul_le_mul hF hN).trans (by decide)

/-- GEN_PCM within the capacity (R160). -/
theorem inv_generatePcm {size : Nat} (h : s.Inv) (hstate : s.regs.state = .idle ∨ s.regs.state = .spectrumReady)
    (hsize : size ≤ 64) : (generatePcm size s).Inv := by
  have ready := h.ready hstate
  have legal := s.regs.legal_of_cfgOk ready.geometry.1
  have hregs := generatePcm_regs ready.fits hsize (by omega)
  have encoded : (BitVec.ofNat 32 (2 * size)).toNat = 2 * size := toNat_ofNat_of_le (by omega)
  have samples := toNat_ofNat_of_le ready.frames_mul_samples_le
  have within := ready.frames_mul_samples_le
  obtain ⟨hout, -, -⟩ := h.lengths
  obtain ⟨-, outBound, -, -, corrBound, -⟩ := h.bounds
  have config : SameConfiguration s.regs (generatePcm size s).regs := by
    rw [hregs]
    exact ⟨rfl, rfl, rfl, rfl, rfl, rfl⟩
  constructor
  case canonical => exact (generatePcm_spec size ready.fits).wf hsize h.canonical
  case stable => rw [StateIsStable, hregs]; rfl
  case geometry => exact ⟨fun _ => config.constructed ready.geometry, fun e => by rw [hregs] at e; cases e⟩
  case spectra =>
    exact ⟨fun _ => ⟨config.constructed ready.geometry, ready.generatePcm_tablesHold⟩,
      fun e => by rw [hregs] at e; cases e⟩
  case errorCode => rw [ErrorCodeHolds, hregs]; exact h.errorCode
  case result =>
    refine resultHolds_of_nonneg (by rw [hregs]; simp) (toInt_nonneg_of_toNat_le ?_)
    rw [hregs]
    exact samples.trans_le within
  case lengths =>
    rw [LengthsHold, hregs]
    exact ⟨fun _ => hout (by obtain e | e := hstate <;> rw [e] <;> decide), fun e => absurd rfl e, fun e => by cases e⟩
  case bounds =>
    rw [BoundsHold, hregs]
    exact ⟨encoded.trans_le (by simp only [Config.maxEcc]; omega), outBound, samples.trans_le within,
      samples.trans_le within, corrBound, le_refl _⟩
  case corrected => rw [CorrectedHolds, hregs]; exact h.corrected

/-- What CORRECT and DECODE have changed when they start to correct: ECC, and four registers (R198, R220). -/
structure CorrectionStart (s : State) (pairs : Nat) (t : State) : Prop where
  regs : ∃ st fi fb, t.regs = { s.regs with
      state := st, eccLen := BitVec.ofNat 32 (2 * pairs), frameIdx := fi, frameBit := fb } ∧
    fi.toNat ≤ s.regs.frames
  halves : ∀ sp, SameHalves sp s t
  wf : t.mem.wf = true

theorem correctionStart_correctStart {length : Nat} (h : s.Inv) (heven : length % 2 = 0) :
    CorrectionStart s (length / 2) (correctStart length s) where
  regs := by
    obtain ⟨-, -, -, -, -, index⟩ := h.bounds
    have blocks : 2 * (length / 2) = length := by omega
    exact ⟨.correcting, s.regs.frameIdx, s.regs.frameBit, by rw [blocks]; rfl, index⟩
  halves := fun _ _ => rfl
  wf := h.canonical

theorem correctionStart_decodeStart (h : s.Inv) (hF : s.regs.frames ≤ 1024) :
    CorrectionStart s (s.regs.frames / 16) (decodeStart s) := by
  obtain ⟨⟨fb, hregs, -⟩, -, hhalves, -, -, -, hwf⟩ := decodeStart_spec s hF
  exact ⟨⟨.correcting, s.regs.payloadFrames, fb, hregs, le_refl _⟩, hhalves, hwf h.canonical⟩

/-- The registers CORRECT and DECODE end with; five of them depend on whether a block was uncorrectable (R198, R220). -/
theorem CorrectionStart.regs_correction {pairs : Nat} (start : CorrectionStart s pairs t) :
    ∃ st e r o fi fb unc, (correction pairs t).regs = { s.regs with
        state := st, errc := e, result := r
        corrected := decide (0 < correctedBlocks t (2 * pairs)), uncorrectable := unc
        eccLen := BitVec.ofNat 32 (2 * pairs), outLen := o, frameIdx := fi, frameBit := fb
        corrCount := BitVec.ofNat 32 (correctedBlocks t (2 * pairs)) } ∧
      fi.toNat ≤ s.regs.frames ∧
      ((st = .done ∧ e = s.regs.errc ∧ r = o ∧ o = BitVec.ofNat 32 pairs) ∨
        (st = .failed ∧ e = 1#4 ∧ r = FailCode.uncorrectableData.result ∧ o = 0#32)) := by
  obtain ⟨⟨st, fi, fb, hregs, index⟩, -, -⟩ := start
  cases bad : anyUncorrectable t (2 * pairs) with
  | false =>
    have ends := correction_done bad
    rw [hregs] at ends
    exact ⟨_, _, _, _, fi, fb, false, ends, index, .inl ⟨rfl, rfl, rfl, rfl⟩⟩
  | true =>
    have ends := correction_failed bad
    rw [hregs] at ends
    exact ⟨_, _, _, _, fi, fb, true, ends, index, .inr ⟨rfl, rfl, rfl, rfl⟩⟩

/-- The correction CORRECT and DECODE share (R198, R220). -/
theorem inv_correction {pairs : Nat} (h : s.Inv) (hstate : s.regs.state = .idle ∨ s.regs.state = .spectrumReady)
    (hpairs : pairs ≤ 64) (start : CorrectionStart s pairs t) : (correction pairs t).Inv := by
  have ready := h.ready hstate
  have bytes : (BitVec.ofNat 32 pairs).toNat = pairs := toNat_ofNat_of_le (by omega)
  have blocks : (BitVec.ofNat 32 (2 * pairs)).toNat = 2 * pairs := toNat_ofNat_of_le (by omega)
  have countBound := correctedBlocks_le t (2 * pairs)
  have count : (BitVec.ofNat 32 (correctedBlocks t (2 * pairs))).toNat = correctedBlocks t (2 * pairs) :=
    toNat_ofNat_of_le (by omega)
  have hpcm := h.lengths.2.1 (by obtain e | e := hstate <;> rw [e] <;> decide)
  obtain ⟨-, -, pcmBound, outfBound, -, -⟩ := h.bounds
  have codeBound : s.regs.errc.toNat ≤ 7 := h.errorCode
  obtain ⟨st, e, r, o, fi, fb, unc, hregs, index, ends⟩ := start.regs_correction
  have config : SameConfiguration s.regs (correction pairs t).regs := by
    rw [hregs]
    exact ⟨rfl, rfl, rfl, rfl, rfl, rfl⟩
  have kept : ∀ sp, SameHalves sp s (correction pairs t) := fun sp j =>
    (correction_halfAt pairs t sp j).trans (start.halves sp j)
  constructor
  case canonical => exact correction_wf hpairs start.wf
  case stable =>
    rw [StateIsStable, hregs]
    obtain ⟨rfl, -⟩ | ⟨rfl, -⟩ := ends <;> rfl
  case geometry =>
    refine ⟨fun _ => config.constructed ready.geometry, fun unconfigured => ?_⟩
    rw [hregs] at unconfigured
    obtain ⟨rfl, -⟩ | ⟨rfl, -⟩ := ends <;> cases unconfigured
  case spectra =>
    refine ⟨fun valid => ⟨config.constructed ready.geometry, ?_⟩, fun spectrum => ?_⟩
    · rw [hregs] at valid
      exact (h.spectra.1 valid).2.of_same config (kept _) (kept _)
    · rw [hregs] at spectrum
      obtain ⟨rfl, -⟩ | ⟨rfl, -⟩ := ends <;> cases spectrum
  case errorCode =>
    rw [ErrorCodeHolds, hregs]
    obtain ⟨-, rfl, -⟩ | ⟨-, rfl, -⟩ := ends
    · exact codeBound
    · exact (by decide : (1#4).toNat ≤ 7)
  case result =>
    obtain ⟨rfl, -, rfl, rfl⟩ | ⟨rfl, -, rfl, -⟩ := ends
    · exact resultHolds_of_nonneg (by rw [hregs]; simp)
        (toInt_nonneg_of_toNat_le (by rw [hregs]; exact bytes.trans_le (by omega)))
    · exact resultHolds_of_fail (f := .uncorrectableData) (by rw [hregs]) (by rw [hregs])
  case lengths =>
    rw [LengthsHold, hregs]
    obtain ⟨rfl, -, rfl, -⟩ | ⟨rfl, -, -, rfl⟩ := ends
    · exact ⟨fun done => absurd rfl done, fun _ => hpcm, fun _ => rfl⟩
    · exact ⟨fun _ => rfl, fun _ => hpcm, fun done => by cases done⟩
  case bounds =>
    have outBound : o.toNat ≤ Config.maxMsg := by
      obtain ⟨-, -, -, rfl⟩ | ⟨-, -, -, rfl⟩ := ends
      · exact bytes.trans_le hpairs
      · exact Nat.zero_le _
    have eccBound : 2 * pairs ≤ Config.maxEcc := Nat.mul_le_mul_left 2 hpairs
    rw [BoundsHold, hregs]
    exact ⟨blocks.trans_le eccBound, outBound, pcmBound, outfBound, count.trans_le (countBound.trans eccBound), index⟩
  case corrected =>
    rw [CorrectedHolds, hregs, count]
    exact decide_eq_true_iff

end

/-- Every command that completes keeps the invariant. -/
theorem Completes.inv {i : Instr} {s t : State} (h : Completes i s t) (legal : legalIn i s.regs.state = true)
    (hs : s.Inv) : t.Inv := by
  cases i with
  | nop imm => obtain rfl := h; exact hs
  | reset imm => obtain rfl := h; exact inv_of_reset rfl hs.canonical
  | configure imm =>
    obtain ⟨hcfg, rfl⟩ := h
    exact inv_runConfigure hs (of_decide_eq_true legal) hcfg
  | encode size =>
    obtain ⟨hsize, rfl⟩ := h
    exact inv_encoded hs ((constructed_iff _).mp legal) hsize
  | correct length =>
    obtain ⟨heven, hlen, rfl⟩ := h
    exact inv_correction hs ((constructed_iff _).mp legal) (by omega) (correctionStart_correctStart hs heven)
  | genSpectrum imm =>
    obtain ⟨-, rfl⟩ := h
    exact inv_spectrumWritten hs (of_decide_eq_true legal)
  | genPcm size =>
    obtain ⟨hsize, -, rfl⟩ := h
    exact inv_generatePcm hs ((constructed_iff _).mp legal) hsize
  | decode total =>
    obtain ⟨hF, rfl⟩ := h
    exact inv_correction hs ((constructed_iff _).mp legal) (by omega) (correctionStart_decodeStart hs hF)

/-- A command that can fail starts in a state that holds no result (R106). -/
theorem state_of_operandFailure {i : Instr} {f : FailCode} {st : CoreState} (hf : f ∈ operandFailures i)
    (legal : legalIn i st = true) : st ≠ .done ∧ st ≠ .finalized := by
  cases i with
  | nop | reset | genSpectrum => cases hf
  | configure imm =>
    obtain rfl := of_decide_eq_true legal
    decide
  | encode | correct | genPcm | decode => obtain rfl | rfl := (constructed_iff st).mp legal <;> decide

theorem exec_inv {i : Instr} {s t : State} (h : exec i s = .next t) (hs : s.Inv) : t.Inv := by
  obtain ⟨-, rfl⟩ | ⟨legal, f, hf, rfl⟩ | ⟨legal, hcompleted⟩ := exec_cases h
  · exact hs.reject _
  · obtain ⟨hdone, hfinal⟩ := state_of_operandFailure hf legal
    exact hs.fail f hdone hfinal
  · exact hcompleted.inv legal hs

theorem issue_inv {c : Word} {s t : State} (h : issue c s = .next t) (hs : s.Inv) : t.Inv := by
  obtain ⟨i, -, hexec⟩ | ⟨op, -, rfl⟩ := issue_cases h
  · exact exec_inv hexec hs
  · exact hs.reject _

/-! ### The host's stores -/

/-- In Unconfigured any word may stand in the configuration registers (R26, R79). -/
theorem State.Inv.reconfigure {s : State} (h : s.Inv) (hstate : s.regs.state = .unconfigured) (f b n k g : Word) :
    (s.setRegs { s.regs with
      payloadFrames := f, payloadFrameSize := b, samplesPerFrame := n, frequencyStart := k, outputGain := g }).Inv := by
  obtain ⟨hcapacity, hvalid, hindex⟩ := h.geometry.2 hstate
  obtain ⟨ecc, out, pcm, outf, corr, -⟩ := h.bounds
  constructor
  case canonical => exact h.canonical
  case stable => exact h.stable
  case geometry =>
    refine ⟨fun e => ?_, fun _ => ⟨hcapacity, hvalid, hindex⟩⟩
    rw [State.setRegs_regs, hstate] at e
    cases e
  case spectra =>
    refine ⟨fun e => ?_, fun e => ?_⟩
    · rw [State.setRegs_regs, hvalid] at e
      cases e
    · rw [State.setRegs_regs, hstate] at e
      cases e
  case errorCode => exact h.errorCode
  case result => exact h.result
  case lengths => exact h.lengths
  case bounds =>
    refine ⟨ecc, out, pcm, outf, corr, ?_⟩
    rw [State.setRegs_regs, hindex]
    exact Nat.zero_le _
  case corrected => exact h.corrected

/-- A store to a register leaves every register but the five of the configuration (R79). -/
theorem storeRegister_eq {r q : Regs} {i : Nat} {w : Word} (h : storeRegister r i w = some q) :
    q = { r with
      payloadFrames := q.payloadFrames, payloadFrameSize := q.payloadFrameSize, samplesPerFrame := q.samplesPerFrame
      frequencyStart := q.frequencyStart, outputGain := q.outputGain } := by
  obtain ⟨-, ⟨-, rfl⟩ | ⟨-, rfl⟩ | ⟨-, rfl⟩ | ⟨-, rfl⟩ | ⟨-, rfl⟩⟩ := storeRegister_cases h <;> rfl

/-- DET is the only 16-bit memory the host may write (R71). -/
theorem HalfSpace.eq_det_of_hostWritable (sp : HalfSpace) (h : sp.hostWritable = true) : sp = .det := by
  revert h
  cases sp <;> decide

theorem hostStore_inv {s t : State} {a : Addr} {w : Word} (hstore : hostStore s a w = some t) (h : s.Inv) : t.Inv := by
  have wf := hostStore_wf hstore h.canonical
  obtain ⟨i, r, -, hregister, rfl⟩ | ⟨sp, i, -, -, -, rfl⟩ | ⟨sp, i, -, -, writable, rfl⟩ := hostStore_cases hstore
  · rw [storeRegister_eq hregister]
    exact h.reconfigure (storeRegister_cases hregister).1 _ _ _ _ _
  · exact h.of_same_tables rfl wf (fun j => State.halfAt_storeBytes ..) (fun j => State.halfAt_storeBytes ..)
  · have det := sp.eq_det_of_hostWritable writable
    have kept : ∀ sp', sp' ≠ .det → SameHalves sp' s (s.storeHalves sp i [w.extractLsb' 0 16]) := fun sp' other j =>
      (State.halfAt_storeHalves_singleton ..).trans (if_neg fun e => other (e.1.trans det))
    exact h.of_same_tables rfl wf (kept _ (by decide)) (kept _ (by decide))

theorem handleEvent_inv {e : HostEvent} {s t : State} (h : handleEvent e s = .next t) (hs : s.Inv) : t.Inv := by
  obtain ⟨a, -, rfl⟩ | ⟨c, -, hissue⟩ | ⟨a, w, u, -, -, hstore, rfl⟩ | ⟨a, w, -, -, -, rfl⟩ | ⟨-, rfl⟩ |
    ⟨c, i, -, -, habandon⟩ := handleEvent_cases h
  · exact hs.congr rfl rfl
  · exact issue_inv hissue (hs.congr rfl rfl)
  · exact (hostStore_inv hstore hs).congr rfl rfl
  · exact hs.congr rfl rfl
  · exact inv_of_reset rfl hs.canonical
  · exact inv_of_reset (abandon_regs habandon) (abandon_wf habandon hs.canonical)

/-- Settles O46: each thing an event can come to keeps the invariant. -/
theorem stepKeepsTheInvariant : Obligations.StepKeepsTheInvariant := by
  intro s t hs h
  obtain ⟨-, rfl⟩ | ⟨e, rest, -, hevent⟩ := step_cases h
  · exact hs
  · exact handleEvent_inv hevent (hs.congr rfl rfl)

/-! ### Completion -/

/-- A ready core has the capacity and the geometry of a legal configuration, so no rule stops (R122, log 7). -/
theorem Ready.commandRule_next {i : Instr} {s : State} (h : Ready s) : ∃ t, commandRule i s = .next t := by
  have capacity : s.regs.capacity = s.regs.frames / 16 := h.maxPayload_eq
  obtain ⟨hF, -⟩ := s.regs.geometryFits_iff.mp h.fits
  cases i with
  | nop | reset | configure => exact ⟨_, rfl⟩
  | genSpectrum imm => exact ⟨_, runGenSpectrum_fits h.fits⟩
  | encode size =>
    by_cases hsize : size ≤ s.regs.capacity
    · exact ⟨_, runEncode_fits hsize (by omega)⟩
    · exact ⟨_, runEncode_tooLarge (by omega)⟩
  | genPcm size =>
    by_cases hsize : size ≤ s.regs.capacity
    · exact ⟨_, runGenPcm_fits hsize (by omega) h.fits⟩
    · exact ⟨_, runGenPcm_tooLarge (by omega)⟩
  | correct length =>
    by_cases hlength : length ≤ 2 * s.regs.capacity
    · by_cases heven : length % 2 = 0
      · exact ⟨_, runCorrect_fits hlength heven (by omega)⟩
      · exact ⟨_, runCorrect_odd hlength (by omega)⟩
    · exact ⟨_, runCorrect_tooLarge (by omega)⟩
  | decode total =>
    by_cases htotal : total = s.regs.frames
    · exact ⟨_, htotal ▸ runDecode_fits hF⟩
    · exact ⟨_, runDecode_misaligned htotal⟩

/-- A command that is legal in a state with a geometry starts from a ready core. -/
theorem State.Inv.ready_of_legal {i : Instr} {s : State} (h : s.Inv) (legal : legalIn i s.regs.state = true) :
    (∃ imm, i = .nop imm ∨ i = .configure imm ∨ i = .reset imm) ∨ Ready s := by
  cases i with
  | nop imm => exact .inl ⟨imm, .inl rfl⟩
  | configure imm => exact .inl ⟨imm, .inr (.inl rfl)⟩
  | reset imm => exact .inl ⟨imm, .inr (.inr rfl)⟩
  | genSpectrum imm => exact .inr (h.ready (.inl (of_decide_eq_true legal)))
  | encode | correct | genPcm | decode => exact .inr (h.ready ((constructed_iff _).mp legal))

theorem State.Inv.exec_next {s : State} (h : s.Inv) (i : Instr) : ∃ t, exec i s = .next t := by
  by_cases legal : legalIn i s.regs.state = true
  · rw [exec_legal legal]
    obtain ⟨imm, rfl | rfl | rfl⟩ | ready := h.ready_of_legal legal
    · exact ⟨_, rfl⟩
    · exact ⟨_, rfl⟩
    · exact ⟨_, rfl⟩
    · exact ready.commandRule_next
  · exact ⟨_, exec_illegal (Bool.eq_false_iff.mpr legal)⟩

/-- A rejected command has no write set (log 6). -/
theorem legal_of_mem_writeSet {i : Instr} {r : Regs} {b : Block} (h : b ∈ writeSet i r) :
    legalIn i r.state = true := by
  unfold writeSet at h
  split at h
  · assumption
  · cases h

/-- On a ready core every element of a command's write set exists (R71, R273). -/
theorem Ready.fits_of_mem_writeSet {i : Instr} {s : State} {b : Block} (h : Ready s) (hb : b ∈ writeSet i s.regs) :
    b.fits = true := by
  have capacity : s.regs.capacity = s.regs.frames / 16 := h.maxPayload_eq
  obtain ⟨hF, hN⟩ := s.regs.geometryFits_iff.mp h.fits
  have spectrum : ∀ b ∈ spectrumBlocks s.regs, b.fits = true := List.all_eq_true.mp (spectrumBlocks_fit hF hN)
  have samples := h.frames_mul_samples_le
  have cases := mem_writeSet hb
  cases i with
  | nop | configure | reset => exact cases.elim
  | genSpectrum imm => exact spectrum b cases.2
  | encode size =>
    obtain ⟨hsize, rfl⟩ := cases
    exact decide_eq_true (show 0 + 2 * size ≤ 128 by omega)
  | correct length =>
    obtain ⟨hlength, rfl⟩ := cases
    exact decide_eq_true (show 0 + length / 2 ≤ 64 by omega)
  | decode total =>
    obtain rfl | rfl := cases
    · exact decide_eq_true (show 0 + 2 * (s.regs.frames / 16) ≤ 128 by omega)
    · exact decide_eq_true (show 0 + s.regs.frames / 16 ≤ 64 by omega)
  | genPcm size =>
    obtain ⟨hsize, rfl | ⟨-, hspectrum⟩ | rfl | rfl | rfl⟩ := cases
    · exact decide_eq_true (show 0 + 2 * size ≤ 128 by omega)
    · exact spectrum b hspectrum
    · exact decide_eq_true (show 0 + s.regs.samples ≤ 1024 by omega)
    · exact decide_eq_true (show 0 + s.regs.frames * s.regs.samples ≤ 1048576 by omega)
    · exact decide_eq_true (show 0 + s.regs.frames * s.regs.samples ≤ 1048576 by omega)

/-- A write set that is not empty is a ready core's. -/
theorem State.Inv.ready_of_mem_writeSet {i : Instr} {s : State} {b : Block} (h : s.Inv) (hb : b ∈ writeSet i s.regs) :
    Ready s := by
  obtain ⟨imm, rfl | rfl | rfl⟩ | ready := h.ready_of_legal (legal_of_mem_writeSet hb)
  · exact (mem_writeSet hb).elim
  · exact (mem_writeSet hb).elim
  · exact (mem_writeSet hb).elim
  · exact ready

theorem State.Inv.writeSet_fits {s : State} (h : s.Inv) (i : Instr) : (writeSet i s.regs).all Block.fits = true :=
  List.all_eq_true.mpr fun _ hb => (h.ready_of_mem_writeSet hb).fits_of_mem_writeSet hb

theorem State.Inv.hostWrite_next {s : State} (h : s.Inv) (a : Addr) (w : Word) : ∃ t, hostWrite s a w = .next t := by
  unfold hostWrite
  split
  · have responded : (s.respond (some .ok)).Inv := h.congr rfl rfl
    cases hdecode : decode w with
    | ok i => rw [issue_ok hdecode]; exact responded.exec_next i
    | error e => exact ⟨_, issue_error hdecode _⟩
  · split <;> exact ⟨_, rfl⟩

theorem State.Inv.resetDuring_next {s : State} (h : s.Inv) (a : Addr) (w : Word) :
    ∃ t, resetDuring s a w = .next t := by
  unfold resetDuring
  split
  · split
    · exact ⟨_, abandon_fits (h.writeSet_fits _)⟩
    · exact ⟨_, rfl⟩
  · exact ⟨_, rfl⟩

theorem State.Inv.handleEvent_next {s : State} (h : s.Inv) (e : HostEvent) : ∃ t, handleEvent e s = .next t := by
  cases e with
  | read a => exact ⟨_, rfl⟩
  | rst => exact ⟨_, rfl⟩
  | write a w => exact h.hostWrite_next a w
  | rstDuring a w => exact h.resetDuring_next a w

/-- Settles O48: under the invariant no command names an absent element, and nothing else stops. -/
theorem everyTransactionCompletes : Obligations.EveryTransactionCompletes := by
  intro s h
  cases hpending : s.pending with
  | nil => exact ⟨s, step_idle hpending⟩
  | cons e rest =>
    rw [step_event hpending]
    have taken : (s.setPending rest).Inv := h.congr rfl rfl
    exact taken.handleEvent_next e

/-! ### The transition relation -/

/-- RESULT of the five Fail codes, as a signed number (R25, R241). -/
theorem FailCode.toInt_values :
    FailCode.uncorrectableData.result.toInt = -1 ∧ FailCode.frameAlignmentMismatch.result.toInt = -2 ∧
    FailCode.malformedEccBlock.result.toInt = -3 ∧ FailCode.payloadTooLarge.result.toInt = -4 ∧
    FailCode.invalidConfiguration.result.toInt = -5 := by decide

/-- How CORRECT and DECODE end (R198, R220). -/
theorem CorrectionStart.ends {s t : State} {pairs : Nat} (start : CorrectionStart s pairs t) :
    ((correction pairs t).regs.state = .done ∧ (correction pairs t).regs.result = BitVec.ofNat 32 pairs) ∨
    ((correction pairs t).regs.state = .failed ∧ (correction pairs t).regs.result.toInt = -1) := by
  obtain ⟨st, e, r, o, fi, fb, unc, hregs, -, ends⟩ := start.regs_correction
  rw [hregs]
  obtain ⟨rfl, -, rfl, rfl⟩ | ⟨rfl, -, rfl, -⟩ := ends
  · exact .inl ⟨rfl, rfl⟩
  · exact .inr ⟨rfl, FailCode.toInt_values.1⟩

/-- Settles O51: an accepted command fails at an operand check, with the code of that check, or completes. -/
theorem transitionRelationOfAcceptedCommands : Obligations.TransitionRelationOfAcceptedCommands := by
  intro i s t hs legal h
  rw [exec_legal legal] at h
  obtain ⟨-, alignment, malformed, tooLarge, invalid⟩ := FailCode.toInt_values
  have cases := commandRule_cases h
  cases i with
  | nop imm => cases h; rfl
  | reset imm => cases h; exact ⟨rfl, rfl⟩
  | configure imm =>
    obtain ⟨f, hf, rfl⟩ | ⟨-, rfl⟩ := cases
    · obtain rfl := List.mem_singleton.mp hf
      exact .inr ⟨rfl, invalid⟩
    · exact .inl ⟨rfl, rfl⟩
  | genSpectrum imm =>
    obtain ⟨f, hf, -⟩ | ⟨-, rfl⟩ := cases
    · cases hf
    · exact ⟨rfl, rfl⟩
  | encode size =>
    obtain ⟨f, hf, rfl⟩ | ⟨hsize, rfl⟩ := cases
    · obtain rfl := List.mem_singleton.mp hf
      exact .inr ⟨rfl, tooLarge⟩
    · exact .inl ⟨rfl, toNat_ofNat_of_le (by omega)⟩
  | genPcm size =>
    have ready := hs.ready ((constructed_iff _).mp legal)
    have hpos := (s.regs.legal_of_cfgOk ready.geometry.1).1
    obtain ⟨f, hf, rfl⟩ | ⟨hsize, hfit, rfl⟩ := cases
    · obtain rfl := List.mem_singleton.mp hf
      exact .inr ⟨rfl, tooLarge⟩
    · refine .inl ?_
      rw [generatePcm_regs hfit hsize hpos]
      exact ⟨rfl, toNat_ofNat_of_le ready.frames_mul_samples_le⟩
  | correct length =>
    obtain ⟨f, hf, rfl⟩ | ⟨heven, hlength, rfl⟩ := cases
    · simp only [operandFailures, List.mem_cons, List.not_mem_nil, or_false] at hf
      obtain rfl | rfl := hf
      · exact .inr ⟨rfl, .inl tooLarge⟩
      · exact .inr ⟨rfl, .inr (.inl malformed)⟩
    · obtain ⟨hstate, hresult⟩ | ⟨hstate, hresult⟩ := (correctionStart_correctStart hs heven).ends
      · refine .inl ⟨hstate, ?_⟩
        rw [hresult]
        exact toNat_ofNat_of_le (by omega)
      · exact .inr ⟨hstate, .inr (.inr hresult)⟩
  | decode total =>
    have ready := hs.ready ((constructed_iff _).mp legal)
    obtain ⟨f, hf, rfl⟩ | ⟨hF, rfl⟩ := cases
    · obtain rfl := List.mem_singleton.mp hf
      exact .inr ⟨rfl, .inl alignment⟩
    · obtain ⟨hstate, hresult⟩ | ⟨hstate, hresult⟩ := (correctionStart_decodeStart hs hF).ends
      · exact .inl ⟨hstate, hresult.trans ready.geometry.2.symm⟩
      · exact .inr ⟨hstate, .inr hresult⟩

/-! ### `rst` during a command -/

/-- What `rst` during a command leaves: reset registers, no response, and every element that no block of the command's
write set holds (R270, R272, R273). -/
structure Abandoned (s : State) (c : Word) (rest : List HostEvent) (t : State) : Prop where
  regs : t.regs = Regs.reset
  response : t.response = none
  pending : t.pending = rest
  bytes : ∀ sp j, (∀ i, decode c = .ok i → ∀ b ∈ writeSet i s.regs, ¬ b.coversByte sp j) → t.byteAt sp j = s.byteAt sp j
  halves : ∀ sp j, (∀ i, decode c = .ok i → ∀ b ∈ writeSet i s.regs, ¬ b.coversHalf sp j) →
    t.halfAt sp j = s.halfAt sp j
  mem : (∀ i, decode c = .ok i → writeSet i s.regs = []) → t.mem = s.mem

/-- Under the invariant the write set exists, so `rst` during a command is a next state (R273). -/
theorem State.Inv.step_rstDuring {s : State} {c : Word} {rest : List HostEvent} (h : s.Inv)
    (hpending : s.pending = .rstDuring cmdAddr c :: rest) : ∃ t, step s = .next t ∧ Abandoned s c rest t := by
  have event : step s = resetDuring (s.setPending rest) cmdAddr c := step_event hpending
  rw [event, resetDuring, if_pos rfl]
  cases hdecode : decode c with
  | error e => exact ⟨_, rfl, rfl, rfl, rfl, fun _ _ _ => rfl, fun _ _ _ => rfl, fun _ => rfl⟩
  | ok i =>
    have hfit : (writeSet i (s.setPending rest).regs).all Block.fits = true := h.writeSet_fits i
    obtain ⟨-, hpend, -, -, hbytes, hhalves, -⟩ :=
      scramble_all s.freeCount (writeSet i s.regs) (s.setPending rest)
    refine ⟨_, abandon_fits hfit, rfl, rfl, hpend, fun sp j avoids => ?bytes, fun sp j avoids => ?halves,
      fun none => ?mem⟩
    case bytes => exact hbytes sp j (avoids i hdecode)
    case halves => exact hhalves sp j (avoids i hdecode)
    case mem =>
      have empty : writeSet i (s.setPending rest).regs = [] := none i hdecode
      rw [empty]
      rfl

section
variable {s t : State} {c : Word} {rest : List HostEvent} {i : Instr}

theorem Abandoned.byteAt (h : Abandoned s c rest t) (hdecode : decode c = .ok i) {sp : ByteSpace} {j : Nat}
    (avoids : ∀ b ∈ writeSet i s.regs, ¬ b.coversByte sp j) : t.byteAt sp j = s.byteAt sp j := by
  refine h.bytes sp j fun i' hdecode' => ?_
  rw [hdecode] at hdecode'
  cases hdecode'
  exact avoids

theorem Abandoned.halfAt (h : Abandoned s c rest t) (hdecode : decode c = .ok i) {sp : HalfSpace} {j : Nat}
    (avoids : ∀ b ∈ writeSet i s.regs, ¬ b.coversHalf sp j) : t.halfAt sp j = s.halfAt sp j := by
  refine h.halves sp j fun i' hdecode' => ?_
  rw [hdecode] at hdecode'
  cases hdecode'
  exact avoids

end

/-! Which elements the write sets leave out, by command (R273). -/

theorem Block.bytes_avoids {sp sp' : ByteSpace} {length j : Nat} (h : sp = sp' → length ≤ j) :
    ¬ (Block.bytes sp' 0 length).coversByte sp j := by
  rintro ⟨hsp, -, within⟩
  have beyond := h hsp
  omega

theorem Block.halves_avoids {sp sp' : HalfSpace} {length j : Nat} (h : sp = sp' → length ≤ j) :
    ¬ (Block.halves sp' 0 length).coversHalf sp j := by
  rintro ⟨hsp, -, within⟩
  have beyond := h hsp
  omega

section
variable {r : Regs} {j : Nat}

theorem writeSet_genSpectrum_avoidsHalf {imm : Nat} {sp : HalfSpace} (hN : r.samples ≤ 1024)
    (h : (sp ≠ .specLo ∧ sp ≠ .specHi) ∨ r.frames ≤ j / 512 ∨ r.samples / 2 ≤ j % 512) :
    ∀ b ∈ writeSet (.genSpectrum imm) r, ¬ b.coversHalf sp j :=
  fun b hb => spectrumBlocks_coversHalf hN h b (mem_writeSet hb).2

theorem writeSet_genPcm_avoidsByte {size : Nat} {sp : ByteSpace} (h : sp = .ecc → 2 * size ≤ j) :
    ∀ b ∈ writeSet (.genPcm size) r, ¬ b.coversByte sp j := by
  intro b hb
  obtain ⟨-, rfl | ⟨-, hspectrum⟩ | rfl | rfl | rfl⟩ := mem_writeSet hb
  · exact Block.bytes_avoids h
  · exact spectrumBlocks_coversByte r sp j b hspectrum
  all_goals exact id

theorem writeSet_genPcm_avoidsHalf {size : Nat} {sp : HalfSpace} (hN : r.samples ≤ 1024)
    (hcur : sp = .cur → r.samples ≤ j) (hout : sp = .outf ∨ sp = .pcm → r.frames * r.samples ≤ j)
    (hspec : sp = .specLo ∨ sp = .specHi → r.state ≠ .idle ∨ r.frames ≤ j / 512 ∨ r.samples / 2 ≤ j % 512) :
    ∀ b ∈ writeSet (.genPcm size) r, ¬ b.coversHalf sp j := by
  intro b hb
  obtain ⟨-, rfl | ⟨hidle, hspectrum⟩ | rfl | rfl | rfl⟩ := mem_writeSet hb
  · exact id
  · refine spectrumBlocks_coversHalf hN ?_ b hspectrum
    by_cases table : sp = .specLo ∨ sp = .specHi
    · exact .inr ((hspec table).resolve_left fun busy => busy hidle)
    · exact .inl (not_or.mp table)
  · exact Block.halves_avoids hcur
  · exact Block.halves_avoids fun e => hout (.inl e)
  · exact Block.halves_avoids fun e => hout (.inr e)

theorem writeSet_avoids_msg (i : Instr) : ∀ b ∈ writeSet i r, ¬ b.coversByte .msg j := by
  intro b hb
  cases i with
  | nop | configure | reset => exact (mem_writeSet hb).elim
  | genSpectrum imm => exact spectrumBlocks_coversByte r .msg j b (mem_writeSet hb).2
  | encode size => obtain ⟨-, rfl⟩ := mem_writeSet hb; exact Block.bytes_avoids (by simp)
  | correct length => obtain ⟨-, rfl⟩ := mem_writeSet hb; exact Block.bytes_avoids (by simp)
  | decode total => obtain rfl | rfl := mem_writeSet hb <;> exact Block.bytes_avoids (by simp)
  | genPcm size => exact writeSet_genPcm_avoidsByte (by simp) b hb

theorem writeSet_avoids_det (hN : r.samples ≤ 1024) (i : Instr) : ∀ b ∈ writeSet i r, ¬ b.coversHalf .det j := by
  intro b hb
  cases i with
  | nop | configure | reset => exact (mem_writeSet hb).elim
  | genSpectrum imm => exact writeSet_genSpectrum_avoidsHalf hN (.inl (by decide)) b hb
  | encode size => obtain ⟨-, rfl⟩ := mem_writeSet hb; exact id
  | correct length => obtain ⟨-, rfl⟩ := mem_writeSet hb; exact id
  | decode total => obtain rfl | rfl := mem_writeSet hb <;> exact id
  | genPcm size => exact writeSet_genPcm_avoidsHalf hN (by simp) (by simp) (by simp) b hb

end

/-- Settles O44: an abandoned command is reset_registers() after its write set has been left open, so each clause says
which elements that write set leaves out. -/
theorem abandonedCommandsLeaveTheRestAlone : Obligations.AbandonedCommandsLeaveTheRestAlone := by
  intro s c rest h hpending
  obtain ⟨t, hstep, after⟩ := h.step_rstDuring hpending
  have hN : ∀ {i b}, b ∈ writeSet i s.regs → s.regs.samples ≤ 1024 := fun hb =>
    (s.regs.geometryFits_iff.mp (h.ready_of_mem_writeSet hb).fits).2
  refine ⟨t, hstep, after.regs, after.response, after.pending, fun j => ?msg, fun j => ?det, fun undecoded => ?reserved,
    fun imm quiet => ?quiet,
    fun imm hd => ⟨fun sp j => ?specBytes, fun sp hlo hhi j => ?specOther, fun j hj => ?tables⟩,
    fun size hd => ⟨fun j => ?encOut, fun sp j => ?encHalves, fun j hj => ?encTail⟩,
    fun length hd => ⟨fun j => ?corEcc, fun sp j => ?corHalves, fun j hj => ?corTail⟩,
    fun total hd => ⟨fun sp j => ?decHalves, fun j hj => ?decEcc, fun j hj => ?decOut⟩,
    fun size hd => ⟨fun j => ?pcmOut, fun j hj => ?pcmEcc, fun j hj => ?pcmCur, fun j hj => ?pcmSamples,
      fun j hj => ?pcmTables⟩⟩
  case msg => exact after.bytes _ _ fun i _ => writeSet_avoids_msg i
  case det => exact after.halves _ _ fun i _ b hb => writeSet_avoids_det (hN hb) i b hb
  case reserved => exact after.mem fun i hd => absurd hd (undecoded i)
  case quiet =>
    refine after.mem fun i hd => List.eq_nil_iff_forall_not_mem.mpr fun b hb => ?_
    obtain hq | hq | hq := quiet <;> rw [hd] at hq <;> cases hq <;> exact mem_writeSet hb
  case specBytes => exact after.byteAt hd fun b hb => spectrumBlocks_coversByte _ _ _ b (mem_writeSet hb).2
  case specOther => exact after.halfAt hd fun b hb => writeSet_genSpectrum_avoidsHalf (hN hb) (.inl ⟨hlo, hhi⟩) b hb
  case tables =>
    exact ⟨after.halfAt hd fun b hb => writeSet_genSpectrum_avoidsHalf (hN hb) (.inr hj) b hb,
      after.halfAt hd fun b hb => writeSet_genSpectrum_avoidsHalf (hN hb) (.inr hj) b hb⟩
  case encOut =>
    exact after.byteAt hd fun b hb => by obtain ⟨-, rfl⟩ := mem_writeSet hb; exact Block.bytes_avoids (by simp)
  case encHalves => exact after.halfAt hd fun b hb => by obtain ⟨-, rfl⟩ := mem_writeSet hb; exact id
  case encTail =>
    exact after.byteAt hd fun b hb => by obtain ⟨-, rfl⟩ := mem_writeSet hb; exact Block.bytes_avoids fun _ => hj
  case corEcc =>
    exact after.byteAt hd fun b hb => by obtain ⟨-, rfl⟩ := mem_writeSet hb; exact Block.bytes_avoids (by simp)
  case corHalves => exact after.halfAt hd fun b hb => by obtain ⟨-, rfl⟩ := mem_writeSet hb; exact id
  case corTail =>
    exact after.byteAt hd fun b hb => by obtain ⟨-, rfl⟩ := mem_writeSet hb; exact Block.bytes_avoids fun _ => hj
  case decHalves => exact after.halfAt hd fun b hb => by obtain rfl | rfl := mem_writeSet hb <;> exact id
  case decEcc =>
    refine after.byteAt hd fun b hb => ?_
    obtain rfl | rfl := mem_writeSet hb
    · exact Block.bytes_avoids fun _ => hj
    · exact Block.bytes_avoids (by simp)
  case decOut =>
    refine after.byteAt hd fun b hb => ?_
    obtain rfl | rfl := mem_writeSet hb
    · exact Block.bytes_avoids (by simp)
    · exact Block.bytes_avoids fun _ => hj
  case pcmOut => exact after.byteAt hd (writeSet_genPcm_avoidsByte (by simp))
  case pcmEcc => exact after.byteAt hd (writeSet_genPcm_avoidsByte fun _ => hj)
  case pcmCur =>
    exact after.halfAt hd fun b hb => writeSet_genPcm_avoidsHalf (hN hb) (fun _ => hj) (by simp) (by simp) b hb
  case pcmSamples =>
    exact ⟨after.halfAt hd fun b hb => writeSet_genPcm_avoidsHalf (hN hb) (by simp) (fun _ => hj) (by simp) b hb,
      after.halfAt hd fun b hb => writeSet_genPcm_avoidsHalf (hN hb) (by simp) (fun _ => hj) (by simp) b hb⟩
  case pcmTables =>
    exact ⟨after.halfAt hd fun b hb => writeSet_genPcm_avoidsHalf (hN hb) (by simp) (by simp) (fun _ => hj) b hb,
      after.halfAt hd fun b hb => writeSet_genPcm_avoidsHalf (hN hb) (by simp) (by simp) (fun _ => hj) b hb⟩

end Sys2Proof.Machine
end
